-- ==== Sys2Proof/Word.lean ====
section
/-! DEFINITION. The widths of the machine's values: 32-bit words (R2, R6), bytes (R40), halfwords and
doublewords (00_scope.md glossary). Bit 0 is the least significant bit (R5), as in `BitVec`. -/

namespace Sys2Proof

/-- A register value, an address or an instruction word: `XLEN = ALEN = ILEN = 32` (R2, R4, R6). -/
abbrev Word := BitVec 32

/-- The addressable unit of memory (R40). -/
abbrev Byte := BitVec 8

/-- A halfword, and the 16-bit instruction parcel of Zclsd (R271). -/
abbrev Half := BitVec 16

/-- A doubleword, moved only by the optional pair instructions (R261). -/
abbrev Dword := BitVec 64

end Sys2Proof
end

