-- ==== Sys2Proof/Machine/Flags.lean ====
section
/-! DEFINITION. The machine has no flags (R28): no condition code, carry or overflow bit is in the state. What other machines
read from flags, this one computes where it needs it: the comparisons of the branches and of `slt`, `sltu` (R8), written here. -/

namespace Sys2Proof.Machine

/-- `a <s b`: `signed(a) < signed(b)` (R6, R8). -/
def ltS (a b : Word) : Bool := decide (a.toInt < b.toInt)

/-- `a <u b`: `unsigned(a) < unsigned(b)` (R6, R8). -/
def ltU (a b : Word) : Bool := decide (a.toNat < b.toNat)

/-- `a >=s b` (R8). -/
def geS (a b : Word) : Bool := decide (b.toInt ≤ a.toInt)

/-- `a >=u b` (R8). -/
def geU (a b : Word) : Bool := decide (b.toNat ≤ a.toNat)

/-- All 32 bits equal (R177). -/
def eqW (a b : Word) : Bool := a == b

/-- `bool_to_32(c)` (R8). -/
def boolToWord (c : Bool) : Word := if c then 1#32 else 0#32

end Sys2Proof.Machine
end

