-- ==== Sys2Proof/Config.lean ====
section
/-! DEFINITION. What is fixed for a machine and what the spec leaves free: the parameters of R4 and R265 as
plain data, and the free values, which are opaque constants that no proof can evaluate. -/

namespace Sys2Proof

/-- A range of byte addresses, both ends included. Every set of 32-bit addresses is a finite list of these. -/
structure AddrRange where
  lo : Nat
  hi : Nat
  deriving DecidableEq, Repr

/-- The optional extensions of SEC2 (R4, R260, R270). -/
structure Extensions where
  /-- `EXT_ZILSD`: the 32-bit `ld` and `sd`. -/
  zilsd : Bool
  /-- `EXT_ZCLSD`: the four 16-bit forms; it requires `zilsd` (R270). -/
  zclsd : Bool
  deriving DecidableEq, Repr

/-- The open parameters of the model (R4, R265; table at the end of 92_eei_decisions.md). `IMAGE` and the initial
registers are arguments of `State.start`. Kept as data, so that a claim about every state is a claim about every
parameter value (log 1, log 6). -/
structure Config where
  /-- The complement of `Backed`: the addresses that hold no memory (R41). -/
  holes : List AddrRange
  /-- `RESET_PC` (R341). -/
  resetPc : Word
  /-- `FETCH_SEES_STORES` (R57). -/
  fetchSeesStores : Bool
  /-- `EXT_ZILSD` and `EXT_ZCLSD` (R4). -/
  ext : Extensions
  /-- Where `ZilsdMisalignedTrap` holds, before multiples of 8 are taken out (R265). -/
  misalignedTrap : List AddrRange
  deriving DecidableEq, Repr

/-- Neither extension: the base machine, the default (R4, D2). -/
def Extensions.base : Extensions := { zilsd := false, zclsd := false }

/-- Both extensions (R270: Zclsd depends on Zilsd). -/
def Extensions.all : Extensions := { zilsd := true, zclsd := true }

/-- The default value of every parameter (R4, R41, R57, R265, R341). -/
def Config.default : Config where
  holes := []
  resetPc := 0#32
  fetchSeesStores := false
  ext := Extensions.base
  misalignedTrap := []

/-- What R341 requires of `RESET_PC`: a multiple of 4. -/
abbrev Config.wf (c : Config) : Prop := c.resetPc.toNat % 4 = 0

/-- FREE VALUE. The byte that an address holds when neither the image nor a store has given it one: "each holds some
value, fixed … about which nothing is known" (R33, R343; log 3). -/
opaque Config.unsetByte : Nat → Byte

/-- FREE VALUE. The draw number `n` of the run: whether a faulting `ld` has updated a register of its pair (R266) or a
faulting `sd` has written its backed half (R268) (log 7, log 8, log 9). -/
opaque Config.draw : Nat → Bool

end Sys2Proof
end

