-- ==== Sys2Proof/Syntax.lean ====
section
/-! DEFINITION. The instructions, one constructor per row of spec/opcode_table.json: the 38 of the base machine (R3) and
the six optional ones of 49_zilsd_zclsd_optional.md. Operands stand in the order the assembler writes them, a memory
operand `offset(rs1)` as offset then base. -/

namespace Sys2Proof

/-- A register number: the 5-bit field `rd`, `rs1` or `rs2` (R20, R72). -/
abbrev Reg := BitVec 5

/-- A compressed register field of 3 bits; value `k` names register `x(8+k)` (R272). -/
abbrev CReg := BitVec 3

/-- The instructions. Immediates are the values the formats encode (R75 to R80): 12 bits signed for I and S, an even 13-bit
and an even 21-bit signed offset for B and J, the 20-bit field for U, a 5-bit shift amount, and the zero-extended offsets of
the 16-bit forms. -/
inductive Instr where
  -- register-register, R format (R110 to R120)
  | sll (rd rs1 rs2 : Reg)
  | srl (rd rs1 rs2 : Reg)
  | sra (rd rs1 rs2 : Reg)
  | add (rd rs1 rs2 : Reg)
  | sub (rd rs1 rs2 : Reg)
  | xor (rd rs1 rs2 : Reg)
  | or (rd rs1 rs2 : Reg)
  | and (rd rs1 rs2 : Reg)
  | slt (rd rs1 rs2 : Reg)
  | sltu (rd rs1 rs2 : Reg)
  -- register-immediate, I format (R130 to R139)
  | slli (rd rs1 : Reg) (shamt : BitVec 5)
  | srli (rd rs1 : Reg) (shamt : BitVec 5)
  | srai (rd rs1 : Reg) (shamt : BitVec 5)
  | addi (rd rs1 : Reg) (imm : BitVec 12)
  | xori (rd rs1 : Reg) (imm : BitVec 12)
  | ori (rd rs1 : Reg) (imm : BitVec 12)
  | andi (rd rs1 : Reg) (imm : BitVec 12)
  | slti (rd rs1 : Reg) (imm : BitVec 12)
  | sltiu (rd rs1 : Reg) (imm : BitVec 12)
  -- loads, I format (R150 to R155)
  | lw (rd : Reg) (offset : BitVec 12) (rs1 : Reg)
  | lh (rd : Reg) (offset : BitVec 12) (rs1 : Reg)
  | lb (rd : Reg) (offset : BitVec 12) (rs1 : Reg)
  | lhu (rd : Reg) (offset : BitVec 12) (rs1 : Reg)
  | lbu (rd : Reg) (offset : BitVec 12) (rs1 : Reg)
  -- upper immediate, U format (R165 to R167)
  | lui (rd : Reg) (imm : BitVec 20)
  | auipc (rd : Reg) (imm : BitVec 20)
  -- branches, B format (R175 to R182)
  | beq (rs1 rs2 : Reg) (offset : BitVec 13)
  | bne (rs1 rs2 : Reg) (offset : BitVec 13)
  | blt (rs1 rs2 : Reg) (offset : BitVec 13)
  | bge (rs1 rs2 : Reg) (offset : BitVec 13)
  | bltu (rs1 rs2 : Reg) (offset : BitVec 13)
  | bgeu (rs1 rs2 : Reg) (offset : BitVec 13)
  -- jumps (R190 to R192)
  | jal (rd : Reg) (offset : BitVec 21)
  | jalr (rd rs1 : Reg) (imm : BitVec 12)
  -- stores, S format (R200 to R203)
  | sw (rs2 : Reg) (offset : BitVec 12) (rs1 : Reg)
  | sh (rs2 : Reg) (offset : BitVec 12) (rs1 : Reg)
  | sb (rs2 : Reg) (offset : BitVec 12) (rs1 : Reg)
  -- system (R210)
  | ebreak
  -- Zilsd (R262, R263)
  | ld (rd : Reg) (offset : BitVec 12) (rs1 : Reg)
  | sd (rs2 : Reg) (offset : BitVec 12) (rs1 : Reg)
  -- Zclsd (R273 to R276)
  | cLdsp (rd : Reg) (offset : BitVec 9)
  | cSdsp (rs2 : Reg) (offset : BitVec 9)
  | cLd (rd : CReg) (offset : BitVec 8) (rs1 : CReg)
  | cSd (rs2 : CReg) (offset : BitVec 8) (rs1 : CReg)
  deriving DecidableEq, Repr

end Sys2Proof
end

