-- ==== Sys2Proof/WellFormed.lean ====
section
/-! DEFINITION. What the encodings demand of an instruction beyond its field widths: even branch and jump offsets (R78, R80),
even pair registers (R261), `c.ldsp` not on x0 (R273), compressed offsets that are multiples of 8 (R273 to R276). -/

namespace Sys2Proof

/-- The low bit of an offset is 0: "an even 13-bit value", "an even 21-bit value" (R78, R80). -/
abbrev evenOffset {w : Nat} (v : BitVec w) : Bool := !v.getLsbD 0

/-- The register number is even: "register numbers must be even" (R261). -/
abbrev evenReg {w : Nat} (r : BitVec w) : Bool := !r.getLsbD 0

/-- The offset is a multiple of 8 (R273 to R276: "scaled by 8"). -/
abbrev multipleOf8 {w : Nat} (v : BitVec w) : Bool := v.toNat % 8 == 0

/-- An instruction that some word or parcel encodes. -/
def Instr.wf : Instr → Bool
  | .sll _ _ _ | .srl _ _ _ | .sra _ _ _ | .add _ _ _ | .sub _ _ _ => true
  | .xor _ _ _ | .or _ _ _ | .and _ _ _ | .slt _ _ _ | .sltu _ _ _ => true
  | .slli _ _ _ | .srli _ _ _ | .srai _ _ _ => true
  | .addi _ _ _ | .xori _ _ _ | .ori _ _ _ | .andi _ _ _ | .slti _ _ _ | .sltiu _ _ _ => true
  | .lw _ _ _ | .lh _ _ _ | .lb _ _ _ | .lhu _ _ _ | .lbu _ _ _ => true
  | .lui _ _ | .auipc _ _ => true
  | .beq _ _ offset | .bne _ _ offset | .blt _ _ offset => evenOffset offset
  | .bge _ _ offset | .bltu _ _ offset | .bgeu _ _ offset => evenOffset offset
  | .jal _ offset => evenOffset offset
  | .jalr _ _ _ => true
  | .sw _ _ _ | .sh _ _ _ | .sb _ _ _ => true
  | .ebreak => true
  | .ld rd _ _ => evenReg rd
  | .sd rs2 _ _ => evenReg rs2
  | .cLdsp rd offset => evenReg rd && rd != 0#5 && multipleOf8 offset
  | .cSdsp rs2 offset => evenReg rs2 && multipleOf8 offset
  | .cLd rd offset _ => evenReg rd && multipleOf8 offset
  | .cSd rs2 offset _ => evenReg rs2 && multipleOf8 offset

end Sys2Proof
end

