-- ==== Sys2Proof/Decode.lean ====
section
/-! DEFINITION. The decoder (R70 to R102, R269 to R277), total on any bytes and rejecting by name, and after it the encoder
(R95), written from the same layouts. Both speak of the raw instruction: a 32-bit word, or a 16-bit parcel of Zclsd. -/

namespace Sys2Proof

/-- Why bits are no instruction. Every one of these raises `IllegalInstruction` when it is fetched (R96, R304), but
`tooShort`, which only a list of bytes that ends early can give. -/
inductive Illegal where
  /-- The bytes end before the instruction does. -/
  | tooShort
  /-- `inst[6:0]` is no major opcode of R82 (R96, R99, R100, R101). -/
  | unassignedOpcode
  /-- The group has no instruction with these `funct3` and `funct7` (R83, R85, R86, R87, R90). -/
  | reservedFunct
  /-- A shift-immediate with other upper bits than R97 allows. -/
  | reservedShift
  /-- A SYSTEM word other than `ebreak` (R91, R92). -/
  | reservedSystem
  /-- The word is `ld` or `sd` and `EXT_ZILSD` is off (R102). -/
  | zilsdOff
  /-- An odd register where an even one names a pair (R261, R269, R277). -/
  | oddPair
  /-- `c.ldsp` with `rd = x0` (R273, R277). -/
  | zeroDestination
  /-- A 16-bit parcel that is none of the four forms (R270). -/
  | unassignedParcel
  deriving DecidableEq, Repr

/-- The bits of one instruction as fetched: a 32-bit word (R70) or, with Zclsd, a 16-bit parcel (R271). -/
inductive RawInstr where
  | word (w : Word)
  | parcel (h : Half)
  deriving DecidableEq, Repr

/-- What a trap records of the bits: the full word, or the parcel zero-extended (R304, R277). -/
def RawInstr.toWord : RawInstr → Word
  | .word w => w
  | .parcel h => h.setWidth 32

/-! ### Fields (R72) -/

abbrev fOpcode (w : Word) : BitVec 7 := w.extractLsb' 0 7
abbrev fRd (w : Word) : Reg := w.extractLsb' 7 5
abbrev fFunct3 (w : Word) : BitVec 3 := w.extractLsb' 12 3
abbrev fRs1 (w : Word) : Reg := w.extractLsb' 15 5
abbrev fRs2 (w : Word) : Reg := w.extractLsb' 20 5
abbrev fFunct7 (w : Word) : BitVec 7 := w.extractLsb' 25 7

/-! ### Immediates as their formats hold them -/

/-- `inst[31:20]` (R75). -/
def immI (w : Word) : BitVec 12 := w.extractLsb' 20 12
/-- `shamt_i = inst[24:20]` (R76). -/
def shamtI (w : Word) : BitVec 5 := w.extractLsb' 20 5
/-- `{inst[31:25], inst[11:7]}` (R77). -/
def immS (w : Word) : BitVec 12 := w.extractLsb' 25 7 ++ w.extractLsb' 7 5
/-- `{inst[31], inst[7], inst[30:25], inst[11:8], 0}` (R78). -/
def immB (w : Word) : BitVec 13 :=
  w.extractLsb' 31 1 ++ w.extractLsb' 7 1 ++ w.extractLsb' 25 6 ++ w.extractLsb' 8 4 ++ 0#1
/-- `inst[31:12]` (R79). -/
def immU (w : Word) : BitVec 20 := w.extractLsb' 12 20
/-- `{inst[31], inst[19:12], inst[20], inst[30:21], 0}` (R80). -/
def immJ (w : Word) : BitVec 21 :=
  w.extractLsb' 31 1 ++ w.extractLsb' 12 8 ++ w.extractLsb' 20 1 ++ w.extractLsb' 21 10 ++ 0#1

/-- `{inst[4:2], inst[12], inst[6:5], 000}` (R273). -/
def immCLdsp (h : Half) : BitVec 9 := h.extractLsb' 2 3 ++ h.extractLsb' 12 1 ++ h.extractLsb' 5 2 ++ 0#3
/-- `{inst[9:7], inst[12:10], 000}` (R274). -/
def immCSdsp (h : Half) : BitVec 9 := h.extractLsb' 7 3 ++ h.extractLsb' 10 3 ++ 0#3
/-- `{inst[6:5], inst[12:10], 000}` (R275, R276). -/
def immCPair (h : Half) : BitVec 8 := h.extractLsb' 5 2 ++ h.extractLsb' 10 3 ++ 0#3

/-! ### The groups of the opcode map -/

/-- The OP group (R83). -/
def decodeOp (w : Word) : Except Illegal Instr :=
  let rd := fRd w; let rs1 := fRs1 w; let rs2 := fRs2 w
  match fFunct7 w, fFunct3 w with
  | 0b0000000#7, 0b000#3 => .ok (.add rd rs1 rs2)
  | 0b0100000#7, 0b000#3 => .ok (.sub rd rs1 rs2)
  | 0b0000000#7, 0b001#3 => .ok (.sll rd rs1 rs2)
  | 0b0000000#7, 0b010#3 => .ok (.slt rd rs1 rs2)
  | 0b0000000#7, 0b011#3 => .ok (.sltu rd rs1 rs2)
  | 0b0000000#7, 0b100#3 => .ok (.xor rd rs1 rs2)
  | 0b0000000#7, 0b101#3 => .ok (.srl rd rs1 rs2)
  | 0b0100000#7, 0b101#3 => .ok (.sra rd rs1 rs2)
  | 0b0000000#7, 0b110#3 => .ok (.or rd rs1 rs2)
  | 0b0000000#7, 0b111#3 => .ok (.and rd rs1 rs2)
  | _, _ => .error .reservedFunct

/-- The OP-IMM group (R84, R97). -/
def decodeOpImm (w : Word) : Except Illegal Instr :=
  let rd := fRd w; let rs1 := fRs1 w
  match fFunct3 w with
  | 0b000#3 => .ok (.addi rd rs1 (immI w))
  | 0b010#3 => .ok (.slti rd rs1 (immI w))
  | 0b011#3 => .ok (.sltiu rd rs1 (immI w))
  | 0b100#3 => .ok (.xori rd rs1 (immI w))
  | 0b110#3 => .ok (.ori rd rs1 (immI w))
  | 0b111#3 => .ok (.andi rd rs1 (immI w))
  | 0b001#3 =>
    match fFunct7 w with
    | 0b0000000#7 => .ok (.slli rd rs1 (shamtI w))
    | _ => .error .reservedShift
  | _ =>  -- funct3 = 101, the one value left
    match fFunct7 w with
    | 0b0000000#7 => .ok (.srli rd rs1 (shamtI w))
    | 0b0100000#7 => .ok (.srai rd rs1 (shamtI w))
    | _ => .error .reservedShift

/-- The LOAD group (R85; `ld` by R262, R269). -/
def decodeLoad (ext : Extensions) (w : Word) : Except Illegal Instr :=
  let rd := fRd w; let rs1 := fRs1 w
  match fFunct3 w with
  | 0b000#3 => .ok (.lb rd (immI w) rs1)
  | 0b001#3 => .ok (.lh rd (immI w) rs1)
  | 0b010#3 => .ok (.lw rd (immI w) rs1)
  | 0b100#3 => .ok (.lbu rd (immI w) rs1)
  | 0b101#3 => .ok (.lhu rd (immI w) rs1)
  | 0b011#3 =>
    if ext.zilsd then (if evenReg rd then .ok (.ld rd (immI w) rs1) else .error .oddPair) else .error .zilsdOff
  | _ => .error .reservedFunct

/-- The STORE group (R86; `sd` by R263, R269). -/
def decodeStore (ext : Extensions) (w : Word) : Except Illegal Instr :=
  let rs1 := fRs1 w; let rs2 := fRs2 w
  match fFunct3 w with
  | 0b000#3 => .ok (.sb rs2 (immS w) rs1)
  | 0b001#3 => .ok (.sh rs2 (immS w) rs1)
  | 0b010#3 => .ok (.sw rs2 (immS w) rs1)
  | 0b011#3 =>
    if ext.zilsd then (if evenReg rs2 then .ok (.sd rs2 (immS w) rs1) else .error .oddPair) else .error .zilsdOff
  | _ => .error .reservedFunct

/-- The BRANCH group (R87). -/
def decodeBranch (w : Word) : Except Illegal Instr :=
  let rs1 := fRs1 w; let rs2 := fRs2 w
  match fFunct3 w with
  | 0b000#3 => .ok (.beq rs1 rs2 (immB w))
  | 0b001#3 => .ok (.bne rs1 rs2 (immB w))
  | 0b100#3 => .ok (.blt rs1 rs2 (immB w))
  | 0b101#3 => .ok (.bge rs1 rs2 (immB w))
  | 0b110#3 => .ok (.bltu rs1 rs2 (immB w))
  | 0b111#3 => .ok (.bgeu rs1 rs2 (immB w))
  | _ => .error .reservedFunct

/-- A 32-bit word (R93). -/
def decodeWord (ext : Extensions) (w : Word) : Except Illegal Instr :=
  match fOpcode w with
  | 0b0110111#7 => .ok (.lui (fRd w) (immU w))
  | 0b0010111#7 => .ok (.auipc (fRd w) (immU w))
  | 0b1101111#7 => .ok (.jal (fRd w) (immJ w))
  | 0b1100111#7 => if fFunct3 w = 0b000#3 then .ok (.jalr (fRd w) (fRs1 w) (immI w)) else .error .reservedFunct
  | 0b1100011#7 => decodeBranch w
  | 0b0000011#7 => decodeLoad ext w
  | 0b0100011#7 => decodeStore ext w
  | 0b0010011#7 => decodeOpImm w
  | 0b0110011#7 => decodeOp w
  | 0b1110011#7 => if w = 0x00100073#32 then .ok .ebreak else .error .reservedSystem
  | _ => .error .unassignedOpcode

/-- A 16-bit parcel, quadrants C0 and C2 (R270, R273 to R277). -/
def decodeParcel (h : Half) : Except Illegal Instr :=
  match h.extractLsb' 13 3, h.extractLsb' 0 2 with
  | 0b011#3, 0b10#2 =>
    let rd : Reg := h.extractLsb' 7 5
    if rd = 0#5 then .error .zeroDestination
    else if evenReg rd then .ok (.cLdsp rd (immCLdsp h)) else .error .oddPair
  | 0b111#3, 0b10#2 =>
    let rs2 : Reg := h.extractLsb' 2 5
    if evenReg rs2 then .ok (.cSdsp rs2 (immCSdsp h)) else .error .oddPair
  | 0b011#3, 0b00#2 =>
    let rd : CReg := h.extractLsb' 2 3
    if evenReg rd then .ok (.cLd rd (immCPair h) (h.extractLsb' 7 3)) else .error .oddPair
  | 0b111#3, 0b00#2 =>
    let rs2 : CReg := h.extractLsb' 2 3
    if evenReg rs2 then .ok (.cSd rs2 (immCPair h) (h.extractLsb' 7 3)) else .error .oddPair
  | _, _ => .error .unassignedParcel

/-- The instruction that the fetched bits stand for (step 3 of R26). -/
def decodeRaw (ext : Extensions) : RawInstr → Except Illegal Instr
  | .word w => decodeWord ext w
  | .parcel h => decodeParcel h

/-- Instructions are fetched in 16-bit parcels exactly when both extensions are on (R270, R271; log 14). -/
def Extensions.parcels (ext : Extensions) : Bool := ext.zilsd && ext.zclsd

/-- The low two bits of the first parcel are `11`: a 32-bit instruction (R271). -/
def isLong (h : Half) : Bool := h.extractLsb' 0 2 == 0b11#2

/-- The raw instruction at the front of a list of bytes, least significant byte first (R48, R271), and the bytes after it. -/
def splitRaw (ext : Extensions) : List Byte → Except Illegal (RawInstr × List Byte)
  | b0 :: b1 :: rest =>
    if ext.parcels && !isLong (b1 ++ b0) then .ok (.parcel (b1 ++ b0), rest)
    else
      match rest with
      | b2 :: b3 :: rest' => .ok (.word (b3 ++ b2 ++ b1 ++ b0), rest')
      | _ => .error .tooShort
  | _ => .error .tooShort

/-- The decoder on bytes: the instruction and the bytes after it, or why there is none. -/
def decode (ext : Extensions) (bytes : List Byte) : Except Illegal (Instr × List Byte) :=
  match splitRaw ext bytes with
  | .error e => .error e
  | .ok (raw, rest) =>
    match decodeRaw ext raw with
    | .error e => .error e
    | .ok i => .ok (i, rest)

/-! ### The encoder (R73, R95, R273 to R276) -/

def rWord (funct7 : BitVec 7) (rs2 rs1 : Reg) (funct3 : BitVec 3) (rd : Reg) (opcode : BitVec 7) : Word :=
  funct7 ++ rs2 ++ rs1 ++ funct3 ++ rd ++ opcode

def iWord (imm : BitVec 12) (rs1 : Reg) (funct3 : BitVec 3) (rd : Reg) (opcode : BitVec 7) : Word :=
  imm ++ rs1 ++ funct3 ++ rd ++ opcode

def sWord (imm : BitVec 12) (rs2 rs1 : Reg) (funct3 : BitVec 3) (opcode : BitVec 7) : Word :=
  imm.extractLsb' 5 7 ++ rs2 ++ rs1 ++ funct3 ++ imm.extractLsb' 0 5 ++ opcode

def bWord (imm : BitVec 13) (rs2 rs1 : Reg) (funct3 : BitVec 3) (opcode : BitVec 7) : Word :=
  imm.extractLsb' 12 1 ++ imm.extractLsb' 5 6 ++ rs2 ++ rs1 ++ funct3 ++ imm.extractLsb' 1 4 ++ imm.extractLsb' 11 1 ++ opcode

def uWord (imm : BitVec 20) (rd : Reg) (opcode : BitVec 7) : Word :=
  imm ++ rd ++ opcode

def jWord (imm : BitVec 21) (rd : Reg) (opcode : BitVec 7) : Word :=
  imm.extractLsb' 20 1 ++ imm.extractLsb' 1 10 ++ imm.extractLsb' 11 1 ++ imm.extractLsb' 12 8 ++ rd ++ opcode

/-- `c.ldsp`: `011 offset[5] rd offset[4:3] offset[8:6] 10` (R273). -/
def cLdspHalf (offset : BitVec 9) (rd : Reg) : Half :=
  0b011#3 ++ offset.extractLsb' 5 1 ++ rd ++ offset.extractLsb' 3 2 ++ offset.extractLsb' 6 3 ++ 0b10#2

/-- `c.sdsp`: `111 offset[5:3] offset[8:6] rs2 10` (R274). -/
def cSdspHalf (offset : BitVec 9) (rs2 : Reg) : Half :=
  0b111#3 ++ offset.extractLsb' 3 3 ++ offset.extractLsb' 6 3 ++ rs2 ++ 0b10#2

/-- `c.ld`, `c.sd`: `funct3 offset[5:3] rs1' offset[7:6] r' 00` (R275, R276). -/
def cPairHalf (funct3 : BitVec 3) (offset : BitVec 8) (rs1 r : CReg) : Half :=
  funct3 ++ offset.extractLsb' 3 3 ++ rs1 ++ offset.extractLsb' 6 2 ++ r ++ 0b00#2

/-- The bits of an instruction; of a well-formed one, bits that decode to it. -/
def encodeRaw : Instr → RawInstr
  | .sll rd rs1 rs2 => .word (rWord 0b0000000#7 rs2 rs1 0b001#3 rd 0b0110011#7)
  | .srl rd rs1 rs2 => .word (rWord 0b0000000#7 rs2 rs1 0b101#3 rd 0b0110011#7)
  | .sra rd rs1 rs2 => .word (rWord 0b0100000#7 rs2 rs1 0b101#3 rd 0b0110011#7)
  | .add rd rs1 rs2 => .word (rWord 0b0000000#7 rs2 rs1 0b000#3 rd 0b0110011#7)
  | .sub rd rs1 rs2 => .word (rWord 0b0100000#7 rs2 rs1 0b000#3 rd 0b0110011#7)
  | .xor rd rs1 rs2 => .word (rWord 0b0000000#7 rs2 rs1 0b100#3 rd 0b0110011#7)
  | .or rd rs1 rs2 => .word (rWord 0b0000000#7 rs2 rs1 0b110#3 rd 0b0110011#7)
  | .and rd rs1 rs2 => .word (rWord 0b0000000#7 rs2 rs1 0b111#3 rd 0b0110011#7)
  | .slt rd rs1 rs2 => .word (rWord 0b0000000#7 rs2 rs1 0b010#3 rd 0b0110011#7)
  | .sltu rd rs1 rs2 => .word (rWord 0b0000000#7 rs2 rs1 0b011#3 rd 0b0110011#7)
  | .slli rd rs1 shamt => .word (rWord 0b0000000#7 shamt rs1 0b001#3 rd 0b0010011#7)
  | .srli rd rs1 shamt => .word (rWord 0b0000000#7 shamt rs1 0b101#3 rd 0b0010011#7)
  | .srai rd rs1 shamt => .word (rWord 0b0100000#7 shamt rs1 0b101#3 rd 0b0010011#7)
  | .addi rd rs1 imm => .word (iWord imm rs1 0b000#3 rd 0b0010011#7)
  | .xori rd rs1 imm => .word (iWord imm rs1 0b100#3 rd 0b0010011#7)
  | .ori rd rs1 imm => .word (iWord imm rs1 0b110#3 rd 0b0010011#7)
  | .andi rd rs1 imm => .word (iWord imm rs1 0b111#3 rd 0b0010011#7)
  | .slti rd rs1 imm => .word (iWord imm rs1 0b010#3 rd 0b0010011#7)
  | .sltiu rd rs1 imm => .word (iWord imm rs1 0b011#3 rd 0b0010011#7)
  | .lw rd offset rs1 => .word (iWord offset rs1 0b010#3 rd 0b0000011#7)
  | .lh rd offset rs1 => .word (iWord offset rs1 0b001#3 rd 0b0000011#7)
  | .lb rd offset rs1 => .word (iWord offset rs1 0b000#3 rd 0b0000011#7)
  | .lhu rd offset rs1 => .word (iWord offset rs1 0b101#3 rd 0b0000011#7)
  | .lbu rd offset rs1 => .word (iWord offset rs1 0b100#3 rd 0b0000011#7)
  | .lui rd imm => .word (uWord imm rd 0b0110111#7)
  | .auipc rd imm => .word (uWord imm rd 0b0010111#7)
  | .beq rs1 rs2 offset => .word (bWord offset rs2 rs1 0b000#3 0b1100011#7)
  | .bne rs1 rs2 offset => .word (bWord offset rs2 rs1 0b001#3 0b1100011#7)
  | .blt rs1 rs2 offset => .word (bWord offset rs2 rs1 0b100#3 0b1100011#7)
  | .bge rs1 rs2 offset => .word (bWord offset rs2 rs1 0b101#3 0b1100011#7)
  | .bltu rs1 rs2 offset => .word (bWord offset rs2 rs1 0b110#3 0b1100011#7)
  | .bgeu rs1 rs2 offset => .word (bWord offset rs2 rs1 0b111#3 0b1100011#7)
  | .jal rd offset => .word (jWord offset rd 0b1101111#7)
  | .jalr rd rs1 imm => .word (iWord imm rs1 0b000#3 rd 0b1100111#7)
  | .sw rs2 offset rs1 => .word (sWord offset rs2 rs1 0b010#3 0b0100011#7)
  | .sh rs2 offset rs1 => .word (sWord offset rs2 rs1 0b001#3 0b0100011#7)
  | .sb rs2 offset rs1 => .word (sWord offset rs2 rs1 0b000#3 0b0100011#7)
  | .ebreak => .word 0x00100073#32
  | .ld rd offset rs1 => .word (iWord offset rs1 0b011#3 rd 0b0000011#7)
  | .sd rs2 offset rs1 => .word (sWord offset rs2 rs1 0b011#3 0b0100011#7)
  | .cLdsp rd offset => .parcel (cLdspHalf offset rd)
  | .cSdsp rs2 offset => .parcel (cSdspHalf offset rs2)
  | .cLd rd offset rs1 => .parcel (cPairHalf 0b011#3 offset rs1 rd)
  | .cSd rs2 offset rs1 => .parcel (cPairHalf 0b111#3 offset rs1 rs2)

/-- A word's bytes in memory order: little-endian (R42, R48). -/
def wordBytes (w : Word) : List Byte :=
  [w.extractLsb' 0 8, w.extractLsb' 8 8, w.extractLsb' 16 8, w.extractLsb' 24 8]

/-- A parcel's bytes in memory order (R271). -/
def halfBytes (h : Half) : List Byte := [h.extractLsb' 0 8, h.extractLsb' 8 8]

/-- A raw instruction's bytes in memory order. -/
def RawInstr.bytes : RawInstr → List Byte
  | .word w => wordBytes w
  | .parcel h => halfBytes h

/-- The encoder: an instruction's bytes in memory order. -/
def encode (i : Instr) : List Byte := (encodeRaw i).bytes

/-! ### The host's view of the decoder -/

/-- The extensions an instruction needs to be one (`enabled_by` in spec/opcode_table.json; R94). -/
def Instr.needs : Instr → Extensions
  | .sll _ _ _ | .srl _ _ _ | .sra _ _ _ | .add _ _ _ | .sub _ _ _ => Extensions.base
  | .xor _ _ _ | .or _ _ _ | .and _ _ _ | .slt _ _ _ | .sltu _ _ _ => Extensions.base
  | .slli _ _ _ | .srli _ _ _ | .srai _ _ _ => Extensions.base
  | .addi _ _ _ | .xori _ _ _ | .ori _ _ _ | .andi _ _ _ | .slti _ _ _ | .sltiu _ _ _ => Extensions.base
  | .lw _ _ _ | .lh _ _ _ | .lb _ _ _ | .lhu _ _ _ | .lbu _ _ _ => Extensions.base
  | .lui _ _ | .auipc _ _ => Extensions.base
  | .beq _ _ _ | .bne _ _ _ | .blt _ _ _ | .bge _ _ _ | .bltu _ _ _ | .bgeu _ _ _ => Extensions.base
  | .jal _ _ | .jalr _ _ _ => Extensions.base
  | .sw _ _ _ | .sh _ _ _ | .sb _ _ _ => Extensions.base
  | .ebreak => Extensions.base
  | .ld _ _ _ | .sd _ _ _ => { zilsd := true, zclsd := false }
  | .cLdsp _ _ | .cSdsp _ _ | .cLd _ _ _ | .cSd _ _ _ => Extensions.all

/-- The four bytes that hold an instruction whose first `nbits` bits are `w`, the bits above them 0. -/
def tableBytes (nbits w : Nat) : List Byte := wordBytes (BitVec.ofNat 32 (w % 2 ^ nbits))

/-- The instruction the decoder reads from a row's bits, with both extensions on, so that the rows of the optional
instructions can be read (log 5). -/
def decodeTableWord (nbits w : Nat) : Option Instr :=
  match decode Extensions.all (tableBytes nbits w) with
  | .ok (i, _) => some i
  | .error _ => none

end Sys2Proof
end

