-- ==== Sys2Proof/Machine/State.lean ====
section
/-! DEFINITION. The machine's state as plain data (R32), its start states and the state after reset (R33, R340 to R344), and
the reasons a step can stop. -/

namespace Sys2Proof.Machine

/-- The exceptions (R308). -/
inductive Cause where
  | instructionAddressMisaligned
  | instructionAccessFault
  | illegalInstruction
  | breakpoint
  | loadAddressMisaligned
  | loadAccessFault
  | storeAddressMisaligned
  | storeAccessFault
  deriving DecidableEq, Repr

/-- The trap record of R301. -/
structure TrapRecord where
  cause : Cause
  epc : Word
  tval : Word
  deriving DecidableEq, Repr

/-- Memory's known bytes: (address, byte) pairs, addresses strictly rising. An address that is not listed has no known
byte (log 3). -/
abbrev Memory := List Host.Cell

/-- The canonical form: addresses strictly rising and 32 bits wide. No entry can equal what an unlisted address holds, since
that is no known byte. -/
abbrev Memory.wf (m : Memory) : Prop := m.Pairwise (fun c d => c.1 < d.1) ∧ ∀ c ∈ m, c.1 < 2 ^ 32

/-- A set of byte addresses, strictly rising, so that equal sets are equal data. -/
abbrev AddrSet := List Nat

/-- The canonical form of an address set. -/
abbrev AddrSet.wf (d : AddrSet) : Prop := d.Pairwise (· < ·) ∧ ∀ a ∈ d, a < 2 ^ 32

/-- The state: the tuple of R32, the end of the run, the parameters, and the counter of free choices. -/
structure State where
  /-- `x1` to `x31`: register `i` stands at index `i - 1`. `x0` is a constant (R21, R32) and has no slot. -/
  regs : Vector Word 31
  /-- The address of the instruction being executed (R24, R25). -/
  pc : Word
  /-- `Mem` (R32, R40). -/
  mem : Memory
  /-- `Dirty`: the bytes some store has written since reset (R31, R45). -/
  dirty : AddrSet
  /-- The trap record once an exception has ended the run (R300, R301): the outcome, which no instruction can read (log 4). -/
  trap : Option TrapRecord
  /-- The parameters of the step relation (R32, R4): no step changes them (log 1). -/
  cfg : Config
  /-- How many free choices the run has made (R266, R268): the model's own field (log 9). -/
  draws : Nat
  deriving DecidableEq, Repr

/-- Why a step stops without a next state. -/
inductive Fault where
  /-- Raised by the step function alone, on a state whose run an exception has ended: "once a trap is taken the machine makes
  no further step" (R32, R300). Safe: the spec gives no step there. -/
  | runEnded (record : TrapRecord)
  deriving DecidableEq, Repr

/-- Why the model declines to give a step. -/
inductive Refusal where
  /-- An arm of `exec` whose instruction has no meaning yet. No arm uses it. Safe. -/
  | notModelled (mnemonic : String)
  /-- Raised by the fetch of a byte that a store has written, with `FETCH_SEES_STORES` off: "the machine has no defined step:
  a model refuses" (R57, R315 case c). Safe: the spec declines to say what the hardware does. -/
  | storedCodeFetched (pc : Word)
  deriving DecidableEq, Repr

/-- A start of a run (R33, R340 to R343): parameters, registers and image are the harness's; `pc` is `RESET_PC`, `Dirty` is
empty, no exception has been taken. -/
def State.start (cfg : Config) (regs : Vector Word 31) (image : Memory) : State where
  regs := regs
  pc := cfg.resetPc
  mem := image
  dirty := []
  trap := none
  cfg := cfg
  draws := 0

/-- The machine right after reset: the default parameters, no image, and 0 in `x1` to `x31`, whose value the spec leaves
unspecified (R33, R342; DESIGN CHOICE, log 2). -/
def State.reset : State := State.start Config.default (Vector.replicate 31 0#32) []

end Sys2Proof.Machine
end

