-- ==== Sys2Proof/Machine/Memory.lean ====
section
/-! DEFINITION. Reading and writing one byte of memory, and the address sets, in their canonical forms (R43, R45). -/

namespace Sys2Proof.Machine

/-- The byte an address is known to hold. -/
def Memory.lookup : Memory → Nat → Option Byte
  | [], _ => none
  | (k, b) :: m, a => if a = k then some b else Memory.lookup m a

/-- Write one byte, keeping the addresses strictly rising. -/
def Memory.write : Memory → Nat → Byte → Memory
  | [], a, b => [(a, b)]
  | (k, v) :: m, a, b =>
    if a < k then (a, b) :: (k, v) :: m
    else if a = k then (a, b) :: m
    else (k, v) :: Memory.write m a b

/-- What an address that is not listed reads as: an unspecified byte, fixed until it is written (R33, R343; log 3). -/
def unlistedByte (a : Nat) : Byte := Config.unsetByte a

/-- `Mem[a]` (R44). -/
def Memory.byte (m : Memory) (a : Nat) : Byte := (Memory.lookup m a).getD (unlistedByte a)

/-- Add an address, keeping the set strictly rising. -/
def AddrSet.insert : AddrSet → Nat → AddrSet
  | [], a => [a]
  | k :: d, a => if a < k then a :: k :: d else if a = k then k :: d else k :: AddrSet.insert d a

/-- A range of addresses holds an address. -/
def inRange (a : Nat) (r : AddrRange) : Bool := r.lo ≤ a && a ≤ r.hi

/-- `Backed` (R41): the address lies in no hole. -/
def isBacked (c : Config) (a : Word) : Bool := !c.holes.any (inRange a.toNat)

/-- `ZilsdMisalignedTrap` (R265): "constrained to be false on every multiple of 8". -/
def zilsdMisalignedTrap (c : Config) (a : Word) : Bool := a.toNat % 8 != 0 && c.misalignedTrap.any (inRange a.toNat)

/-- The addresses `a, a+1, …, a+n-1`, each modulo 2^32 (R44, R59). -/
def byteAddrs (a : Word) : Nat → List Word
  | 0 => []
  | n + 1 => a :: byteAddrs (a + 1#32) n

/-- Every byte of an access is backed (R44, R45, R46). -/
def allBacked (c : Config) (a : Word) (n : Nat) : Bool := (byteAddrs a n).all (isBacked c)

/-- The `n` bytes from `a` on, the byte at `a` lowest (R42, R44). -/
def loadBytes (m : Memory) (a : Word) : (n : Nat) → BitVec (8 * n)
  | 0 => 0#0
  | n + 1 => (loadBytes m (a + 1#32) n ++ Memory.byte m a.toNat : BitVec (8 * n + 8))

/-- Put the low `n` bytes of `v` at `a, …, a+n-1`, the lowest at `a` (R42, R45). -/
def storeBytes {w : Nat} (m : Memory) (a : Word) : Nat → BitVec w → Memory
  | 0, _ => m
  | n + 1, v => storeBytes (Memory.write m a.toNat (v.setWidth 8)) (a + 1#32) n (v >>> 8)

/-- Add `a, …, a+n-1` to a set of addresses (R45). -/
def markBytes (d : AddrSet) (a : Word) : Nat → AddrSet
  | 0 => d
  | n + 1 => markBytes (AddrSet.insert d a.toNat) (a + 1#32) n

end Sys2Proof.Machine
end

