-- ==== Sys2Proof/Machine/Ops.lean ====
section
/-! DEFINITION. The named operations over the state that the instructions share: registers (R9), the pc (R10), memory (R44,
R45), taking an exception (R12, R300, R301), jumping (R176, R190), fetching (R48, R57, R271). -/

namespace Sys2Proof.Machine

/-- What a step or a meaning answers. -/
abbrev Result := Host.Outcome State Fault Refusal

/-! ### Registers (R9, R21) -/

/-- `x[r]`: register 0 reads 0 always. -/
def State.readReg (s : State) (r : Reg) : Word :=
  if r = 0#5 then 0#32 else s.regs[r.toNat - 1]'(by have := r.isLt; omega)

/-- `x[r] <- v`: a write to register 0 is discarded. -/
def State.writeReg (s : State) (r : Reg) (v : Word) : State :=
  if r = 0#5 then s else { s with regs := s.regs.set (r.toNat - 1) v (by have := r.isLt; omega) }

/-! ### The program counter (R10, R26, R27) -/

/-- `pc <- t`. -/
def State.setPc (s : State) (t : Word) : State := { s with pc := t }

/-- `pc <- pc + n`, modulo 2^32: the next instruction in sequence. -/
def State.advance (s : State) (n : Word) : State := s.setPc (s.pc + n)

/-! ### Memory (R44, R45, R46) -/

/-- `Mem[a]`. -/
def State.byteAt (s : State) (a : Word) : Byte := Memory.byte s.mem a.toNat

/-- `MemRead(addr, n)`: nothing if a byte of the access is not backed. It changes no state and asks for no alignment (R47). -/
def State.memRead (s : State) (addr : Word) (n : Nat) : Option (BitVec (8 * n)) :=
  if allBacked s.cfg addr n then some (loadBytes s.mem addr n) else none

/-- The low `n` bytes of `v` at `addr`, and nothing else: `Dirty` does not change. -/
def State.writeBytes {w : Nat} (s : State) (addr : Word) (n : Nat) (v : BitVec w) : State :=
  { s with mem := storeBytes s.mem addr n v }

/-- The effect of a `MemWrite` whose bytes are all backed: the bytes, and `Dirty` (R45). -/
def State.poke {w : Nat} (s : State) (addr : Word) (n : Nat) (v : BitVec w) : State :=
  { s.writeBytes addr n v with dirty := markBytes s.dirty addr n }

/-- `MemWrite(addr, n, v)`: nothing if a byte of the access is not backed, and then no byte is written. -/
def State.memWrite {w : Nat} (s : State) (addr : Word) (n : Nat) (v : BitVec w) : Option State :=
  if allBacked s.cfg addr n then some (s.poke addr n v) else none

/-! ### Exceptions -/

/-- The standard code of a cause (R308, D10). No register holds it. -/
def Cause.code : Cause → Nat
  | .instructionAddressMisaligned => 0
  | .instructionAccessFault => 1
  | .illegalInstruction => 2
  | .breakpoint => 3
  | .loadAddressMisaligned => 4
  | .loadAccessFault => 5
  | .storeAddressMisaligned => 6
  | .storeAccessFault => 7

/-- End the run with the record `(cause, epc, tval)`, `epc` the pc of the instruction at fault (R301). -/
def State.endRun (s : State) (cause : Cause) (tval : Word) : State :=
  { s with trap := some { cause := cause, epc := s.pc, tval := tval } }

/-- TAKING AN EXCEPTION, `raise E(info)` (R12, R300, R301, R311, R312): the run ends with the trap record. Trap entry saves
nothing in architectural state and transfers control nowhere, so `x`, `pc`, `Mem` and `Dirty` stay as they are. There is no
return from an exception (R312), hence no operation for one. -/
def raise (cause : Cause) (tval : Word) (s : State) : Result := .next (s.endRun cause tval)

/-! ### Instruction addresses (R24, R49, R271) -/

/-- An address where no instruction can stand: not a multiple of 4, or, where instructions are parcels of 16 bits
(`IALIGN = 16`), odd (R49, R271). -/
def misalignedPc (c : Config) (t : Word) : Bool :=
  if c.ext.parcels then t.getLsbD 0 else t.getLsbD 0 || t.getLsbD 1

/-- Go to a computed target, or raise `InstructionAddressMisaligned(target)` and change nothing (R176, R190, R302). -/
def jumpTo (t : Word) (s : State) : Result :=
  if misalignedPc s.cfg t then raise .instructionAddressMisaligned t s else .next (s.setPc t)

/-- Go to a computed target with the link value `pc + 4` in `rd`; on a misaligned target neither `pc` nor `rd` changes
(R190, R191, R192). -/
def linkAndJump (rd : Reg) (t : Word) (s : State) : Result :=
  if misalignedPc s.cfg t then raise .instructionAddressMisaligned t s
  else .next ((s.writeReg rd (s.pc + 4#32)).setPc t)

/-! ### Fetch -/

/-- What a fetch answers: the raw instruction, or why there is none. -/
inductive Fetched where
  | raw (r : RawInstr)
  /-- A byte is not backed (R46, R305). -/
  | unbacked
  /-- A byte is in `Dirty` and `FETCH_SEES_STORES` is off (R57). -/
  | stored
  deriving DecidableEq, Repr

/-- Some byte of the access is in `Dirty`. -/
def State.anyDirty (s : State) (a : Word) (n : Nat) : Bool := (byteAddrs a n).any (fun b => s.dirty.contains b.toNat)

/-- The `n` bytes at `a` for the fetch: first whether they are backed, then whether one was stored to (R48, R57; log 11). -/
def State.fetchBytes (s : State) (a : Word) (n : Nat) (k : BitVec (8 * n) → Fetched) : Fetched :=
  if !allBacked s.cfg a n then .unbacked
  else if !s.cfg.fetchSeesStores && s.anyDirty a n then .stored
  else k (loadBytes s.mem a n)

/-- `Fetch(pc)`: a 32-bit word (R48), or with Zclsd one parcel and, where its low two bits are `11`, the next (R271). -/
def State.fetch (s : State) : Fetched :=
  if s.cfg.ext.parcels then
    s.fetchBytes s.pc 2 fun lo =>
      if isLong lo then s.fetchBytes (s.pc + 2#32) 2 fun hi => .raw (.word (hi ++ lo))
      else .raw (.parcel lo)
  else s.fetchBytes s.pc 4 fun w => .raw (.word w)

end Sys2Proof.Machine
end

