-- ==== Sys2Proof/Machine/Operands.lean ====
section
/-! DEFINITION. The operand forms: the 32-bit values of the immediates (R75 to R80, R273 to R276), the addressing modes
(R15), the register pairs (R261, R267, R272), and which registers an instruction names (R23). -/

namespace Sys2Proof.Machine

/-- `sext_32(v)` (R7). -/
def sext {k : Nat} (v : BitVec k) : Word := v.signExtend 32

/-- `zext_32(v)` (R7). -/
def zext {k : Nat} (v : BitVec k) : Word := v.setWidth 32

/-- `imm_u = zr_32(v)`: the 20 bits in bits 31:12, zeros below (R7, R79). -/
def upper (v : BitVec 20) : Word := v ++ 0#12

/-- Base-displacement: `x[rs1] + sext_32(imm)`, modulo 2^32 (R15, R150, R192, R200). -/
def State.baseDisp (s : State) (rs1 : Reg) (imm : BitVec 12) : Word := s.readReg rs1 + sext imm

/-- Base-displacement with the zero-extended offset of a 16-bit form (R273 to R276). -/
def State.baseOffset {k : Nat} (s : State) (rs1 : Reg) (offset : BitVec k) : Word := s.readReg rs1 + zext offset

/-- Pc-relative: `pc + sext_32(offset)`, modulo 2^32 (R15, R25, R175, R191). -/
def State.pcRel {k : Nat} (s : State) (offset : BitVec k) : Word := s.pc + sext offset

/-- The low 5 bits of a register, the shift distance of the register forms (R111). -/
def shiftAmount (v : Word) : Nat := (v.extractLsb' 0 5).toNat

/-- The register a compressed field names: `x(8+k)` (R272). -/
def cReg (k : CReg) : Reg := 0b01#2 ++ k

/-- `sp` is x2 (R22, R273). -/
def sp : Reg := 2#5

/-- The upper register of the pair named by an even number (R261). -/
def pairHigh (r : Reg) : Reg := r + 1#5

/-- The 64-bit operand of the pair `r`: `{x[r+1], x[r]}`, and for `r = 0` 64 zero bits (R261, R267). -/
def State.readPair (s : State) (r : Reg) : Dword :=
  if r = 0#5 then 0#64 else s.readReg (pairHigh r) ++ s.readReg r

/-- Write a pair, low half in the lower register; the pair 0 discards both halves (R261, R262, R267). -/
def State.writePair (s : State) (r : Reg) (v : Dword) : State :=
  if r = 0#5 then s
  else (s.writeReg r (v.extractLsb' 0 32)).writeReg (pairHigh r) (v.extractLsb' 32 32)

/-- The registers a pair's number names; none for the pair 0 (R261, R267). -/
def pairRegs (r : Reg) : List Reg := if r = 0#5 then [] else [r, pairHigh r]

/-- The registers an instruction reads (R23; R262, R263, R266 for the pairs). -/
def sources : Instr → List Reg
  | .sll _ rs1 rs2 | .srl _ rs1 rs2 | .sra _ rs1 rs2 | .add _ rs1 rs2 | .sub _ rs1 rs2 => [rs1, rs2]
  | .xor _ rs1 rs2 | .or _ rs1 rs2 | .and _ rs1 rs2 | .slt _ rs1 rs2 | .sltu _ rs1 rs2 => [rs1, rs2]
  | .slli _ rs1 _ | .srli _ rs1 _ | .srai _ rs1 _ => [rs1]
  | .addi _ rs1 _ | .xori _ rs1 _ | .ori _ rs1 _ | .andi _ rs1 _ | .slti _ rs1 _ | .sltiu _ rs1 _ => [rs1]
  | .lw _ _ rs1 | .lh _ _ rs1 | .lb _ _ rs1 | .lhu _ _ rs1 | .lbu _ _ rs1 => [rs1]
  | .lui _ _ | .auipc _ _ => []
  | .beq rs1 rs2 _ | .bne rs1 rs2 _ | .blt rs1 rs2 _ | .bge rs1 rs2 _ | .bltu rs1 rs2 _ | .bgeu rs1 rs2 _ => [rs1, rs2]
  | .jal _ _ => []
  | .jalr _ rs1 _ => [rs1]
  | .sw rs2 _ rs1 | .sh rs2 _ rs1 | .sb rs2 _ rs1 => [rs1, rs2]
  | .ebreak => []
  | .ld _ _ rs1 => [rs1]
  | .sd rs2 _ rs1 => rs1 :: pairRegs rs2
  | .cLdsp _ _ => [sp]
  | .cSdsp rs2 _ => sp :: pairRegs rs2
  | .cLd _ _ rs1 => [cReg rs1]
  | .cSd rs2 _ rs1 => cReg rs1 :: pairRegs (cReg rs2)

/-- The registers an instruction writes, `x0` among them where it is named (R23, R262). -/
def destinations : Instr → List Reg
  | .sll rd _ _ | .srl rd _ _ | .sra rd _ _ | .add rd _ _ | .sub rd _ _ => [rd]
  | .xor rd _ _ | .or rd _ _ | .and rd _ _ | .slt rd _ _ | .sltu rd _ _ => [rd]
  | .slli rd _ _ | .srli rd _ _ | .srai rd _ _ => [rd]
  | .addi rd _ _ | .xori rd _ _ | .ori rd _ _ | .andi rd _ _ | .slti rd _ _ | .sltiu rd _ _ => [rd]
  | .lw rd _ _ | .lh rd _ _ | .lb rd _ _ | .lhu rd _ _ | .lbu rd _ _ => [rd]
  | .lui rd _ | .auipc rd _ => [rd]
  | .beq _ _ _ | .bne _ _ _ | .blt _ _ _ | .bge _ _ _ | .bltu _ _ _ | .bgeu _ _ _ => []
  | .jal rd _ => [rd]
  | .jalr rd _ _ => [rd]
  | .sw _ _ _ | .sh _ _ _ | .sb _ _ _ => []
  | .ebreak => []
  | .ld rd _ _ => pairRegs rd
  | .sd _ _ _ => []
  | .cLdsp rd _ => pairRegs rd
  | .cSdsp _ _ => []
  | .cLd rd _ _ => pairRegs (cReg rd)
  | .cSd _ _ _ => []

/-- The bytes an instruction may store to: its effective address and its width in bytes (R50, R200, R263, R274, R276). -/
def storeTarget (i : Instr) (s : State) : Option (Word × Nat) :=
  match i with
  | .sll _ _ _ | .srl _ _ _ | .sra _ _ _ | .add _ _ _ | .sub _ _ _ => none
  | .xor _ _ _ | .or _ _ _ | .and _ _ _ | .slt _ _ _ | .sltu _ _ _ => none
  | .slli _ _ _ | .srli _ _ _ | .srai _ _ _ => none
  | .addi _ _ _ | .xori _ _ _ | .ori _ _ _ | .andi _ _ _ | .slti _ _ _ | .sltiu _ _ _ => none
  | .lw _ _ _ | .lh _ _ _ | .lb _ _ _ | .lhu _ _ _ | .lbu _ _ _ => none
  | .lui _ _ | .auipc _ _ => none
  | .beq _ _ _ | .bne _ _ _ | .blt _ _ _ | .bge _ _ _ | .bltu _ _ _ | .bgeu _ _ _ => none
  | .jal _ _ | .jalr _ _ _ => none
  | .sw _ offset rs1 => some (s.baseDisp rs1 offset, 4)
  | .sh _ offset rs1 => some (s.baseDisp rs1 offset, 2)
  | .sb _ offset rs1 => some (s.baseDisp rs1 offset, 1)
  | .ebreak => none
  | .ld _ _ _ => none
  | .sd _ offset rs1 => some (s.baseDisp rs1 offset, 8)
  | .cLdsp _ _ => none
  | .cSdsp _ offset => some (s.baseOffset sp offset, 8)
  | .cLd _ _ _ => none
  | .cSd _ offset rs1 => some (s.baseOffset (cReg rs1) offset, 8)

end Sys2Proof.Machine
end

