-- ==== Sys2Proof/Machine/Branches.lean ====
section
/-! DEFINITION. The conditional branches (44_branches.md, R175 to R182). -/

namespace Sys2Proof.Machine

/-- The family's operation (R175, R176): where the condition holds go to `pc + imm_b`, or raise on a misaligned target; where
it does not, go on, whatever the offset. -/
def branchOp (cond : Word → Word → Bool) (rs1 rs2 : Reg) (offset : BitVec 13) (s : State) : Result :=
  if cond (s.readReg rs1) (s.readReg rs2) then jumpTo (s.pcRel offset) s else .next (s.advance 4#32)

/-- `beq`: taken where `x[rs1] = x[rs2]` (R177). -/
def execBeq (rs1 rs2 : Reg) (offset : BitVec 13) (s : State) : Result :=
  branchOp eqW rs1 rs2 offset s

/-- `bne`: taken where `x[rs1] != x[rs2]` (R178). -/
def execBne (rs1 rs2 : Reg) (offset : BitVec 13) (s : State) : Result :=
  branchOp (fun a b => !eqW a b) rs1 rs2 offset s

/-- `blt`: taken where `x[rs1] <s x[rs2]` (R179). -/
def execBlt (rs1 rs2 : Reg) (offset : BitVec 13) (s : State) : Result :=
  branchOp ltS rs1 rs2 offset s

/-- `bge`: taken where `x[rs1] >=s x[rs2]` (R180). -/
def execBge (rs1 rs2 : Reg) (offset : BitVec 13) (s : State) : Result :=
  branchOp geS rs1 rs2 offset s

/-- `bltu`: taken where `x[rs1] <u x[rs2]` (R181). -/
def execBltu (rs1 rs2 : Reg) (offset : BitVec 13) (s : State) : Result :=
  branchOp ltU rs1 rs2 offset s

/-- `bgeu`: taken where `x[rs1] >=u x[rs2]` (R182). -/
def execBgeu (rs1 rs2 : Reg) (offset : BitVec 13) (s : State) : Result :=
  branchOp geU rs1 rs2 offset s

end Sys2Proof.Machine
end

