-- ==== Sys2Proof/Machine/IntegerImmediate.lean ====
section
/-! DEFINITION. The register-immediate instructions (41_integer_immediate.md, R130 to R139). -/

namespace Sys2Proof.Machine

/-- The family's operation (R130): combine `x[rs1]` with the immediate, write `rd`, go on. -/
def immOp (f : Word → Word) (rd rs1 : Reg) (s : State) : Result :=
  .next ((s.writeReg rd (f (s.readReg rs1))).advance 4#32)

/-- `slli`: `x[rd] <- x[rs1] << shamt_i` (R131). -/
def execSlli (rd rs1 : Reg) (shamt : BitVec 5) (s : State) : Result :=
  immOp (fun a => a <<< shamt.toNat) rd rs1 s

/-- `srli`: `x[rd] <- x[rs1] >>u shamt_i` (R132). -/
def execSrli (rd rs1 : Reg) (shamt : BitVec 5) (s : State) : Result :=
  immOp (fun a => a >>> shamt.toNat) rd rs1 s

/-- `srai`: `x[rd] <- x[rs1] >>s shamt_i` (R133). -/
def execSrai (rd rs1 : Reg) (shamt : BitVec 5) (s : State) : Result :=
  immOp (fun a => a.sshiftRight shamt.toNat) rd rs1 s

/-- `addi`: `x[rd] <- x[rs1] + imm_i` (R134). -/
def execAddi (rd rs1 : Reg) (imm : BitVec 12) (s : State) : Result :=
  immOp (fun a => a + sext imm) rd rs1 s

/-- `xori`: `x[rd] <- x[rs1] ^ imm_i` (R135). -/
def execXori (rd rs1 : Reg) (imm : BitVec 12) (s : State) : Result :=
  immOp (fun a => a ^^^ sext imm) rd rs1 s

/-- `ori`: `x[rd] <- x[rs1] | imm_i` (R136). -/
def execOri (rd rs1 : Reg) (imm : BitVec 12) (s : State) : Result :=
  immOp (fun a => a ||| sext imm) rd rs1 s

/-- `andi`: `x[rd] <- x[rs1] & imm_i` (R137). -/
def execAndi (rd rs1 : Reg) (imm : BitVec 12) (s : State) : Result :=
  immOp (fun a => a &&& sext imm) rd rs1 s

/-- `slti`: `x[rd] <- bool_to_32(x[rs1] <s imm_i)` (R138). -/
def execSlti (rd rs1 : Reg) (imm : BitVec 12) (s : State) : Result :=
  immOp (fun a => boolToWord (ltS a (sext imm))) rd rs1 s

/-- `sltiu`: `x[rd] <- bool_to_32(x[rs1] <u imm_i)` (R139). -/
def execSltiu (rd rs1 : Reg) (imm : BitVec 12) (s : State) : Result :=
  immOp (fun a => boolToWord (ltU a (sext imm))) rd rs1 s

end Sys2Proof.Machine
end

