-- ==== Sys2Proof/Machine/IntegerRegister.lean ====
section
/-! DEFINITION. The register-register instructions (40_integer_register.md, R110 to R120). -/

namespace Sys2Proof.Machine

/-- The family's operation (R110): read both sources, write `rd`, go on. No memory, no flag, no exception. -/
def regOp (f : Word → Word → Word) (rd rs1 rs2 : Reg) (s : State) : Result :=
  .next ((s.writeReg rd (f (s.readReg rs1) (s.readReg rs2))).advance 4#32)

/-- `sll`: `x[rd] <- x[rs1] << x[rs2][4:0]` (R111). -/
def execSll (rd rs1 rs2 : Reg) (s : State) : Result :=
  regOp (fun a b => a <<< shiftAmount b) rd rs1 rs2 s

/-- `srl`: `x[rd] <- x[rs1] >>u x[rs2][4:0]` (R112). -/
def execSrl (rd rs1 rs2 : Reg) (s : State) : Result :=
  regOp (fun a b => a >>> shiftAmount b) rd rs1 rs2 s

/-- `sra`: `x[rd] <- x[rs1] >>s x[rs2][4:0]` (R113). -/
def execSra (rd rs1 rs2 : Reg) (s : State) : Result :=
  regOp (fun a b => a.sshiftRight (shiftAmount b)) rd rs1 rs2 s

/-- `add`: `x[rd] <- x[rs1] + x[rs2]` (R114). -/
def execAdd (rd rs1 rs2 : Reg) (s : State) : Result :=
  regOp (fun a b => a + b) rd rs1 rs2 s

/-- `sub`: `x[rd] <- x[rs1] - x[rs2]` (R115). -/
def execSub (rd rs1 rs2 : Reg) (s : State) : Result :=
  regOp (fun a b => a - b) rd rs1 rs2 s

/-- `xor`: `x[rd] <- x[rs1] ^ x[rs2]` (R116). -/
def execXor (rd rs1 rs2 : Reg) (s : State) : Result :=
  regOp (fun a b => a ^^^ b) rd rs1 rs2 s

/-- `or`: `x[rd] <- x[rs1] | x[rs2]` (R117). -/
def execOr (rd rs1 rs2 : Reg) (s : State) : Result :=
  regOp (fun a b => a ||| b) rd rs1 rs2 s

/-- `and`: `x[rd] <- x[rs1] & x[rs2]` (R118). -/
def execAnd (rd rs1 rs2 : Reg) (s : State) : Result :=
  regOp (fun a b => a &&& b) rd rs1 rs2 s

/-- `slt`: `x[rd] <- bool_to_32(x[rs1] <s x[rs2])` (R119). -/
def execSlt (rd rs1 rs2 : Reg) (s : State) : Result :=
  regOp (fun a b => boolToWord (ltS a b)) rd rs1 rs2 s

/-- `sltu`: `x[rd] <- bool_to_32(x[rs1] <u x[rs2])` (R120). -/
def execSltu (rd rs1 rs2 : Reg) (s : State) : Result :=
  regOp (fun a b => boolToWord (ltU a b)) rd rs1 rs2 s

end Sys2Proof.Machine
end

