-- ==== Sys2Proof/Machine/Jumps.lean ====
section
/-! DEFINITION. The jumps (45_jumps.md, R190 to R192). -/

namespace Sys2Proof.Machine

/-- `jal`: to `pc + imm_j`, with `pc + 4` in `rd` (R191). -/
def execJal (rd : Reg) (offset : BitVec 21) (s : State) : Result := linkAndJump rd (s.pcRel offset) s

/-- `jalr`: to `(x[rs1] + imm_i) & 0xfffffffe`, with `pc + 4` in `rd`; `x[rs1]` is read before `rd` is written (R192). -/
def execJalr (rd rs1 : Reg) (imm : BitVec 12) (s : State) : Result :=
  linkAndJump rd (s.baseDisp rs1 imm &&& 0xfffffffe#32) s

end Sys2Proof.Machine
end

