-- ==== Sys2Proof/Machine/Loads.lean ====
section
/-! DEFINITION. The loads (42_loads.md, R150 to R155). -/

namespace Sys2Proof.Machine

/-- The family's operation (R150): `n` bytes at `x[rs1] + imm_i`, extended, into `rd`. The access is made, and can fault, when
`rd` is x0 too. A fault leaves `rd` and `pc` as they are (R306). -/
def loadOp (n : Nat) (ext : BitVec (8 * n) → Word) (rd : Reg) (offset : BitVec 12) (rs1 : Reg) (s : State) : Result :=
  match s.memRead (s.baseDisp rs1 offset) n with
  | none => raise .loadAccessFault (s.baseDisp rs1 offset) s
  | some v => .next ((s.writeReg rd (ext v)).advance 4#32)

/-- `lw`: `x[rd] <- MemRead(x[rs1] + imm_i, 4)` (R151). -/
def execLw (rd : Reg) (offset : BitVec 12) (rs1 : Reg) (s : State) : Result :=
  loadOp 4 (fun v => v) rd offset rs1 s

/-- `lh`: `x[rd] <- sext_32(MemRead(x[rs1] + imm_i, 2))` (R152). -/
def execLh (rd : Reg) (offset : BitVec 12) (rs1 : Reg) (s : State) : Result :=
  loadOp 2 (fun v => sext v) rd offset rs1 s

/-- `lb`: `x[rd] <- sext_32(MemRead(x[rs1] + imm_i, 1))` (R153). -/
def execLb (rd : Reg) (offset : BitVec 12) (rs1 : Reg) (s : State) : Result :=
  loadOp 1 (fun v => sext v) rd offset rs1 s

/-- `lhu`: `x[rd] <- zext_32(MemRead(x[rs1] + imm_i, 2))` (R154). -/
def execLhu (rd : Reg) (offset : BitVec 12) (rs1 : Reg) (s : State) : Result :=
  loadOp 2 (fun v => zext v) rd offset rs1 s

/-- `lbu`: `x[rd] <- zext_32(MemRead(x[rs1] + imm_i, 1))` (R155). -/
def execLbu (rd : Reg) (offset : BitVec 12) (rs1 : Reg) (s : State) : Result :=
  loadOp 1 (fun v => zext v) rd offset rs1 s

end Sys2Proof.Machine
end

