-- ==== Sys2Proof/Machine/Pairs.lean ====
section
/-! DEFINITION. The optional pair instructions: Zilsd (R260 to R269) and its 16-bit forms Zclsd (R270 to R277). The decoder
gives them only where `EXT_ZILSD` and `EXT_ZCLSD` say so; their meanings do not ask again. -/

namespace Sys2Proof.Machine

/-- Count `n` free choices as made (log 9). -/
def State.addDraws (s : State) (n : Nat) : State := { s with draws := s.draws + n }

/-- One register of the pair after a faulting `ld` (R266): its old value, or, where the draw says so, its half of the data at
`addr`. The base register keeps its value, and so does a register whose half is not backed (log 7). -/
def State.halfAfterFault (s : State) (base r : Reg) (addr : Word) (draw : Nat) : State :=
  if r ≠ base ∧ allBacked s.cfg addr 4 = true ∧ Config.draw draw = true then s.writeReg r (loadBytes s.mem addr 4) else s

/-- The state in which a faulting `ld` raises (R266): each register of the pair may have been updated; the pair 0 is not
(R267). -/
def State.afterFaultingLoad (s : State) (rd base : Reg) (addr : Word) : State :=
  if rd = 0#5 then s
  else ((s.halfAfterFault base rd addr s.draws).halfAfterFault base (pairHigh rd) (addr + 4#32) (s.draws + 1)).addDraws 2

/-- The state in which a faulting `sd` raises `StoreAccessFault` (R268): the 4-byte half whose bytes are all backed has been
written, where the draw says so, or nothing has (log 8). `Dirty` is unchanged in both (R307). -/
def State.afterFaultingStore (s : State) (addr : Word) (v : Dword) : State :=
  if allBacked s.cfg addr 4 then (if Config.draw s.draws then s.writeBytes addr 4 v else s).addDraws 1
  else if allBacked s.cfg (addr + 4#32) 4 then
    (if Config.draw s.draws then s.writeBytes (addr + 4#32) 4 (v >>> 32) else s).addDraws 1
  else s

/-- The operation of `ld` and of the forms that expand to it (R262): the misaligned trap first (R310), then the access. `len` is
the instruction's own length. -/
def loadPair (rd base : Reg) (addr len : Word) (s : State) : Result :=
  if zilsdMisalignedTrap s.cfg addr then raise .loadAddressMisaligned addr (s.afterFaultingLoad rd base addr)
  else
    match s.memRead addr 8 with
    | none => raise .loadAccessFault addr (s.afterFaultingLoad rd base addr)
    | some v => .next ((s.writePair rd v).advance len)

/-- The operation of `sd` and of the forms that expand to it (R263). -/
def storePair (rs2 : Reg) (addr len : Word) (s : State) : Result :=
  if zilsdMisalignedTrap s.cfg addr then raise .storeAddressMisaligned addr s
  else
    match s.memWrite addr 8 (s.readPair rs2) with
    | none => raise .storeAccessFault addr (s.afterFaultingStore addr (s.readPair rs2))
    | some t => .next (t.advance len)

/-- A reserved code point is an illegal instruction, with its own bits as the recorded value (R269, R277). The decoder gives
none, so only a term that is not well-formed comes here (log 10). -/
def reserved (i : Instr) (s : State) : Result := raise .illegalInstruction (encodeRaw i).toWord s

/-- `ld`: the pair `rd` from `x[rs1] + imm_i` (R262). -/
def execLd (rd : Reg) (offset : BitVec 12) (rs1 : Reg) (s : State) : Result :=
  if evenReg rd then loadPair rd rs1 (s.baseDisp rs1 offset) 4#32 s else reserved (.ld rd offset rs1) s

/-- `sd`: the pair `rs2` to `x[rs1] + imm_s` (R263). -/
def execSd (rs2 : Reg) (offset : BitVec 12) (rs1 : Reg) (s : State) : Result :=
  if evenReg rs2 then storePair rs2 (s.baseDisp rs1 offset) 4#32 s else reserved (.sd rs2 offset rs1) s

/-- `c.ldsp`: `ld rd, offset(x2)` in 2 bytes; `rd = x0` is reserved (R273). -/
def execCLdsp (rd : Reg) (offset : BitVec 9) (s : State) : Result :=
  if evenReg rd && rd != 0#5 then loadPair rd sp (s.baseOffset sp offset) 2#32 s else reserved (.cLdsp rd offset) s

/-- `c.sdsp`: `sd rs2, offset(x2)` in 2 bytes (R274). -/
def execCSdsp (rs2 : Reg) (offset : BitVec 9) (s : State) : Result :=
  if evenReg rs2 then storePair rs2 (s.baseOffset sp offset) 2#32 s else reserved (.cSdsp rs2 offset) s

/-- `c.ld`: `ld rd', offset(rs1')` in 2 bytes (R275). -/
def execCLd (rd : CReg) (offset : BitVec 8) (rs1 : CReg) (s : State) : Result :=
  if evenReg rd then loadPair (cReg rd) (cReg rs1) (s.baseOffset (cReg rs1) offset) 2#32 s
  else reserved (.cLd rd offset rs1) s

/-- `c.sd`: `sd rs2', offset(rs1')` in 2 bytes (R276). -/
def execCSd (rs2 : CReg) (offset : BitVec 8) (rs1 : CReg) (s : State) : Result :=
  if evenReg rs2 then storePair (cReg rs2) (s.baseOffset (cReg rs1) offset) 2#32 s else reserved (.cSd rs2 offset rs1) s

end Sys2Proof.Machine
end

