-- ==== Sys2Proof/Machine/Stores.lean ====
section
/-! DEFINITION. The stores (46_stores.md, R200 to R203). -/

namespace Sys2Proof.Machine

/-- The family's operation (R200): the low `8n` bits of `x[rs2]` to `x[rs1] + imm_s`. A fault writes no byte and leaves `pc`
(R307). -/
def storeOp (n : Nat) (rs2 : Reg) (offset : BitVec 12) (rs1 : Reg) (s : State) : Result :=
  match s.memWrite (s.baseDisp rs1 offset) n (s.readReg rs2) with
  | none => raise .storeAccessFault (s.baseDisp rs1 offset) s
  | some t => .next (t.advance 4#32)

/-- `sw`: `MemWrite(x[rs1] + imm_s, 4, x[rs2])` (R201). -/
def execSw (rs2 : Reg) (offset : BitVec 12) (rs1 : Reg) (s : State) : Result :=
  storeOp 4 rs2 offset rs1 s

/-- `sh`: `MemWrite(x[rs1] + imm_s, 2, x[rs2])` (R202). -/
def execSh (rs2 : Reg) (offset : BitVec 12) (rs1 : Reg) (s : State) : Result :=
  storeOp 2 rs2 offset rs1 s

/-- `sb`: `MemWrite(x[rs1] + imm_s, 1, x[rs2])` (R203). -/
def execSb (rs2 : Reg) (offset : BitVec 12) (rs1 : Reg) (s : State) : Result :=
  storeOp 1 rs2 offset rs1 s

end Sys2Proof.Machine
end

