-- ==== Sys2Proof/Machine/System.lean ====
section
/-! DEFINITION. The one system instruction (47_system.md, R210). -/

namespace Sys2Proof.Machine

/-- `ebreak`: `raise Breakpoint(pc)`. It reads and writes no register and no memory, and `pc` is not advanced (R210, R309). -/
def execEbreak (s : State) : Result := raise .breakpoint s.pc s

end Sys2Proof.Machine
end

