-- ==== Sys2Proof/Machine/UpperImmediate.lean ====
section
/-! DEFINITION. The upper-immediate instructions (43_upper_immediate.md, R165 to R167). -/

namespace Sys2Proof.Machine

/-- Write a value that no register or memory gave, and go on (R165). -/
def setOp (rd : Reg) (v : Word) (s : State) : Result := .next ((s.writeReg rd v).advance 4#32)

/-- `lui`: `x[rd] <- imm_u` (R166). -/
def execLui (rd : Reg) (imm : BitVec 20) (s : State) : Result := setOp rd (upper imm) s

/-- `auipc`: `x[rd] <- pc + imm_u`, `pc` the address of the `auipc` itself (R167). -/
def execAuipc (rd : Reg) (imm : BitVec 20) (s : State) : Result := setOp rd (s.pc + upper imm) s

end Sys2Proof.Machine
end

