-- ==== Sys2Proof/Machine/Dispatch.lean ====
section
/-! DEFINITION. One arm per instruction: the meaning of each (step 4 of R26). -/

namespace Sys2Proof.Machine

def exec (i : Instr) (s : State) : Host.Outcome State Fault Refusal :=
  match i with
  | .sll rd rs1 rs2 => Sys2Proof.Machine.execSll rd rs1 rs2 s
  | .srl rd rs1 rs2 => Sys2Proof.Machine.execSrl rd rs1 rs2 s
  | .sra rd rs1 rs2 => Sys2Proof.Machine.execSra rd rs1 rs2 s
  | .add rd rs1 rs2 => Sys2Proof.Machine.execAdd rd rs1 rs2 s
  | .sub rd rs1 rs2 => Sys2Proof.Machine.execSub rd rs1 rs2 s
  | .xor rd rs1 rs2 => Sys2Proof.Machine.execXor rd rs1 rs2 s
  | .or rd rs1 rs2 => Sys2Proof.Machine.execOr rd rs1 rs2 s
  | .and rd rs1 rs2 => Sys2Proof.Machine.execAnd rd rs1 rs2 s
  | .slt rd rs1 rs2 => Sys2Proof.Machine.execSlt rd rs1 rs2 s
  | .sltu rd rs1 rs2 => Sys2Proof.Machine.execSltu rd rs1 rs2 s
  | .slli rd rs1 shamt => Sys2Proof.Machine.execSlli rd rs1 shamt s
  | .srli rd rs1 shamt => Sys2Proof.Machine.execSrli rd rs1 shamt s
  | .srai rd rs1 shamt => Sys2Proof.Machine.execSrai rd rs1 shamt s
  | .addi rd rs1 imm => Sys2Proof.Machine.execAddi rd rs1 imm s
  | .xori rd rs1 imm => Sys2Proof.Machine.execXori rd rs1 imm s
  | .ori rd rs1 imm => Sys2Proof.Machine.execOri rd rs1 imm s
  | .andi rd rs1 imm => Sys2Proof.Machine.execAndi rd rs1 imm s
  | .slti rd rs1 imm => Sys2Proof.Machine.execSlti rd rs1 imm s
  | .sltiu rd rs1 imm => Sys2Proof.Machine.execSltiu rd rs1 imm s
  | .lw rd offset rs1 => Sys2Proof.Machine.execLw rd offset rs1 s
  | .lh rd offset rs1 => Sys2Proof.Machine.execLh rd offset rs1 s
  | .lb rd offset rs1 => Sys2Proof.Machine.execLb rd offset rs1 s
  | .lhu rd offset rs1 => Sys2Proof.Machine.execLhu rd offset rs1 s
  | .lbu rd offset rs1 => Sys2Proof.Machine.execLbu rd offset rs1 s
  | .lui rd imm => Sys2Proof.Machine.execLui rd imm s
  | .auipc rd imm => Sys2Proof.Machine.execAuipc rd imm s
  | .beq rs1 rs2 offset => Sys2Proof.Machine.execBeq rs1 rs2 offset s
  | .bne rs1 rs2 offset => Sys2Proof.Machine.execBne rs1 rs2 offset s
  | .blt rs1 rs2 offset => Sys2Proof.Machine.execBlt rs1 rs2 offset s
  | .bge rs1 rs2 offset => Sys2Proof.Machine.execBge rs1 rs2 offset s
  | .bltu rs1 rs2 offset => Sys2Proof.Machine.execBltu rs1 rs2 offset s
  | .bgeu rs1 rs2 offset => Sys2Proof.Machine.execBgeu rs1 rs2 offset s
  | .jal rd offset => Sys2Proof.Machine.execJal rd offset s
  | .jalr rd rs1 imm => Sys2Proof.Machine.execJalr rd rs1 imm s
  | .sw rs2 offset rs1 => Sys2Proof.Machine.execSw rs2 offset rs1 s
  | .sh rs2 offset rs1 => Sys2Proof.Machine.execSh rs2 offset rs1 s
  | .sb rs2 offset rs1 => Sys2Proof.Machine.execSb rs2 offset rs1 s
  | .ebreak => Sys2Proof.Machine.execEbreak s
  | .ld rd offset rs1 => Sys2Proof.Machine.execLd rd offset rs1 s
  | .sd rs2 offset rs1 => Sys2Proof.Machine.execSd rs2 offset rs1 s
  | .cLdsp rd offset => Sys2Proof.Machine.execCLdsp rd offset s
  | .cSdsp rs2 offset => Sys2Proof.Machine.execCSdsp rs2 offset s
  | .cLd rd offset rs1 => Sys2Proof.Machine.execCLd rd offset rs1 s
  | .cSd rs2 offset rs1 => Sys2Proof.Machine.execCSd rs2 offset rs1 s

end Sys2Proof.Machine
end

