-- ==== Sys2Proof/Machine/Cycle.lean ====
section
/-! DEFINITION. The instruction cycle (R26), which Machine/Step.lean calls, and how a loader places an instruction where the
next fetch reads it (R322, R343). -/

namespace Sys2Proof.Machine

/-- Steps 3 and 4 of the cycle: decode the fetched bits and execute, or raise `IllegalInstruction` (R96, R304). -/
def decodeAndExecute (r : RawInstr) (s : State) : Result :=
  match decodeRaw s.cfg.ext r with
  | .error _ => raise .illegalInstruction r.toWord s
  | .ok i => exec i s

/-- The cycle of R26, in the order of R310. Once an exception has ended the run there is no further step (R300). -/
def cycle (s : State) : Result :=
  match s.trap with
  | some record => .fault (.runEnded record)
  | none =>
    if misalignedPc s.cfg s.pc then raise .instructionAddressMisaligned s.pc s
    else
      match s.fetch with
      | .unbacked => raise .instructionAccessFault s.pc s
      | .stored => .refused (.storedCodeFetched s.pc)
      | .raw r => decodeAndExecute r s

/-- Both sets of extensions. -/
def joinExt (a b : Extensions) : Extensions := { zilsd := a.zilsd || b.zilsd, zclsd := a.zclsd || b.zclsd }

/-- The extensions with which the table's bits `w` are an instruction, joined to those already on (log 5). -/
def extFor (e : Extensions) (nbits w : Nat) : Extensions :=
  match decodeTableWord nbits w with
  | some i => joinExt e i.needs
  | none => e

/-- The loader's act: the instruction's four bytes in the image at `pc`, none of them stored to, the run not ended, and the
extension on that the instruction belongs to (log 5). -/
def State.placeInstruction (s : State) (nbits w : Nat) : State :=
  { s with
    mem := storeBytes s.mem s.pc 4 (BitVec.ofNat 32 (w % 2 ^ nbits))
    dirty := s.dirty.filter fun a => !(byteAddrs s.pc 4).any (fun b => b.toNat == a)
    trap := none
    cfg := { s.cfg with ext := extFor s.cfg.ext nbits w } }

end Sys2Proof.Machine
end

