-- ==== Sys2Proof/Machine/Step.lean ====
section
/-! DEFINITION. The step function, one turn of the instruction cycle (R26), and the host's way to place an instruction. -/

namespace Sys2Proof.Machine

/-- One step of the machine. -/
def step (s : State) : Host.Outcome State Fault Refusal := cycle s

/-- `s` with an instruction stored where `step` fetches its next one, so that the very next step runs it (log 5). -/
def State.withFetchWord (s : State) (nbits w : Nat) : State := s.placeInstruction nbits w

end Sys2Proof.Machine
end

