-- ==== Sys2Proof/Machine/Pseudo.lean ====
section
/-! DEFINITION. The pseudo-instructions and idioms of 48_pseudo_instructions.md (R220, R223 to R238, R250 to R252). A
pseudo-instruction has no meaning of its own: it is the sequence it expands to (R220). -/

namespace Sys2Proof.Machine

/-- Execute a sequence in order (R220), each instruction at the `pc` the one before it left; an exception ends it. -/
def execAll : List Instr → State → Result
  | [], s => .next s
  | i :: is, s =>
    match exec i s with
    | .next t => if t.trap.isSome then .next t else execAll is t
    | .fault f => .fault f
    | .refused r => .refused r

/-! ### Splitting an address or a constant (R226, R229, D25) -/

/-- `lo = sext_32(d[11:0])`, as the 12-bit field. -/
def loPart (d : Word) : BitVec 12 := d.extractLsb' 0 12

/-- `hi = ((d - lo) >>u 12)[19:0]`. -/
def hiPart (d : Word) : BitVec 20 := (d - sext (loPart d)).extractLsb' 12 20

/-- The loads that a label form exists for (R225). -/
inductive LoadKind where
  | w | h | hu | b | bu
  deriving DecidableEq, Repr

/-- The stores that a label form exists for (R227). -/
inductive StoreKind where
  | w | h | b
  deriving DecidableEq, Repr

def LoadKind.instr : LoadKind → Reg → BitVec 12 → Reg → Instr
  | .w => .lw
  | .h => .lh
  | .hu => .lhu
  | .b => .lb
  | .bu => .lbu

def StoreKind.instr : StoreKind → Reg → BitVec 12 → Reg → Instr
  | .w => .sw
  | .h => .sh
  | .b => .sb

/-- The pseudo-instructions of MAIN. A label or a target is the 32-bit address it denotes. -/
inductive Pseudo where
  | nop
  | mv (rd rs : Reg)
  | loadLabel (k : LoadKind) (rd : Reg) (label : Word)
  | storeLabel (k : StoreKind) (rs : Reg) (label : Word) (rt : Reg)
  | la (rd : Reg) (label : Word)
  | li (rd : Reg) (v : Word)
  | neg (rd rs : Reg)
  | not (rd rs : Reg)
  | seqz (rd rs : Reg)
  | snez (rd rs : Reg)
  | sltz (rd rs : Reg)
  | sgtz (rd rs : Reg)
  | beqz (rs : Reg) (target : Word)
  | bnez (rs : Reg) (target : Word)
  | blez (rs : Reg) (target : Word)
  | bgez (rs : Reg) (target : Word)
  | bltz (rs : Reg) (target : Word)
  | bgtz (rs : Reg) (target : Word)
  | bgt (rs rt : Reg) (target : Word)
  | ble (rs rt : Reg) (target : Word)
  | bgtu (rs rt : Reg) (target : Word)
  | bleu (rs rt : Reg) (target : Word)
  | j (target : Word)
  | jr (rs : Reg)
  | jalLink (target : Word)
  | jalrLink (rs : Reg)
  | ret
  deriving DecidableEq, Repr

/-- The even signed offset of `k` bits from `here` to `target`, where there is one (`pcrel_13`, `pcrel_21`: R14, R95). DEDUCED
(log 17): the distance is taken modulo 2^32, as the target of R175 and R191 is. -/
def pcrel (k : Nat) (here target : Word) : Option (BitVec k) :=
  let d := target - here
  if sext (d.setWidth k) = d ∧ d.getLsbD 0 = false then some (d.setWidth k) else none

/-- A branch to `target` (R175). -/
def branchTo (op : Reg → Reg → BitVec 13 → Instr) (rs1 rs2 : Reg) (here target : Word) : Option (List Instr) :=
  (pcrel 13 here target).map fun offset => [op rs1 rs2 offset]

/-- A `jal` to `target` (R191). -/
def jalTo (rd : Reg) (here target : Word) : Option (List Instr) :=
  (pcrel 21 here target).map fun offset => [.jal rd offset]

/-- `x0` and `ra`. -/
def x0 : Reg := 0#5
def ra : Reg := 1#5

/-- The sequence that leaves `v` in `rd` (R229). -/
def liSequence (rd : Reg) (v : Word) : List Instr :=
  if sext (loPart v) = v then [.addi rd x0 (loPart v)]
  else if loPart v = 0#12 then [.lui rd (hiPart v)]
  else [.lui rd (hiPart v), .addi rd rd (loPart v)]

/-- The expansion of a pseudo-instruction whose first instruction stands at `here`; none where no instruction holds the
operands (R222) or where R225 forbids them. DESIGN CHOICE (log 17): a label store whose temporary is x0, of which R227 does not speak,
is expanded like any other; its `auipc` is then discarded, and the store goes to base 0 plus `lo`. -/
def Pseudo.expand (here : Word) : Pseudo → Option (List Instr)
  | .nop => some [.addi x0 x0 0#12]
  | .mv rd rs => some [.addi rd rs 0#12]
  | .loadLabel k rd label =>
    if rd = x0 then none else some [.auipc rd (hiPart (label - here)), k.instr rd (loPart (label - here)) rd]
  | .storeLabel k rs label rt => some [.auipc rt (hiPart (label - here)), k.instr rs (loPart (label - here)) rt]
  | .la rd label => some [.auipc rd (hiPart (label - here)), .addi rd rd (loPart (label - here))]
  | .li rd v => some (liSequence rd v)
  | .neg rd rs => some [.sub rd x0 rs]
  | .not rd rs => some [.xori rd rs (BitVec.allOnes 12)]
  | .seqz rd rs => some [.sltiu rd rs 1#12]
  | .snez rd rs => some [.sltu rd x0 rs]
  | .sltz rd rs => some [.slt rd rs x0]
  | .sgtz rd rs => some [.slt rd x0 rs]
  | .beqz rs target => branchTo .beq rs x0 here target
  | .bnez rs target => branchTo .bne rs x0 here target
  | .blez rs target => branchTo .bge x0 rs here target
  | .bgez rs target => branchTo .bge rs x0 here target
  | .bltz rs target => branchTo .blt rs x0 here target
  | .bgtz rs target => branchTo .blt x0 rs here target
  | .bgt rs rt target => branchTo .blt rt rs here target
  | .ble rs rt target => branchTo .bge rt rs here target
  | .bgtu rs rt target => branchTo .bltu rt rs here target
  | .bleu rs rt target => branchTo .bgeu rt rs here target
  | .j target => jalTo x0 here target
  | .jr rs => some [.jalr x0 rs 0#12]
  | .jalLink target => jalTo ra here target
  | .jalrLink rs => some [.jalr ra rs 0#12]
  | .ret => some [.jalr x0 ra 0#12]

/-! ### Idioms -/

/-- The carry of `a + b` into a register (R250). -/
def carryIdiom (sum a b carry : Reg) : List Instr := [.add sum a b, .sltu carry sum a]

/-- The test for signed overflow of `a + b` (R251): `neg` and `less` differ exactly on overflow. -/
def signedOverflowIdiom (sum a b neg less : Reg) : List Instr := [.add sum a b, .slti neg b 0#12, .slt less sum a]

/-- `a5:a4 = a1:a0 + a3:a2` with the carry in `t1` (R252). -/
def add64Idiom : List Instr := [.add 14 10 12, .sltu 6 14 12, .add 15 11 13, .add 15 6 15]

end Sys2Proof.Machine
end

