-- ==== Sys2Proof/Machine/Assembler.lean ====
section
/-! DEFINITION. The assembler of 48_pseudo_instructions.md: source lines (R221), operand shapes and ranges (R222, R95, R14), every
instruction and pseudo-instruction, and labels. What R221 leaves open is in log 17. -/

namespace Sys2Proof.Machine

/-! ### Registers' names (R22, R221) -/

/-- The ABI name of each register, in the order of R22's table. -/
def abiNames : List String :=
  ["zero", "ra", "sp", "gp", "tp", "t0", "t1", "t2", "s0", "s1", "a0", "a1", "a2", "a3", "a4", "a5",
   "a6", "a7", "s2", "s3", "s4", "s5", "s6", "s7", "s8", "s9", "s10", "s11", "t3", "t4", "t5", "t6"]

/-- The `x` names. -/
def xNames : List String :=
  ["x0", "x1", "x2", "x3", "x4", "x5", "x6", "x7", "x8", "x9", "x10", "x11", "x12", "x13", "x14", "x15",
   "x16", "x17", "x18", "x19", "x20", "x21", "x22", "x23", "x24", "x25", "x26", "x27", "x28", "x29", "x30", "x31"]

/-- The place of a name in a list of names. -/
def indexIn (name : String) : List String → Nat → Option Nat
  | [], _ => none
  | n :: ns, k => if n = name then some k else indexIn name ns (k + 1)

/-- The register a name denotes: an `x` name, an ABI name, or `fp` for x8 (R22). -/
def regNamed (name : String) : Option Reg :=
  if name = "fp" then some 8#5
  else (indexIn name xNames 0 <|> indexIn name abiNames 0).map (BitVec.ofNat 5)

/-- The registers a callee saves, by software convention only (R22). -/
def calleeSaved (r : Reg) : Bool := r = 2#5 || r = 8#5 || r = 9#5 || (18 ≤ r.toNat && r.toNat ≤ 27)

/-! ### Lines -/

/-- An operand (R221). -/
inductive Operand where
  /-- A register. -/
  | reg (r : Reg)
  /-- A number. -/
  | num (v : Int)
  /-- `offset(base)`. -/
  | mem (offset : Int) (base : Reg)
  /-- A label with an added constant. -/
  | label (name : String) (plus : Int)
  /-- `.+offset` and `.-offset`. -/
  | here (offset : Int)
  deriving DecidableEq, Repr

/-- A mnemonic with its operands. -/
structure Line where
  mnemonic : String
  operands : List Operand
  deriving DecidableEq, Repr

/-- Why the assembler refuses a line (R222: "o montador reclama"). -/
inductive AsmError where
  /-- No instruction or pseudo-instruction has this name (R246 among others). -/
  | unknownMnemonic
  /-- The operands have the wrong shape or range: MAIN's "Error: illegal operands". -/
  | illegalOperands
  /-- A label that no line defines. -/
  | unknownLabel
  /-- A label that two lines define. -/
  | labelTwice
  /-- The characters of the line make no line. -/
  | badText
  deriving DecidableEq, Repr

/-- The addresses of the labels. -/
abbrev Symbols := List (String × Word)

/-! ### Ranges (R95, R222) -/

/-- A signed value of `k` bits. -/
def signedField (k : Nat) (v : Int) : Option (BitVec k) :=
  if -(2 ^ (k - 1)) ≤ v ∧ v < 2 ^ (k - 1) then some (BitVec.ofInt k v) else none

/-- An unsigned value of `k` bits. -/
def unsignedField (k : Nat) (v : Int) : Option (BitVec k) :=
  if 0 ≤ v ∧ v < 2 ^ k then some (BitVec.ofInt k v) else none

/-- A value of up to 32 bits, signed or unsigned (R229; the bounds are those of log 17). -/
def wordValue (v : Int) : Option Word := if -(2 ^ 31) ≤ v ∧ v < 2 ^ 32 then some (BitVec.ofInt 32 v) else none

/-- The address an operand denotes as a target or a label (R175, R191, R221). DESIGN CHOICE (log 17): the constant of `.+n`, of `.-n`
and of a label plus a constant, to which the spec gives no bound, is reduced modulo 2^32 before any range is asked for, so that
`.+0x100000008` is `.+8`; a plain number beyond 32 bits is refused. -/
def addressOf (syms : Symbols) (here : Word) : Operand → Except AsmError Word
  | .label name plus =>
    match syms.lookup name with
    | some a => .ok (a + BitVec.ofInt 32 plus)
    | none => .error .unknownLabel
  | .here offset => .ok (here + BitVec.ofInt 32 offset)
  | .num v =>
    match wordValue v with
    | some a => .ok a
    | none => .error .illegalOperands
  | .reg _ | .mem _ _ => .error .illegalOperands

/-- What may stand as the label of `la` and of the label loads and stores (R225 to R228): a label, with or without a constant (R221).
DESIGN CHOICE (log 17): `.+n` and `.-n` too, of which those rules do not speak, counted from the `auipc` of the expansion, the
first instruction of the line; a plain number is none. -/
def isLabel : Operand → Bool
  | .label _ _ => true
  | .here _ => true
  | .reg _ | .num _ | .mem _ _ => false

/-! ### The instructions by shape of operands -/

def threeRegister : List (String × (Reg → Reg → Reg → Instr)) :=
  [("sll", .sll), ("srl", .srl), ("sra", .sra), ("add", .add), ("sub", .sub), ("xor", .xor), ("or", .or), ("and", .and),
   ("slt", .slt), ("sltu", .sltu)]

def shiftImmediate : List (String × (Reg → Reg → BitVec 5 → Instr)) := [("slli", .slli), ("srli", .srli), ("srai", .srai)]

def twoRegisterImmediate : List (String × (Reg → Reg → BitVec 12 → Instr)) :=
  [("addi", .addi), ("xori", .xori), ("ori", .ori), ("andi", .andi), ("slti", .slti), ("sltiu", .sltiu), ("jalr", .jalr)]

def loadKinds : List (String × LoadKind) := [("lw", .w), ("lh", .h), ("lb", .b), ("lhu", .hu), ("lbu", .bu)]

def storeKinds : List (String × StoreKind) := [("sw", .w), ("sh", .h), ("sb", .b)]

def upperImmediate : List (String × (Reg → BitVec 20 → Instr)) := [("lui", .lui), ("auipc", .auipc)]

def branches : List (String × (Reg → Reg → BitVec 13 → Instr)) :=
  [("beq", .beq), ("bne", .bne), ("blt", .blt), ("bge", .bge), ("bltu", .bltu), ("bgeu", .bgeu)]

/-- Pseudo-instructions on two registers (R224, R230). -/
def twoRegisterPseudo : List (String × (Reg → Reg → Pseudo)) :=
  [("mv", .mv), ("neg", .neg), ("not", .not), ("seqz", .seqz), ("snez", .snez), ("sltz", .sltz), ("sgtz", .sgtz)]

/-- Branches against zero (R231). -/
def zeroBranches : List (String × (Reg → Word → Pseudo)) :=
  [("beqz", .beqz), ("bnez", .bnez), ("blez", .blez), ("bgez", .bgez), ("bltz", .bltz), ("bgtz", .bgtz)]

/-- Branches with exchanged operands (R232). -/
def swappedBranches : List (String × (Reg → Reg → Word → Pseudo)) :=
  [("bgt", .bgt), ("ble", .ble), ("bgtu", .bgtu), ("bleu", .bleu)]

/-- The compressed field that names a register x8 to x15 (R272). -/
def cField (r : Reg) : Option CReg := if r.extractLsb' 3 2 = 0b01#2 then some (r.extractLsb' 0 3) else none

/-- Operands accepted, or MAIN's complaint. -/
def accept {α : Type} : Option α → Except AsmError α
  | some a => .ok a
  | none => .error .illegalOperands

/-- Assemble one instruction, if the mnemonic is one of the base machine's (R110, R130, R150, R165, R175, R191, R192, R200, R210)
and the operands have the shape of an instruction rather than of a pseudo-instruction. -/
def assembleBase (syms : Symbols) (here : Word) (line : Line) : Option (Except AsmError (List Instr)) :=
  let m := line.mnemonic
  match line.operands with
  | [.reg rd, .reg rs1, .reg rs2] => (threeRegister.lookup m).map fun op => .ok [op rd rs1 rs2]
  | [.reg r1, .reg r2, .num v] =>
    match shiftImmediate.lookup m, twoRegisterImmediate.lookup m, branches.lookup m with
    | some op, _, _ => some (accept ((unsignedField 5 v).map fun shamt => [op r1 r2 shamt]))
    | none, some op, _ => some (accept ((signedField 12 v).map fun imm => [op r1 r2 imm]))
    | none, none, some op => some (accept ((wordValue v).bind fun t => branchTo op r1 r2 here t))
    | none, none, none => none
  | [.reg r1, .reg r2, target] =>
    (branches.lookup m).map fun op => (addressOf syms here target).bind fun t => accept (branchTo op r1 r2 here t)
  | [.reg r, .mem offset base] =>
    match loadKinds.lookup m, storeKinds.lookup m with
    | some k, _ => some (accept ((signedField 12 offset).map fun imm => [k.instr r imm base]))
    | none, some k => some (accept ((signedField 12 offset).map fun imm => [k.instr r imm base]))
    | none, none =>
      if m = "jalr" then some (accept ((signedField 12 offset).map fun imm => [.jalr r base imm])) else none
  | [.reg rd, target] =>
    if m = "jal" then some ((addressOf syms here target).bind fun t => accept (jalTo rd here t))
    else
      match upperImmediate.lookup m, target with
      | some op, .num v => some (accept ((unsignedField 20 v).map fun imm => [op rd imm]))
      | _, _ => none
  | [] => if m = "ebreak" then some (.ok [.ebreak]) else none
  | _ => none

/-- Read a line as a pseudo-instruction (R223 to R238). -/
def readPseudo (syms : Symbols) (here : Word) (line : Line) : Option (Except AsmError Pseudo) :=
  let m := line.mnemonic
  match line.operands with
  | [] => if m = "nop" then some (.ok .nop) else if m = "ret" then some (.ok .ret) else none
  | [.reg r] => if m = "jr" then some (.ok (.jr r)) else if m = "jalr" then some (.ok (.jalrLink r)) else none
  | [target] =>
    if m = "j" then some ((addressOf syms here target).map .j)
    else if m = "jal" then some ((addressOf syms here target).map .jalLink)
    else none
  | [.reg r1, .reg r2] => (twoRegisterPseudo.lookup m).map fun op => .ok (op r1 r2)
  | [.reg r, target] =>
    match zeroBranches.lookup m, loadKinds.lookup m with
    | some op, _ => some ((addressOf syms here target).map (op r))
    | none, some k => if isLabel target then some ((addressOf syms here target).map (.loadLabel k r)) else none
    | none, none =>
      if m = "la" then (if isLabel target then some ((addressOf syms here target).map (.la r)) else none)
      else if m = "li" then
        match target with
        | .num v => some (accept ((wordValue v).map (.li r)))
        | _ => none
      else none
  | [.reg rs, target, .reg rt] =>
    match storeKinds.lookup m with
    | some k =>
      if isLabel target then some ((addressOf syms here target).map fun a => .storeLabel k rs a rt) else none
    | none => none
  | [.reg r1, .reg r2, target] =>
    (swappedBranches.lookup m).map fun op => (addressOf syms here target).map (op r1 r2)
  | _ => none

/-- The pair instructions' syntax (R262, R263, R273 to R276); the offsets of the 16-bit forms are multiples of 8, which
well-formedness checks. -/
def assemblePair (ext : Extensions) (line : Line) : Option (Except AsmError (List Instr)) :=
  match line.operands with
  | [.reg r, .mem offset base] =>
    if line.mnemonic = "ld" && ext.zilsd then some (accept ((signedField 12 offset).map fun o => [.ld r o base]))
    else if line.mnemonic = "sd" && ext.zilsd then some (accept ((signedField 12 offset).map fun o => [.sd r o base]))
    else if line.mnemonic = "c.ldsp" && ext.parcels then
      some (if base = sp then accept ((unsignedField 9 offset).map fun o => [.cLdsp r o]) else .error .illegalOperands)
    else if line.mnemonic = "c.sdsp" && ext.parcels then
      some (if base = sp then accept ((unsignedField 9 offset).map fun o => [.cSdsp r o]) else .error .illegalOperands)
    else if line.mnemonic = "c.ld" && ext.parcels then
      some (accept ((cField r).bind fun k => (cField base).bind fun b => (unsignedField 8 offset).map fun o => [.cLd k o b]))
    else if line.mnemonic = "c.sd" && ext.parcels then
      some (accept ((cField r).bind fun k => (cField base).bind fun b => (unsignedField 8 offset).map fun o => [.cSd k o b]))
    else none
  | _ => none

/-- Every mnemonic the assembler knows, those of the extensions where they are on. -/
def knownMnemonic (ext : Extensions) (m : String) : Bool :=
  (threeRegister.lookup m).isSome || (shiftImmediate.lookup m).isSome || (twoRegisterImmediate.lookup m).isSome
  || (loadKinds.lookup m).isSome || (storeKinds.lookup m).isSome || (upperImmediate.lookup m).isSome
  || (branches.lookup m).isSome || (twoRegisterPseudo.lookup m).isSome || (zeroBranches.lookup m).isSome
  || (swappedBranches.lookup m).isSome || ["jal", "ebreak", "nop", "la", "li", "j", "jr", "ret"].contains m
  || (ext.zilsd && ["ld", "sd"].contains m) || (ext.parcels && ["c.ldsp", "c.sdsp", "c.ld", "c.sd"].contains m)

/-- Assemble one line at the address `here`: the instructions, all well-formed, or the complaint. -/
def assembleLine (ext : Extensions) (syms : Symbols) (here : Word) (line : Line) : Except AsmError (List Instr) :=
  let out : Except AsmError (List Instr) :=
    match assembleBase syms here line with
    | some r => r
    | none =>
      match assemblePair ext line with
      | some r => r
      | none =>
        match readPseudo syms here line with
        | some (.ok p) => accept (p.expand here)
        | some (.error e) => .error e
        | none => if knownMnemonic ext line.mnemonic then .error .illegalOperands else .error .unknownMnemonic
  out.bind fun is => if is.all Instr.wf then .ok is else .error .illegalOperands

/-- The assembler answers this one instruction where the operand is in its range, and MAIN's complaint where it is not (R222). -/
def Accepts (answer : Except AsmError (List Instr)) (inRange : Prop) (i : Instr) : Prop :=
  (inRange → answer = .ok [i]) ∧ (¬ inRange → answer = .error .illegalOperands)

/-- The bytes a line's instructions take, which no label's address changes (R220: as many slots as its expansion). -/
def lineBytes (line : Line) : Nat :=
  match line.operands with
  | [.reg rd, .num v] =>
    if line.mnemonic = "li" then
      match wordValue v with
      | some w => 4 * (liSequence rd w).length
      | none => 4
    else 4
  | [.reg _, target] =>
    if isLabel target && ((loadKinds.lookup line.mnemonic).isSome || line.mnemonic = "la") then 8
    else if ["c.ldsp", "c.sdsp", "c.ld", "c.sd"].contains line.mnemonic then 2 else 4
  | [.reg _, target, .reg _] => if isLabel target && (storeKinds.lookup line.mnemonic).isSome then 8 else 4
  | _ => 4

/-! ### Programs -/

/-- A source line: a label, an instruction, both or neither (R221). -/
structure SourceLine where
  label : Option String
  body : Option Line
  deriving DecidableEq, Repr

/-- First pass: the labels' addresses, in source order. -/
def labelAddresses (here : Word) : List SourceLine → Except AsmError Symbols
  | [] => .ok []
  | l :: ls =>
    let next := match l.body with
      | some line => here + BitVec.ofNat 32 (lineBytes line)
      | none => here
    (labelAddresses next ls).bind fun rest =>
      match l.label with
      | none => .ok rest
      | some name => if (rest.lookup name).isSome then .error .labelTwice else .ok ((name, here) :: rest)

/-- Second pass: the instructions with their addresses. -/
def assembleLines (ext : Extensions) (syms : Symbols) (here : Word) : List SourceLine → Except AsmError (List (Word × Instr))
  | [] => .ok []
  | l :: ls =>
    match l.body with
    | none => assembleLines ext syms here ls
    | some line =>
      (assembleLine ext syms here line).bind fun is =>
        (assembleLines ext syms (here + BitVec.ofNat 32 (lineBytes line)) ls).map fun rest =>
          placeAt here is ++ rest
where
  /-- Instructions one after another from an address. -/
  placeAt (a : Word) : List Instr → List (Word × Instr)
    | [] => []
    | i :: is => (a, i) :: placeAt (a + BitVec.ofNat 32 (encode i).length) is

/-- Assemble a program that starts at `base`. -/
def assemble (ext : Extensions) (base : Word) (lines : List SourceLine) : Except AsmError (List (Word × Instr)) :=
  (labelAddresses base lines).bind fun syms => assembleLines ext syms base lines

end Sys2Proof.Machine
end

