-- ==== Sys2Proof/Machine/OpcodeTable.lean ====
section
/-! DEFINITION. The opcode table as R94 gives it: a mask and a pattern for each instruction, and the format of each (R71,
R74). The decoder does not use it; statements hold the decoder against it. -/

namespace Sys2Proof

/-- The instruction formats (R71), and the 16-bit forms of Zclsd. -/
inductive Format where
  | r | i | s | b | u | j | c16
  deriving DecidableEq, Repr

/-- A row of the table: a word `w` is the instruction exactly when `w & mask = pattern` (R94); for a 16-bit form `w` is the
parcel zero-extended. -/
structure OpcodeRow where
  mnemonic : String
  format : Format
  mask : Word
  pattern : Word
  /-- The extensions the row belongs to (`enabled_by`). -/
  needs : Extensions
  deriving DecidableEq, Repr

/-- The rows of 40_integer_register.md and 41_integer_immediate.md. -/
def integerRows : List OpcodeRow := [
    ⟨"sll", .r, 0xfe00707f#32, 0x00001033#32, Extensions.base⟩,
    ⟨"srl", .r, 0xfe00707f#32, 0x00005033#32, Extensions.base⟩,
    ⟨"sra", .r, 0xfe00707f#32, 0x40005033#32, Extensions.base⟩,
    ⟨"add", .r, 0xfe00707f#32, 0x00000033#32, Extensions.base⟩,
    ⟨"sub", .r, 0xfe00707f#32, 0x40000033#32, Extensions.base⟩,
    ⟨"xor", .r, 0xfe00707f#32, 0x00004033#32, Extensions.base⟩,
    ⟨"or", .r, 0xfe00707f#32, 0x00006033#32, Extensions.base⟩,
    ⟨"and", .r, 0xfe00707f#32, 0x00007033#32, Extensions.base⟩,
    ⟨"slt", .r, 0xfe00707f#32, 0x00002033#32, Extensions.base⟩,
    ⟨"sltu", .r, 0xfe00707f#32, 0x00003033#32, Extensions.base⟩,
    ⟨"slli", .i, 0xfe00707f#32, 0x00001013#32, Extensions.base⟩,
    ⟨"srli", .i, 0xfe00707f#32, 0x00005013#32, Extensions.base⟩,
    ⟨"srai", .i, 0xfe00707f#32, 0x40005013#32, Extensions.base⟩,
    ⟨"addi", .i, 0x0000707f#32, 0x00000013#32, Extensions.base⟩,
    ⟨"xori", .i, 0x0000707f#32, 0x00004013#32, Extensions.base⟩,
    ⟨"ori", .i, 0x0000707f#32, 0x00006013#32, Extensions.base⟩,
    ⟨"andi", .i, 0x0000707f#32, 0x00007013#32, Extensions.base⟩,
    ⟨"slti", .i, 0x0000707f#32, 0x00002013#32, Extensions.base⟩,
    ⟨"sltiu", .i, 0x0000707f#32, 0x00003013#32, Extensions.base⟩]

/-- The other rows of the base machine. -/
def memoryAndControlRows : List OpcodeRow := [
    ⟨"lw", .i, 0x0000707f#32, 0x00002003#32, Extensions.base⟩,
    ⟨"lh", .i, 0x0000707f#32, 0x00001003#32, Extensions.base⟩,
    ⟨"lb", .i, 0x0000707f#32, 0x00000003#32, Extensions.base⟩,
    ⟨"lhu", .i, 0x0000707f#32, 0x00005003#32, Extensions.base⟩,
    ⟨"lbu", .i, 0x0000707f#32, 0x00004003#32, Extensions.base⟩,
    ⟨"lui", .u, 0x0000007f#32, 0x00000037#32, Extensions.base⟩,
    ⟨"auipc", .u, 0x0000007f#32, 0x00000017#32, Extensions.base⟩,
    ⟨"beq", .b, 0x0000707f#32, 0x00000063#32, Extensions.base⟩,
    ⟨"bne", .b, 0x0000707f#32, 0x00001063#32, Extensions.base⟩,
    ⟨"blt", .b, 0x0000707f#32, 0x00004063#32, Extensions.base⟩,
    ⟨"bge", .b, 0x0000707f#32, 0x00005063#32, Extensions.base⟩,
    ⟨"bltu", .b, 0x0000707f#32, 0x00006063#32, Extensions.base⟩,
    ⟨"bgeu", .b, 0x0000707f#32, 0x00007063#32, Extensions.base⟩,
    ⟨"jal", .j, 0x0000007f#32, 0x0000006f#32, Extensions.base⟩,
    ⟨"jalr", .i, 0x0000707f#32, 0x00000067#32, Extensions.base⟩,
    ⟨"sw", .s, 0x0000707f#32, 0x00002023#32, Extensions.base⟩,
    ⟨"sh", .s, 0x0000707f#32, 0x00001023#32, Extensions.base⟩,
    ⟨"sb", .s, 0x0000707f#32, 0x00000023#32, Extensions.base⟩,
    ⟨"ebreak", .i, 0xffffffff#32, 0x00100073#32, Extensions.base⟩]

/-- The rows of 49_zilsd_zclsd_optional.md. -/
def pairRows : List OpcodeRow := [
    ⟨"ld", .i, 0x0000707f#32, 0x00003003#32, { zilsd := true, zclsd := false }⟩,
    ⟨"sd", .s, 0x0000707f#32, 0x00003023#32, { zilsd := true, zclsd := false }⟩,
    ⟨"c.ldsp", .c16, 0xe003#32, 0x6002#32, Extensions.all⟩,
    ⟨"c.sdsp", .c16, 0xe003#32, 0xe002#32, Extensions.all⟩,
    ⟨"c.ld", .c16, 0xe003#32, 0x6000#32, Extensions.all⟩,
    ⟨"c.sd", .c16, 0xe003#32, 0xe000#32, Extensions.all⟩]

/-- The whole table: 38 rows of the base machine, then the 6 optional ones (R94). -/
def opcodeTable : List OpcodeRow := integerRows ++ memoryAndControlRows ++ pairRows

/-- Bits match a row (R94). A 16-bit row matches parcels, a 32-bit row words. -/
def OpcodeRow.hits (row : OpcodeRow) : RawInstr → Bool
  | .word w => row.format != .c16 && w &&& row.mask == row.pattern
  | .parcel h => row.format == .c16 && h.setWidth 32 &&& row.mask == row.pattern

/-- An instruction's mnemonic, as the table spells it. -/
def Instr.mnemonic : Instr → String
  | .sll _ _ _ => "sll"
  | .srl _ _ _ => "srl"
  | .sra _ _ _ => "sra"
  | .add _ _ _ => "add"
  | .sub _ _ _ => "sub"
  | .xor _ _ _ => "xor"
  | .or _ _ _ => "or"
  | .and _ _ _ => "and"
  | .slt _ _ _ => "slt"
  | .sltu _ _ _ => "sltu"
  | .slli _ _ _ => "slli"
  | .srli _ _ _ => "srli"
  | .srai _ _ _ => "srai"
  | .addi _ _ _ => "addi"
  | .xori _ _ _ => "xori"
  | .ori _ _ _ => "ori"
  | .andi _ _ _ => "andi"
  | .slti _ _ _ => "slti"
  | .sltiu _ _ _ => "sltiu"
  | .lw _ _ _ => "lw"
  | .lh _ _ _ => "lh"
  | .lb _ _ _ => "lb"
  | .lhu _ _ _ => "lhu"
  | .lbu _ _ _ => "lbu"
  | .lui _ _ => "lui"
  | .auipc _ _ => "auipc"
  | .beq _ _ _ => "beq"
  | .bne _ _ _ => "bne"
  | .blt _ _ _ => "blt"
  | .bge _ _ _ => "bge"
  | .bltu _ _ _ => "bltu"
  | .bgeu _ _ _ => "bgeu"
  | .jal _ _ => "jal"
  | .jalr _ _ _ => "jalr"
  | .sw _ _ _ => "sw"
  | .sh _ _ _ => "sh"
  | .sb _ _ _ => "sb"
  | .ebreak => "ebreak"
  | .ld _ _ _ => "ld"
  | .sd _ _ _ => "sd"
  | .cLdsp _ _ => "c.ldsp"
  | .cSdsp _ _ => "c.sdsp"
  | .cLd _ _ _ => "c.ld"
  | .cSd _ _ _ => "c.sd"

end Sys2Proof
end

