-- ==== Sys2Proof/Safety.lean ====
section
/-! DEFINITION. The terms in which claims speak of the machine: what a state keeps and changes from another, where an
instruction can stand, the starts of a run, the invariant of the machine, and how a run ends. -/

namespace Sys2Proof.Machine

/-! ### What changes and what stays -/

/-- Every register reads as before. -/
def SameRegs (s t : State) : Prop := ∀ r : Reg, t.readReg r = s.readReg r

/-- `rd` reads `v`, but x0 always 0, and every other register reads as before (R9, R21). -/
def SetsReg (s t : State) (rd : Reg) (v : Word) : Prop :=
  ∀ r : Reg, t.readReg r = if r = rd ∧ r ≠ 0#5 then v else s.readReg r

/-- The registers `rd` and `rd+1` read `lo` and `hi`, and every other register as before; for `rd = x0` every register reads as
before (R261, R267). -/
def SetsPair (s t : State) (rd : Reg) (lo hi : Word) : Prop :=
  ∀ r : Reg, t.readReg r =
    if rd = 0#5 then s.readReg r else if r = rd then lo else if r = rd + 1#5 then hi else s.readReg r

/-- Every byte reads as before. -/
def SameBytes (s t : State) : Prop := ∀ a : Word, t.byteAt a = s.byteAt a

/-- `Dirty` is the same set. -/
def SameDirty (s t : State) : Prop := ∀ a : Nat, a ∈ t.dirty ↔ a ∈ s.dirty

/-- Every byte reads as before, and `Dirty` is the same set. -/
def SameMemory (s t : State) : Prop :=
  SameBytes s t ∧ SameDirty s t

/-- Byte number `k` of a value, the least significant being number 0 (R42). -/
def byteOf {w : Nat} (v : BitVec w) (k : Nat) : Byte := BitVec.ofNat 8 (v.toNat / 2 ^ (8 * k))

/-- The `n` bytes at `addr` (each address modulo 2^32) hold `v`, least significant first, and every other byte reads as
before. -/
def BytesAt {w : Nat} (s t : State) (addr : Word) (n : Nat) (v : BitVec w) : Prop :=
  ∀ a : Word, t.byteAt a = if (a - addr).toNat < n then byteOf v (a - addr).toNat else s.byteAt a

/-- The `n` bytes at `addr` hold `v`, every other byte reads as before, and `Dirty` gains these addresses and no other (R45). -/
def StoresAt {w : Nat} (s t : State) (addr : Word) (n : Nat) (v : BitVec w) : Prop :=
  BytesAt s t addr n v ∧ ∀ a : Nat, a ∈ t.dirty ↔ a ∈ s.dirty ∨ ∃ k, k < n ∧ a = (addr.toNat + k) % 2 ^ 32

/-- The parameters, the count of free choices and the end of the run are as before. -/
def SameRest (s t : State) : Prop := t.cfg = s.cfg ∧ t.draws = s.draws ∧ t.trap = s.trap

/-- The run has ended with an exception of the instruction at `s.pc`, and nothing else has changed (R300, R301, R311). -/
def Traps (s t : State) (cause : Cause) (tval : Word) : Prop :=
  t.trap = some { cause := cause, epc := s.pc, tval := tval } ∧ SameRegs s t ∧ t.pc = s.pc ∧ SameMemory s t ∧
  t.cfg = s.cfg ∧ t.draws = s.draws

/-! ### Addresses -/

/-- The `n` bytes from `addr` on, each address modulo 2^32, are backed (R41, R44, R45). -/
def BackedSpan (c : Config) (addr : Word) (n : Nat) : Prop :=
  ∀ k, k < n → isBacked c (addr + BitVec.ofNat 32 k) = true

/-- No byte from `addr` to `addr+n-1`, modulo 2^32, is in `Dirty` (R57). -/
def CleanSpan (s : State) (addr : Word) (n : Nat) : Prop :=
  ∀ k, k < n → (addr.toNat + k) % 2 ^ 32 ∉ s.dirty

/-- An instruction can stand at `t`: a multiple of 4, or of 2 where instructions are fetched in parcels (R49, R271). -/
def InstrAligned (c : Config) (t : Word) : Prop :=
  if c.ext.parcels then t.toNat % 2 = 0 else t.toNat % 4 = 0

/-! ### What executing an instruction does -/

/-- The instruction completes: `rd` gets `v`, the pc moves past a 4-byte instruction, and nothing else changes. -/
def Completes (i : Instr) (s : State) (rd : Reg) (v : Word) : Prop :=
  ∃ t, exec i s = .next t ∧ SetsReg s t rd v ∧ t.pc = s.pc + 4#32 ∧ SameMemory s t ∧ SameRest s t

/-- The instruction completes by moving the pc to `p`, and nothing else changes. -/
def GoesTo (i : Instr) (s : State) (p : Word) : Prop :=
  ∃ t, exec i s = .next t ∧ SameRegs s t ∧ t.pc = p ∧ SameMemory s t ∧ SameRest s t

/-- The instruction completes: `rd` gets the link value `pc + 4` and the pc moves to `p`, and nothing else changes. -/
def LinksTo (i : Instr) (s : State) (rd : Reg) (p : Word) : Prop :=
  ∃ t, exec i s = .next t ∧ SetsReg s t rd (s.pc + 4#32) ∧ t.pc = p ∧ SameMemory s t ∧ SameRest s t

/-- The instruction completes: the pair `rd` gets `lo` and `hi`, the pc moves past `len` bytes, and nothing else changes. -/
def LoadsPair (i : Instr) (s : State) (rd : Reg) (lo hi len : Word) : Prop :=
  ∃ t, exec i s = .next t ∧ SetsPair s t rd lo hi ∧ t.pc = s.pc + len ∧ SameMemory s t ∧ SameRest s t

/-- The instruction completes: `n` bytes of `v` go to `addr`, the pc moves past `len` bytes, and nothing else changes. -/
def Stores {w : Nat} (i : Instr) (s : State) (addr : Word) (n : Nat) (v : BitVec w) (len : Word) : Prop :=
  ∃ t, exec i s = .next t ∧ StoresAt s t addr n v ∧ SameRegs s t ∧ t.pc = s.pc + len ∧ SameRest s t

/-- The instruction's effect is to take this exception, and nothing else changes. -/
def TakesException (i : Instr) (s : State) (cause : Cause) (tval : Word) : Prop :=
  ∃ t, exec i s = .next t ∧ Traps s t cause tval

/-- A branch (R175, R176): to `target` where the condition holds and an instruction can stand there; to the exception where it
holds and none can; to `pc + 4` where it does not hold. -/
def BranchesIf (i : Instr) (s : State) (cond : Prop) (target : Word) : Prop :=
  (¬ cond → GoesTo i s (s.pc + 4#32)) ∧
  (cond → InstrAligned s.cfg target → GoesTo i s target) ∧
  (cond → ¬ InstrAligned s.cfg target → TakesException i s .instructionAddressMisaligned target)

/-- Every word with this pattern under this mask is the instruction, with its operands in these fields (R94). -/
def EncodedBy (mask pattern : Word) (i : Word → Instr) : Prop :=
  ∀ (ext : Extensions) (w : Word), w &&& mask = pattern → decodeWord ext w = .ok (i w)

/-- The exceptions of an instruction's own rule (R308, R310; for the pairs R262, R263, and R269 on a term no bits encode). -/
def ownCauses : Instr → List Cause
  | .sll _ _ _ | .srl _ _ _ | .sra _ _ _ | .add _ _ _ | .sub _ _ _ => []
  | .xor _ _ _ | .or _ _ _ | .and _ _ _ | .slt _ _ _ | .sltu _ _ _ => []
  | .slli _ _ _ | .srli _ _ _ | .srai _ _ _ => []
  | .addi _ _ _ | .xori _ _ _ | .ori _ _ _ | .andi _ _ _ | .slti _ _ _ | .sltiu _ _ _ => []
  | .lw _ _ _ | .lh _ _ _ | .lb _ _ _ | .lhu _ _ _ | .lbu _ _ _ => [.loadAccessFault]
  | .lui _ _ | .auipc _ _ => []
  | .beq _ _ _ | .bne _ _ _ | .blt _ _ _ | .bge _ _ _ | .bltu _ _ _ | .bgeu _ _ _ => [.instructionAddressMisaligned]
  | .jal _ _ | .jalr _ _ _ => [.instructionAddressMisaligned]
  | .sw _ _ _ | .sh _ _ _ | .sb _ _ _ => [.storeAccessFault]
  | .ebreak => [.breakpoint]
  | .ld _ _ _ | .cLdsp _ _ | .cLd _ _ _ => [.loadAddressMisaligned, .loadAccessFault]
  | .sd _ _ _ | .cSdsp _ _ | .cSd _ _ _ => [.storeAddressMisaligned, .storeAccessFault]

/-! ### Immediates of a word, for the statements about encodings -/

/-- The 13-bit even offset of a branch word (R78). -/
def branchOffset (w : Word) : BitVec 13 :=
  w.extractLsb' 31 1 ++ w.extractLsb' 7 1 ++ w.extractLsb' 25 6 ++ w.extractLsb' 8 4 ++ 0#1

/-- The 12-bit offset of a store word (R77). -/
def storeOffset (w : Word) : BitVec 12 := w.extractLsb' 25 7 ++ w.extractLsb' 7 5

/-! ### Pairs (R261, R266 to R268) -/

/-- The four bytes at `a` as a word. -/
def wordAt (s : State) (a : Word) : Word :=
  s.byteAt (a + 3#32) ++ s.byteAt (a + 2#32) ++ s.byteAt (a + 1#32) ++ s.byteAt a

/-- The 64-bit operand of a pair: `x[r]` low, `x[r+1]` high, and 64 zero bits for the pair 0 (R261, R267). -/
def pairValue (s : State) (r : Reg) : Dword :=
  if r = 0#5 then 0#64 else BitVec.ofNat 64 ((s.readReg (r + 1#5)).toNat * 2 ^ 32 + (s.readReg r).toNat)

/-- What R266 says of a load of the pair `rd` from `a` that raises an exception (the misaligned trap first, R310): the base register holds
its value from before; each register of the pair that is not the base holds its old value or its half of the data; nothing else
has changed. -/
def PairLoadTraps (i : Instr) (s : State) (rd base : Reg) (a : Word) : Prop :=
  ∃ t cause, exec i s = .next t ∧ t.trap = some { cause := cause, epc := s.pc, tval := a } ∧
    cause = (if zilsdMisalignedTrap s.cfg a = true then Cause.loadAddressMisaligned else Cause.loadAccessFault) ∧
    t.pc = s.pc ∧ SameMemory s t ∧ t.cfg = s.cfg ∧ t.readReg base = s.readReg base ∧
    (∀ r, r ≠ rd → r ≠ rd + 1#5 → t.readReg r = s.readReg r) ∧ (rd = 0#5 → SameRegs s t) ∧
    (t.readReg rd = s.readReg rd ∨ (BackedSpan s.cfg a 4 ∧ t.readReg rd = wordAt s a)) ∧
    (t.readReg (rd + 1#5) = s.readReg (rd + 1#5) ∨
      (BackedSpan s.cfg (a + 4#32) 4 ∧ t.readReg (rd + 1#5) = wordAt s (a + 4#32)))

/-- What R268 says of a store of the 64-bit value `v` to `a` that takes `StoreAccessFault`: it has written nothing, or the one 4-byte
half whose bytes are all backed; registers, `pc` and `Dirty` (R307) have not changed. -/
def PairStoreFaults (i : Instr) (s : State) (a : Word) (v : Dword) : Prop :=
  ∃ t, exec i s = .next t ∧ t.trap = some { cause := .storeAccessFault, epc := s.pc, tval := a } ∧ t.pc = s.pc ∧
    t.cfg = s.cfg ∧ SameRegs s t ∧ SameDirty s t ∧
    (SameBytes s t ∨
      (BackedSpan s.cfg a 4 ∧ BytesAt s t a 4 (v.extractLsb' 0 32)) ∨
      (BackedSpan s.cfg (a + 4#32) 4 ∧ BytesAt s t (a + 4#32) 4 (v.extractLsb' 32 32)))

/-! ### Starts and the invariant -/

/-- An image holds each byte once, and only backed bytes (R343). -/
def ImageFits (c : Config) (image : Memory) : Prop :=
  Memory.wf image ∧ ∀ x ∈ image, isBacked c (BitVec.ofNat 32 x.1) = true

/-- A state in which a run can start: any parameters, any registers, any image that fits (R33, R340 to R343). -/
def IsStart (s : State) : Prop :=
  ∃ (c : Config) (regs : Vector Word 31) (image : Memory), Config.wf c ∧ ImageFits c image ∧ s = State.start c regs image

/-- What holds in every state a run reaches. -/
structure Inv (s : State) : Prop where
  /-- `pc[1:0] = 0` at the start of every instruction (R24; with parcels `pc[0] = 0`, R271). -/
  pcAligned : InstrAligned s.cfg s.pc
  /-- Memory keeps its canonical form. -/
  memoryForm : Memory.wf s.mem
  /-- Memory is defined on backed addresses only (R41). -/
  memoryBacked : ∀ x ∈ s.mem, isBacked s.cfg (BitVec.ofNat 32 x.1) = true
  /-- `Dirty` keeps its canonical form. -/
  dirtyForm : AddrSet.wf s.dirty
  /-- A byte that a store has written is a byte memory knows (R31, R45). -/
  dirtyKnown : ∀ a ∈ s.dirty, ∃ b, Memory.lookup s.mem a = some b
  /-- `RESET_PC` is a multiple of 4 (R341). -/
  parameters : Config.wf s.cfg

/-! ### Runs (R315, R346) -/

/-- The state after `n` steps, if the run takes that many and no step is refused. -/
def after : Nat → State → Option State
  | 0, s => some s
  | n + 1, s =>
    match step s with
    | .next t => after n t
    | .fault _ => none
    | .refused _ => none

/-- (a) The run from `s` ends in a trap, after some steps, in the final state `t`. -/
def EndsIn (s t : State) (r : TrapRecord) : Prop := ∃ n, after n s = some t ∧ t.trap = some r

/-- (b) The run from `s` goes on for ever: after any number of steps no exception has ended it. -/
def NeverEnds (s : State) : Prop := ∀ n, ∃ t, after n s = some t ∧ t.trap = none

/-- (c) The run from `s` is refused at the fetch of a byte that a store has written. -/
def IsRefused (s : State) : Prop :=
  ∃ n t, after n s = some t ∧ t.trap = none ∧ step t = .refused (.storedCodeFetched t.pc)

/-- The normal end of a program: a `Breakpoint` trap (R346). -/
def EndsNormally (s t : State) : Prop := ∃ r, EndsIn s t r ∧ r.cause = .breakpoint

end Sys2Proof.Machine
end

