-- ==== Sys2Proof/Certificates/Slice0/Obligations.lean ====
section
/-! DEFINITION. The statements for the provers. `BitVec.ofInt 32 v.toInt` is `sext_32(v)` and `BitVec.ofNat 32 v.toNat` is
`zext_32(v)` (R7); a number outside 32 bits is reduced modulo 2^32 by both. An exception that is taken is a next state that holds
the trap record: that form is the model's (log 4). -/

open Sys2Proof Sys2Proof.Machine

/-! ### Encoding -/

/-- R95: encoding then decoding gives back the same operands, for every well-formed instruction of every family. -/
def Obligations.EncodeThenDecode : Prop :=
  ∀ (ext : Extensions) (i : Instr) (rest : List Byte), i.wf = true →
    (i.needs.zilsd = true → ext.zilsd = true) → (i.needs.zclsd = true → ext.zclsd = true) →
    decode ext (encode i ++ rest) = .ok (i, rest)

/-- R95: decoding then encoding gives back the same word, and what decodes is well-formed. -/
def Obligations.DecodeThenEncode : Prop :=
  ∀ (ext : Extensions) (raw : RawInstr) (i : Instr), decodeRaw ext raw = .ok i → encodeRaw i = raw ∧ i.wf = true

/-- R94: a word is an instruction exactly when it matches that instruction's row; a row of an extension counts where the
extension is on, and its reserved code points are rejected (R269, R277). Bytes give an instruction, of 32 or of 16 bits, only where
the extensions it needs are on (R270, R102). -/
def Obligations.DecoderAgreesWithOpcodeTable : Prop :=
  (∀ (ext : Extensions) (bytes : List Byte) (i : Instr) (rest : List Byte), decode ext bytes = .ok (i, rest) →
    (i.needs.zilsd = true → ext.zilsd = true) ∧ (i.needs.zclsd = true → ext.zclsd = true)) ∧
  ∀ (ext : Extensions) (raw : RawInstr),
    (∀ i, decodeRaw ext raw = .ok i → ∃ row ∈ opcodeTable, row.mnemonic = i.mnemonic ∧ row.hits raw = true ∧
      (∀ w, raw = .word w → row.needs.zilsd = true → ext.zilsd = true)) ∧
    (∀ row ∈ opcodeTable, row.hits raw = true → (row.needs.zilsd = true → ext.zilsd = true) →
      (∃ i, decodeRaw ext raw = .ok i ∧ i.mnemonic = row.mnemonic) ∨
      (row.needs.zilsd = true ∧ (decodeRaw ext raw = .error .oddPair ∨ decodeRaw ext raw = .error .zeroDestination)))

/-- R93: no two rows of the opcode table match the same bits. -/
def Obligations.OpcodeRowsAreDisjoint : Prop :=
  ∀ (raw : RawInstr) (r₁ r₂ : OpcodeRow), r₁ ∈ opcodeTable → r₂ ∈ opcodeTable →
    r₁.hits raw = true → r₂.hits raw = true → r₁ = r₂

/-- Words of 95_test_vectors.md decode to the instructions written there. -/
def Obligations.SampleWordsDecode : Prop :=
  decodeWord .base 0x00c58533#32 = .ok (.add 10 11 12) ∧
  decodeWord .base 0x40c5d533#32 = .ok (.sra 10 11 12) ∧
  decodeWord .base 0xfff58513#32 = .ok (.addi 10 11 (BitVec.ofInt 12 (-1))) ∧
  decodeWord .base 0x4307a503#32 = .ok (.lw 10 0x430 15) ∧
  decodeWord .base 0x7eb12fa3#32 = .ok (.sw 11 2047 2) ∧
  decodeWord .base 0xfe520ce3#32 = .ok (.beq 4 5 (BitVec.ofInt 13 (-8))) ∧
  decodeWord .base 0x3e8000ef#32 = .ok (.jal 1 1000) ∧
  decodeWord .base 0x12345537#32 = .ok (.lui 10 0x12345) ∧
  decodeWord .base 0x00100073#32 = .ok .ebreak ∧
  decodeParcel 0x6588#16 = .ok (.cLd 2 8 3)

/-- R81: where the formats keep the same immediate bits. -/
def Obligations.ImmediatePlacement : Prop :=
  ∀ w : Word,
    ((immI w).msb = w.msb ∧ (immS w).msb = w.msb ∧ (immB w).msb = w.msb ∧ (immJ w).msb = w.msb) ∧
    ((immU w).extractLsb' 0 8 = w.extractLsb' 12 8 ∧ (immJ w).extractLsb' 12 8 = w.extractLsb' 12 8) ∧
    ((immJ w).extractLsb' 1 10 = w.extractLsb' 21 10 ∧ (immI w).extractLsb' 1 10 = w.extractLsb' 21 10 ∧
      (immI w).extractLsb' 0 1 = w.extractLsb' 20 1) ∧
    ((immI w).extractLsb' 5 6 = w.extractLsb' 25 6 ∧ (immS w).extractLsb' 5 6 = w.extractLsb' 25 6 ∧
      (immB w).extractLsb' 5 6 = w.extractLsb' 25 6 ∧ (immJ w).extractLsb' 5 6 = w.extractLsb' 25 6) ∧
    ((immS w).extractLsb' 1 4 = w.extractLsb' 8 4 ∧ (immB w).extractLsb' 1 4 = w.extractLsb' 8 4)

/-- R97: the upper seven bits of a shift-immediate word. -/
def Obligations.ShiftImmediateUpperBits : Prop :=
  ∀ (ext : Extensions) (w : Word), fOpcode w = 0b0010011#7 →
    (fFunct3 w = 0b001#3 →
      (fFunct7 w = 0b0000000#7 → decodeWord ext w = .ok (.slli (fRd w) (fRs1 w) (shamtI w))) ∧
      (fFunct7 w ≠ 0b0000000#7 → decodeWord ext w = .error .reservedShift)) ∧
    (fFunct3 w = 0b101#3 →
      (fFunct7 w = 0b0000000#7 → decodeWord ext w = .ok (.srli (fRd w) (fRs1 w) (shamtI w))) ∧
      (fFunct7 w = 0b0100000#7 → decodeWord ext w = .ok (.srai (fRd w) (fRs1 w) (shamtI w))) ∧
      (fFunct7 w ≠ 0b0000000#7 → fFunct7 w ≠ 0b0100000#7 → decodeWord ext w = .error .reservedShift))

/-- R100, R101, R102: a word whose low two bits are not `11` is no instruction; nor are the all-zero and the all-one word; nor
are the words of `ld` and `sd` without the extension. -/
def Obligations.IllegalWords : Prop :=
  (∀ (ext : Extensions) (w : Word), w.extractLsb' 0 2 ≠ 0b11#2 → decodeWord ext w = .error .unassignedOpcode) ∧
  (∀ ext : Extensions, decodeWord ext 0x00000000#32 = .error .unassignedOpcode ∧
    decodeWord ext 0xffffffff#32 = .error .unassignedOpcode) ∧
  (∀ (ext : Extensions) (w : Word), ext.zilsd = false → fFunct3 w = 0b011#3 →
    fOpcode w = 0b0000011#7 ∨ fOpcode w = 0b0100011#7 → decodeWord ext w = .error .zilsdOff)

/-! ### The instruction cycle -/

/-- R26: where the bytes at `pc` decode, a step executes the decoded instruction. The bytes are backed, and none has been stored
to unless `FETCH_SEES_STORES`. -/
def Obligations.StepRunsDecodedInstruction : Prop :=
  ∀ (s : State) (n : Nat) (i : Instr), s.trap = none → InstrAligned s.cfg s.pc → BackedSpan s.cfg s.pc n →
    (s.cfg.fetchSeesStores = true ∨ CleanSpan s s.pc n) →
    decode s.cfg.ext ((List.range n).map fun k => s.byteAt (s.pc + BitVec.ofNat 32 k)) = .ok (i, []) →
    step s = exec i s

/-- R304: where the bytes at `pc` make no instruction, a step takes `IllegalInstruction`, code 2, with the bits as the recorded value,
and changes nothing else. -/
def Obligations.StepTakesIllegalInstruction : Prop :=
  Cause.code .illegalInstruction = 2 ∧
  ∀ (s : State) (n : Nat) (raw : RawInstr) (e : Illegal), s.trap = none → InstrAligned s.cfg s.pc →
    BackedSpan s.cfg s.pc n → (s.cfg.fetchSeesStores = true ∨ CleanSpan s s.pc n) →
    splitRaw s.cfg.ext ((List.range n).map fun k => s.byteAt (s.pc + BitVec.ofNat 32 k)) = .ok (raw, []) →
    decodeRaw s.cfg.ext raw = .error e →
    ∃ t, step s = .next t ∧ Traps s t .illegalInstruction raw.toWord

/-- R310: the exceptions before decoding and their order: a misaligned `pc` first, then an unbacked byte of the instruction
(R305), of which a parcel machine looks at the first parcel before the second (that order is the model's, log 11). -/
def Obligations.FetchExceptions : Prop :=
  ∀ s : State, s.trap = none →
    (¬ InstrAligned s.cfg s.pc → ∃ t, step s = .next t ∧ Traps s t .instructionAddressMisaligned s.pc) ∧
    (InstrAligned s.cfg s.pc → s.cfg.ext.parcels = false → ¬ BackedSpan s.cfg s.pc 4 →
      ∃ t, step s = .next t ∧ Traps s t .instructionAccessFault s.pc) ∧
    (InstrAligned s.cfg s.pc → s.cfg.ext.parcels = true → ¬ BackedSpan s.cfg s.pc 2 →
      ∃ t, step s = .next t ∧ Traps s t .instructionAccessFault s.pc) ∧
    (InstrAligned s.cfg s.pc → s.cfg.ext.parcels = true → BackedSpan s.cfg s.pc 2 →
      (s.cfg.fetchSeesStores = true ∨ CleanSpan s s.pc 2) → isLong (s.byteAt (s.pc + 1#32) ++ s.byteAt s.pc) = true →
      ¬ BackedSpan s.cfg (s.pc + 2#32) 2 → ∃ t, step s = .next t ∧ Traps s t .instructionAccessFault s.pc)

/-- R57: with `FETCH_SEES_STORES` off the fetch of a byte that a store has written is refused; with it on the fetch returns the
current bytes: the word, or where instructions are parcels (R271) the first parcel alone if its low two bits are not `11`, and with
the second if they are. That the parcels are looked at one after the other is the model's (log 11). -/
def Obligations.FetchOfStoredBytes : Prop :=
  ∀ s : State, s.trap = none → InstrAligned s.cfg s.pc →
    (s.cfg.ext.parcels = false → BackedSpan s.cfg s.pc 4 →
      (s.cfg.fetchSeesStores = false → ¬ CleanSpan s s.pc 4 → step s = .refused (.storedCodeFetched s.pc)) ∧
      (s.cfg.fetchSeesStores = true → s.fetch = .raw (.word (wordAt s s.pc)))) ∧
    (s.cfg.ext.parcels = true → BackedSpan s.cfg s.pc 2 →
      (s.cfg.fetchSeesStores = false → ¬ CleanSpan s s.pc 2 → step s = .refused (.storedCodeFetched s.pc)) ∧
      (s.cfg.fetchSeesStores = true → isLong (s.byteAt (s.pc + 1#32) ++ s.byteAt s.pc) = false →
        s.fetch = .raw (.parcel (s.byteAt (s.pc + 1#32) ++ s.byteAt s.pc))) ∧
      (isLong (s.byteAt (s.pc + 1#32) ++ s.byteAt s.pc) = true → BackedSpan s.cfg (s.pc + 2#32) 2 →
        (s.cfg.fetchSeesStores = false → CleanSpan s s.pc 2 → ¬ CleanSpan s (s.pc + 2#32) 2 →
          step s = .refused (.storedCodeFetched s.pc)) ∧
        (s.cfg.fetchSeesStores = true → s.fetch = .raw (.word (wordAt s s.pc)))))

/-- R57: code that is never written behaves identically under both values of `FETCH_SEES_STORES`: whatever step the machine takes
with it off, it takes with it on. For a faulting load or store of a pair this rests on the model's choice that one draw serves both
(log 20): their counters are equal. -/
def Obligations.UnwrittenCodeSameUnderBoth : Prop :=
  ∀ s t : State, s.cfg.fetchSeesStores = false → step s = .next t →
    step { s with cfg := { s.cfg with fetchSeesStores := true } } =
      .next { t with cfg := { t.cfg with fetchSeesStores := true } }

/-- R300, R313: once an exception has ended the run there is no further step; before that a step gives a next state or is refused at
the fetch of a stored-to byte, and nothing else. -/
def Obligations.StepOutcomes : Prop :=
  ∀ s : State,
    (∀ r, s.trap = some r → step s = .fault (.runEnded r)) ∧
    (s.trap = none → (∃ t, step s = .next t) ∨ step s = .refused (.storedCodeFetched s.pc)) ∧
    (s.trap = none → s.cfg.fetchSeesStores = true → ∃ t, step s = .next t)

/-- R315: a run from a state whose run has not ended is exactly one of: ending in a trap record and a final state, going on for
ever, refused. -/
def Obligations.RunHasOneOutcome : Prop :=
  ∀ s : State, s.trap = none →
    ((∃ t r, EndsIn s t r) ∨ NeverEnds s ∨ IsRefused s) ∧
    (∀ t r t' r', EndsIn s t r → EndsIn s t' r' → t = t' ∧ r = r') ∧
    ¬ ((∃ t r, EndsIn s t r) ∧ NeverEnds s) ∧ ¬ ((∃ t r, EndsIn s t r) ∧ IsRefused s) ∧ ¬ (NeverEnds s ∧ IsRefused s)

/-- R311: traps are precise. The record's `epc` is the `pc` of the instruction, which does not move; `Dirty` is unchanged (R307 says so
of a store of a pair too); the state is the one before the instruction with the record added, and nothing else, in the base machine
always, and with the extensions for every instruction but a load or a store of a pair. -/
def Obligations.TrapsArePrecise : Prop :=
  ∀ (s t : State) (r : TrapRecord), step s = .next t → t.trap = some r →
    r.epc = s.pc ∧ t.pc = s.pc ∧ t.dirty = s.dirty ∧ (s.cfg.ext = Extensions.base → t = { s with trap := some r }) ∧
    ((∀ raw i, s.fetch = .raw raw → decodeRaw s.cfg.ext raw = .ok i → i.needs = Extensions.base) →
      t = { s with trap := some r })

/-- R308, R310: an instruction takes only the exceptions of its own rule, at most one; and the base machine raises exactly the six of
the first six rows. -/
def Obligations.ExceptionCauses : Prop :=
  (∀ (i : Instr) (s t : State) (r : TrapRecord), i.wf = true → s.trap = none → exec i s = .next t → t.trap = some r →
    r.cause ∈ ownCauses i) ∧
  (∀ (s t : State) (r : TrapRecord), s.cfg.ext = Extensions.base → step s = .next t → t.trap = some r →
    r.cause ≠ .loadAddressMisaligned ∧ r.cause ≠ .storeAddressMisaligned)

/-! ### The machine as a whole -/

/-- Every step keeps the machine's invariant (R24: `pc[1:0] = 0` at the start of every instruction; memory only on backed addresses,
R41). The canonical form of memory and of `Dirty` is the model's own (log 18). -/
def Obligations.StepKeepsInvariant : Prop :=
  ∀ s t : State, Inv s → step s = .next t → Inv t

/-- Every start of a run meets the invariant, and the state after reset is a start. -/
def Obligations.StartsMeetInvariant : Prop :=
  (∀ s : State, IsStart s → Inv s) ∧ IsStart State.reset

/-- R33, R340 to R344: what reset leaves: `pc` at `RESET_PC`, x0 zero, every other register as the harness has it, memory the image,
`Dirty` empty, no exception taken; and the default `RESET_PC` is 0. -/
def Obligations.ResetLeaves : Prop :=
  (∀ (c : Config) (regs : Vector Word 31) (image : Memory),
    let s := State.start c regs image
    s.pc = c.resetPc ∧ s.readReg 0#5 = 0#32 ∧ (∀ (k : Nat) (h : k < 31), s.readReg (BitVec.ofNat 5 (k + 1)) = regs[k]) ∧
    (∀ (a : Word) (b : Byte), Memory.lookup image a.toNat = some b → s.byteAt a = b) ∧ s.dirty = [] ∧ s.trap = none ∧
    s.cfg = c) ∧
  State.reset.pc = 0x00000000#32

/-- R32: no step changes a parameter. -/
def Obligations.StepKeepsParameters : Prop :=
  ∀ s t : State, step s = .next t → t.cfg = s.cfg

/-- Every instruction gives a next state, from every state and with every operand: none stops a run by a fault or a refusal. -/
def Obligations.ExecAlwaysAnswersNext : Prop :=
  ∀ (i : Instr) (s : State), ∃ t, exec i s = .next t

/-- R23: no instruction writes a register it does not name as a destination. -/
def Obligations.OnlyNamedRegistersWritten : Prop :=
  ∀ (i : Instr) (s t : State) (r : Reg), exec i s = .next t → r ∉ destinations i → t.readReg r = s.readReg r

/-- R23: no instruction reads a register it does not name. Two states that differ only in registers that are no sources of the
instruction go to states that agree but in registers, and a register that differs then has kept its value in both. For a load or a
store of a pair that faults this rests on the model's choice that one draw serves both states (log 20): their counters are equal. -/
def Obligations.OnlyNamedRegistersRead : Prop :=
  ∀ (i : Instr) (s₁ s₂ : State) (regs : Vector Word 31), s₂ = { s₁ with regs := regs } →
    (∀ r ∈ sources i, s₂.readReg r = s₁.readReg r) →
    ∃ t₁ t₂ : State, exec i s₁ = .next t₁ ∧ exec i s₂ = .next t₂ ∧ t₂ = { t₁ with regs := t₂.regs } ∧
      ∀ r : Reg, t₂.readReg r = t₁.readReg r ∨ (t₁.readReg r = s₁.readReg r ∧ t₂.readReg r = s₂.readReg r)

/-- R322, R45, R200: memory changes only by stores, only inside the bytes the store addresses, and every changed byte is in `Dirty`,
but for the half that a store of a pair may have written when it takes `StoreAccessFault` (R268, R307). -/
def Obligations.MemoryChangesOnlyWhereStored : Prop :=
  ∀ (i : Instr) (s t : State) (a : Word), exec i s = .next t → t.byteAt a ≠ s.byteAt a →
    (∃ addr n, storeTarget i s = some (addr, n) ∧ (a - addr).toNat < n) ∧
    (a.toNat ∈ t.dirty ∨ (i.needs.zilsd = true ∧ ∃ r, t.trap = some r ∧ r.cause = .storeAccessFault))

/-- R9, R21: a register reads what was last written to it, x0 always 0, and a write to x0 changes nothing. -/
def Obligations.RegisterReadAfterWrite : Prop :=
  ∀ (s : State) (r : Reg) (v : Word),
    SetsReg s (s.writeReg r v) r v ∧ s.readReg 0#5 = 0#32 ∧ s.writeReg 0#5 v = s

/-! ### Memory -/

/-- R44, R59: what `MemRead` returns. It answers exactly where all its bytes are backed, and byte `k` of the answer is the byte at
`(addr + k) mod 2^32`, at any alignment and across the top of the address space. -/
def Obligations.MemReadReturnsBytes : Prop :=
  ∀ (s : State) (addr : Word) (n : Nat),
    ((s.memRead addr n).isSome = true ↔ ∀ k, k < n → isBacked s.cfg (BitVec.ofNat 32 ((addr.toNat + k) % 2 ^ 32)) = true) ∧
    ∀ v, s.memRead addr n = some v → ∀ k, k < n →
      v.extractLsb' (8 * k) 8 = s.byteAt (BitVec.ofNat 32 ((addr.toNat + k) % 2 ^ 32))

/-- R43: after `MemWrite(a, 4, v)`, `MemRead(a+k, 1)` and `MemRead(a+2k, 2)` see the corresponding bytes of `v`, and `MemRead(a, 4)` is
`v`; bytes written separately are seen combined by a wide read. -/
def Obligations.MixedWidthAccess : Prop :=
  (∀ (s t : State) (a v : Word), s.memWrite a 4 v = some t →
    (∀ k, k < 4 → t.memRead (a + BitVec.ofNat 32 k) 1 = some (v.extractLsb' (8 * k) 8)) ∧
    (∀ k, k < 2 → t.memRead (a + BitVec.ofNat 32 (2 * k)) 2 = some (v.extractLsb' (16 * k) 16)) ∧
    t.memRead a 4 = some v) ∧
  ∀ (s s₁ s₂ s₃ s₄ : State) (a b₀ b₁ b₂ b₃ : Word), s.memWrite a 1 b₀ = some s₁ → s₁.memWrite (a + 1#32) 1 b₁ = some s₂ →
    s₂.memWrite (a + 2#32) 1 b₂ = some s₃ → s₃.memWrite (a + 3#32) 1 b₃ = some s₄ →
    s₄.memRead a 4 = some (byteOf b₃ 0 ++ byteOf b₂ 0 ++ byteOf b₁ 0 ++ byteOf b₀ 0)

/-- R45, R46: what `MemWrite` does: nothing unless all its bytes are backed; else the low bytes of the value, least significant
first, `Dirty`, and nothing else. -/
def Obligations.MemWriteStoresBytes : Prop :=
  ∀ (s : State) (addr v : Word) (n : Nat), n = 1 ∨ n = 2 ∨ n = 4 →
    ((s.memWrite addr n v = none ∧ ¬ BackedSpan s.cfg addr n) ∨
      ∃ t, s.memWrite addr n v = some t ∧ BackedSpan s.cfg addr n ∧ StoresAt s t addr n v ∧ SameRegs s t ∧ t.pc = s.pc ∧
        SameRest s t)

/-! ### Register-register instructions -/

/-- R111, R112, R113: the shifts by a register, the distance the low 5 bits of `x[rs2]`; `sra` rounds toward minus infinity. -/
def Obligations.ShiftRegisterResults : Prop :=
  EncodedBy 0xfe00707f 0x00001033 (fun w => .sll (fRd w) (fRs1 w) (fRs2 w)) ∧
  EncodedBy 0xfe00707f 0x00005033 (fun w => .srl (fRd w) (fRs1 w) (fRs2 w)) ∧
  EncodedBy 0xfe00707f 0x40005033 (fun w => .sra (fRd w) (fRs1 w) (fRs2 w)) ∧
  ∀ (rd rs1 rs2 : Reg) (s : State),
    Completes (.sll rd rs1 rs2) s rd (BitVec.ofNat 32 ((s.readReg rs1).toNat * 2 ^ ((s.readReg rs2).toNat % 32))) ∧
    Completes (.srl rd rs1 rs2) s rd (BitVec.ofNat 32 ((s.readReg rs1).toNat / 2 ^ ((s.readReg rs2).toNat % 32))) ∧
    Completes (.sra rd rs1 rs2) s rd (BitVec.ofInt 32 ((s.readReg rs1).toInt / 2 ^ ((s.readReg rs2).toNat % 32)))

/-- R114, R115: the sum and the difference modulo 2^32, on the unsigned and on the signed reading alike. -/
def Obligations.AddSubResults : Prop :=
  EncodedBy 0xfe00707f 0x00000033 (fun w => .add (fRd w) (fRs1 w) (fRs2 w)) ∧
  EncodedBy 0xfe00707f 0x40000033 (fun w => .sub (fRd w) (fRs1 w) (fRs2 w)) ∧
  ∀ (rd rs1 rs2 : Reg) (s : State),
    Completes (.add rd rs1 rs2) s rd (BitVec.ofNat 32 ((s.readReg rs1).toNat + (s.readReg rs2).toNat)) ∧
    Completes (.add rd rs1 rs2) s rd (BitVec.ofInt 32 ((s.readReg rs1).toInt + (s.readReg rs2).toInt)) ∧
    Completes (.sub rd rs1 rs2) s rd (BitVec.ofInt 32 ((s.readReg rs1).toNat - (s.readReg rs2).toNat)) ∧
    Completes (.sub rd rs1 rs2) s rd (BitVec.ofInt 32 ((s.readReg rs1).toInt - (s.readReg rs2).toInt))

/-- R116, R117, R118: the bitwise operations, bit by bit. -/
def Obligations.BitwiseRegisterResults : Prop :=
  EncodedBy 0xfe00707f 0x00004033 (fun w => .xor (fRd w) (fRs1 w) (fRs2 w)) ∧
  EncodedBy 0xfe00707f 0x00006033 (fun w => .or (fRd w) (fRs1 w) (fRs2 w)) ∧
  EncodedBy 0xfe00707f 0x00007033 (fun w => .and (fRd w) (fRs1 w) (fRs2 w)) ∧
  ∀ (rd rs1 rs2 : Reg) (s : State),
    (∃ v, Completes (.xor rd rs1 rs2) s rd v ∧
      ∀ k, v.getLsbD k = ((s.readReg rs1).getLsbD k != (s.readReg rs2).getLsbD k)) ∧
    (∃ v, Completes (.or rd rs1 rs2) s rd v ∧
      ∀ k, v.getLsbD k = ((s.readReg rs1).getLsbD k || (s.readReg rs2).getLsbD k)) ∧
    (∃ v, Completes (.and rd rs1 rs2) s rd v ∧
      ∀ k, v.getLsbD k = ((s.readReg rs1).getLsbD k && (s.readReg rs2).getLsbD k))

/-- R119, R120: the comparisons, signed and unsigned. -/
def Obligations.CompareRegisterResults : Prop :=
  EncodedBy 0xfe00707f 0x00002033 (fun w => .slt (fRd w) (fRs1 w) (fRs2 w)) ∧
  EncodedBy 0xfe00707f 0x00003033 (fun w => .sltu (fRd w) (fRs1 w) (fRs2 w)) ∧
  ∀ (rd rs1 rs2 : Reg) (s : State),
    Completes (.slt rd rs1 rs2) s rd (if (s.readReg rs1).toInt < (s.readReg rs2).toInt then 1#32 else 0#32) ∧
    Completes (.sltu rd rs1 rs2) s rd (if (s.readReg rs1).toNat < (s.readReg rs2).toNat then 1#32 else 0#32)

/-! ### Register-immediate instructions -/

/-- R131, R132, R133: the shifts by a constant. -/
def Obligations.ShiftImmediateResults : Prop :=
  EncodedBy 0xfe00707f 0x00001013 (fun w => .slli (fRd w) (fRs1 w) (w.extractLsb' 20 5)) ∧
  EncodedBy 0xfe00707f 0x00005013 (fun w => .srli (fRd w) (fRs1 w) (w.extractLsb' 20 5)) ∧
  EncodedBy 0xfe00707f 0x40005013 (fun w => .srai (fRd w) (fRs1 w) (w.extractLsb' 20 5)) ∧
  ∀ (rd rs1 : Reg) (shamt : BitVec 5) (s : State),
    Completes (.slli rd rs1 shamt) s rd (BitVec.ofNat 32 ((s.readReg rs1).toNat * 2 ^ shamt.toNat)) ∧
    Completes (.srli rd rs1 shamt) s rd (BitVec.ofNat 32 ((s.readReg rs1).toNat / 2 ^ shamt.toNat)) ∧
    Completes (.srai rd rs1 shamt) s rd (BitVec.ofInt 32 ((s.readReg rs1).toInt / 2 ^ shamt.toNat))

/-- R134: `addi` adds the sign-extended immediate modulo 2^32. -/
def Obligations.AddImmediateResult : Prop :=
  EncodedBy 0x0000707f 0x00000013 (fun w => .addi (fRd w) (fRs1 w) (w.extractLsb' 20 12)) ∧
  ∀ (rd rs1 : Reg) (imm : BitVec 12) (s : State),
    Completes (.addi rd rs1 imm) s rd (BitVec.ofInt 32 ((s.readReg rs1).toInt + imm.toInt))

/-- R135, R136, R137: the bitwise operations with the immediate, whose bit 11 stands for every bit above it. -/
def Obligations.BitwiseImmediateResults : Prop :=
  EncodedBy 0x0000707f 0x00004013 (fun w => .xori (fRd w) (fRs1 w) (w.extractLsb' 20 12)) ∧
  EncodedBy 0x0000707f 0x00006013 (fun w => .ori (fRd w) (fRs1 w) (w.extractLsb' 20 12)) ∧
  EncodedBy 0x0000707f 0x00007013 (fun w => .andi (fRd w) (fRs1 w) (w.extractLsb' 20 12)) ∧
  ∀ (rd rs1 : Reg) (imm : BitVec 12) (s : State),
    (∃ v, Completes (.xori rd rs1 imm) s rd v ∧
      ∀ k, k < 32 → v.getLsbD k = ((s.readReg rs1).getLsbD k != imm.getLsbD (min k 11))) ∧
    (∃ v, Completes (.ori rd rs1 imm) s rd v ∧
      ∀ k, k < 32 → v.getLsbD k = ((s.readReg rs1).getLsbD k || imm.getLsbD (min k 11))) ∧
    (∃ v, Completes (.andi rd rs1 imm) s rd v ∧
      ∀ k, k < 32 → v.getLsbD k = ((s.readReg rs1).getLsbD k && imm.getLsbD (min k 11)))

/-- R138, R139: the comparisons with the sign-extended immediate; `sltiu` then reads both as unsigned. -/
def Obligations.CompareImmediateResults : Prop :=
  EncodedBy 0x0000707f 0x00002013 (fun w => .slti (fRd w) (fRs1 w) (w.extractLsb' 20 12)) ∧
  EncodedBy 0x0000707f 0x00003013 (fun w => .sltiu (fRd w) (fRs1 w) (w.extractLsb' 20 12)) ∧
  ∀ (rd rs1 : Reg) (imm : BitVec 12) (s : State),
    Completes (.slti rd rs1 imm) s rd (if (s.readReg rs1).toInt < imm.toInt then 1#32 else 0#32) ∧
    Completes (.sltiu rd rs1 imm) s rd
      (if ((s.readReg rs1).toNat : Int) < imm.toInt % 2 ^ 32 then 1#32 else 0#32)

/-! ### Loads -/

/-- R151: `lw` reads the four bytes at `x[rs1] + sext(offset)`, least significant first, at any alignment; where one is not backed it
takes `LoadAccessFault` with the effective address and changes nothing. -/
def Obligations.LoadWordResult : Prop :=
  EncodedBy 0x0000707f 0x00002003 (fun w => .lw (fRd w) (w.extractLsb' 20 12) (fRs1 w)) ∧
  ∀ (rd rs1 : Reg) (offset : BitVec 12) (s : State) (a : Word), a = s.readReg rs1 + BitVec.ofInt 32 offset.toInt →
    (BackedSpan s.cfg a 4 → Completes (.lw rd offset rs1) s rd
      (s.byteAt (a + 3#32) ++ s.byteAt (a + 2#32) ++ s.byteAt (a + 1#32) ++ s.byteAt a)) ∧
    (¬ BackedSpan s.cfg a 4 → TakesException (.lw rd offset rs1) s .loadAccessFault a)

/-- R152, R154: `lh` and `lhu` read a halfword, sign- and zero-extended. -/
def Obligations.LoadHalfResults : Prop :=
  EncodedBy 0x0000707f 0x00001003 (fun w => .lh (fRd w) (w.extractLsb' 20 12) (fRs1 w)) ∧
  EncodedBy 0x0000707f 0x00005003 (fun w => .lhu (fRd w) (w.extractLsb' 20 12) (fRs1 w)) ∧
  ∀ (rd rs1 : Reg) (offset : BitVec 12) (s : State) (a : Word), a = s.readReg rs1 + BitVec.ofInt 32 offset.toInt →
    (BackedSpan s.cfg a 2 →
      Completes (.lh rd offset rs1) s rd (BitVec.ofInt 32 (s.byteAt (a + 1#32) ++ s.byteAt a).toInt) ∧
      Completes (.lhu rd offset rs1) s rd (BitVec.ofNat 32 (s.byteAt (a + 1#32) ++ s.byteAt a).toNat)) ∧
    (¬ BackedSpan s.cfg a 2 →
      TakesException (.lh rd offset rs1) s .loadAccessFault a ∧ TakesException (.lhu rd offset rs1) s .loadAccessFault a)

/-- R153, R155: `lb` and `lbu` read a byte, sign- and zero-extended. -/
def Obligations.LoadByteResults : Prop :=
  EncodedBy 0x0000707f 0x00000003 (fun w => .lb (fRd w) (w.extractLsb' 20 12) (fRs1 w)) ∧
  EncodedBy 0x0000707f 0x00004003 (fun w => .lbu (fRd w) (w.extractLsb' 20 12) (fRs1 w)) ∧
  ∀ (rd rs1 : Reg) (offset : BitVec 12) (s : State) (a : Word), a = s.readReg rs1 + BitVec.ofInt 32 offset.toInt →
    (BackedSpan s.cfg a 1 →
      Completes (.lb rd offset rs1) s rd (BitVec.ofInt 32 (s.byteAt a).toInt) ∧
      Completes (.lbu rd offset rs1) s rd (BitVec.ofNat 32 (s.byteAt a).toNat)) ∧
    (¬ BackedSpan s.cfg a 1 →
      TakesException (.lb rd offset rs1) s .loadAccessFault a ∧ TakesException (.lbu rd offset rs1) s .loadAccessFault a)

/-! ### Upper-immediate instructions -/

/-- R166, R167: `lui` writes the field times 2^12, `auipc` adds it to the address of the `auipc` itself. -/
def Obligations.UpperImmediateResults : Prop :=
  EncodedBy 0x0000007f 0x00000037 (fun w => .lui (fRd w) (w.extractLsb' 12 20)) ∧
  EncodedBy 0x0000007f 0x00000017 (fun w => .auipc (fRd w) (w.extractLsb' 12 20)) ∧
  ∀ (rd : Reg) (imm : BitVec 20) (s : State),
    Completes (.lui rd imm) s rd (BitVec.ofNat 32 (imm.toNat * 2 ^ 12)) ∧
    Completes (.auipc rd imm) s rd (BitVec.ofNat 32 (s.pc.toNat + imm.toNat * 2 ^ 12))

/-! ### Branches and jumps -/

/-- R177, R178: `beq` and `bne`. -/
def Obligations.EqualityBranches : Prop :=
  EncodedBy 0x0000707f 0x00000063 (fun w => .beq (fRs1 w) (fRs2 w) (branchOffset w)) ∧
  EncodedBy 0x0000707f 0x00001063 (fun w => .bne (fRs1 w) (fRs2 w) (branchOffset w)) ∧
  ∀ (rs1 rs2 : Reg) (offset : BitVec 13) (s : State),
    BranchesIf (.beq rs1 rs2 offset) s (s.readReg rs1 = s.readReg rs2) (s.pc + BitVec.ofInt 32 offset.toInt) ∧
    BranchesIf (.bne rs1 rs2 offset) s (s.readReg rs1 ≠ s.readReg rs2) (s.pc + BitVec.ofInt 32 offset.toInt)

/-- R179, R180: `blt` and `bge`, signed. -/
def Obligations.SignedBranches : Prop :=
  EncodedBy 0x0000707f 0x00004063 (fun w => .blt (fRs1 w) (fRs2 w) (branchOffset w)) ∧
  EncodedBy 0x0000707f 0x00005063 (fun w => .bge (fRs1 w) (fRs2 w) (branchOffset w)) ∧
  ∀ (rs1 rs2 : Reg) (offset : BitVec 13) (s : State),
    BranchesIf (.blt rs1 rs2 offset) s ((s.readReg rs1).toInt < (s.readReg rs2).toInt)
      (s.pc + BitVec.ofInt 32 offset.toInt) ∧
    BranchesIf (.bge rs1 rs2 offset) s ((s.readReg rs1).toInt ≥ (s.readReg rs2).toInt)
      (s.pc + BitVec.ofInt 32 offset.toInt)

/-- R181, R182: `bltu` and `bgeu`, unsigned. -/
def Obligations.UnsignedBranches : Prop :=
  EncodedBy 0x0000707f 0x00006063 (fun w => .bltu (fRs1 w) (fRs2 w) (branchOffset w)) ∧
  EncodedBy 0x0000707f 0x00007063 (fun w => .bgeu (fRs1 w) (fRs2 w) (branchOffset w)) ∧
  ∀ (rs1 rs2 : Reg) (offset : BitVec 13) (s : State),
    BranchesIf (.bltu rs1 rs2 offset) s ((s.readReg rs1).toNat < (s.readReg rs2).toNat)
      (s.pc + BitVec.ofInt 32 offset.toInt) ∧
    BranchesIf (.bgeu rs1 rs2 offset) s ((s.readReg rs1).toNat ≥ (s.readReg rs2).toNat)
      (s.pc + BitVec.ofInt 32 offset.toInt)

/-- R191: `jal` goes to `pc + offset` with `pc + 4` in `rd`, or takes `InstructionAddressMisaligned(target)` with neither changed. -/
def Obligations.JumpAndLinkResult : Prop :=
  EncodedBy 0x0000007f 0x0000006f (fun w => .jal (fRd w)
    (w.extractLsb' 31 1 ++ w.extractLsb' 12 8 ++ w.extractLsb' 20 1 ++ w.extractLsb' 21 10 ++ 0#1)) ∧
  ∀ (rd : Reg) (offset : BitVec 21) (s : State) (target : Word), target = s.pc + BitVec.ofInt 32 offset.toInt →
    (InstrAligned s.cfg target → LinksTo (.jal rd offset) s rd target) ∧
    (¬ InstrAligned s.cfg target → TakesException (.jal rd offset) s .instructionAddressMisaligned target)

/-- R192: `jalr` goes to `x[rs1] + sext(imm)` with bit 0 cleared, `x[rs1]` read before `rd` is written. -/
def Obligations.JumpAndLinkRegisterResult : Prop :=
  EncodedBy 0x0000707f 0x00000067 (fun w => .jalr (fRd w) (fRs1 w) (w.extractLsb' 20 12)) ∧
  ∀ (rd rs1 : Reg) (imm : BitVec 12) (s : State) (target : Word),
    target = BitVec.ofNat 32 ((s.readReg rs1 + BitVec.ofInt 32 imm.toInt).toNat / 2 * 2) →
    (InstrAligned s.cfg target → LinksTo (.jalr rd rs1 imm) s rd target) ∧
    (¬ InstrAligned s.cfg target → TakesException (.jalr rd rs1 imm) s .instructionAddressMisaligned target)

/-! ### Stores and `ebreak` -/

/-- R201, R202, R203: the stores write the low 4, 2 or 1 bytes of `x[rs2]` at `x[rs1] + sext(offset)`, at any alignment; where a byte is
not backed they take `StoreAccessFault` with the effective address and write nothing. -/
def Obligations.StoreResults : Prop :=
  EncodedBy 0x0000707f 0x00002023 (fun w => .sw (fRs2 w) (storeOffset w) (fRs1 w)) ∧
  EncodedBy 0x0000707f 0x00001023 (fun w => .sh (fRs2 w) (storeOffset w) (fRs1 w)) ∧
  EncodedBy 0x0000707f 0x00000023 (fun w => .sb (fRs2 w) (storeOffset w) (fRs1 w)) ∧
  ∀ (rs2 rs1 : Reg) (offset : BitVec 12) (s : State) (a : Word), a = s.readReg rs1 + BitVec.ofInt 32 offset.toInt →
    (BackedSpan s.cfg a 4 → Stores (.sw rs2 offset rs1) s a 4 (s.readReg rs2) 4#32) ∧
    (BackedSpan s.cfg a 2 → Stores (.sh rs2 offset rs1) s a 2 (s.readReg rs2) 4#32) ∧
    (BackedSpan s.cfg a 1 → Stores (.sb rs2 offset rs1) s a 1 (s.readReg rs2) 4#32) ∧
    (¬ BackedSpan s.cfg a 4 → TakesException (.sw rs2 offset rs1) s .storeAccessFault a) ∧
    (¬ BackedSpan s.cfg a 2 → TakesException (.sh rs2 offset rs1) s .storeAccessFault a) ∧
    (¬ BackedSpan s.cfg a 1 → TakesException (.sb rs2 offset rs1) s .storeAccessFault a)

/-- R91, R92, R210, R309: `ebreak` is the one word 0x00100073, every other SYSTEM word is illegal, and it takes `Breakpoint(pc)`, code 3,
always, changing nothing else. -/
def Obligations.EbreakTakesBreakpoint : Prop :=
  Cause.code .breakpoint = 3 ∧
  (∀ (ext : Extensions) (w : Word), fOpcode w = 0b1110011#7 →
    (w = 0x00100073#32 → decodeWord ext w = .ok .ebreak) ∧
    (w ≠ 0x00100073#32 → decodeWord ext w = .error .reservedSystem)) ∧
  ∀ s : State, TakesException .ebreak s .breakpoint s.pc

/-! ### The optional pair instructions -/

/-- R262, R273, R275: `ld`, `c.ldsp` and `c.ld` load 8 bytes into an even pair, low half in the lower register, nothing for the pair 0,
where the bytes are backed and no misaligned trap is chosen. -/
def Obligations.PairLoadResults : Prop :=
  ∀ s : State,
    (∀ (rd rs1 : Reg) (offset : BitVec 12) (a : Word), a = s.readReg rs1 + BitVec.ofInt 32 offset.toInt → rd.toNat % 2 = 0 →
      BackedSpan s.cfg a 8 → zilsdMisalignedTrap s.cfg a = false →
      LoadsPair (.ld rd offset rs1) s rd (wordAt s a) (wordAt s (a + 4#32)) 4#32) ∧
    (∀ (rd : Reg) (offset : BitVec 9) (a : Word), a = s.readReg 2#5 + BitVec.ofNat 32 offset.toNat → rd.toNat % 2 = 0 →
      rd ≠ 0#5 → BackedSpan s.cfg a 8 → zilsdMisalignedTrap s.cfg a = false →
      LoadsPair (.cLdsp rd offset) s rd (wordAt s a) (wordAt s (a + 4#32)) 2#32) ∧
    (∀ (rd rs1 : CReg) (offset : BitVec 8) (a : Word),
      a = s.readReg (BitVec.ofNat 5 (8 + rs1.toNat)) + BitVec.ofNat 32 offset.toNat → rd.toNat % 2 = 0 →
      BackedSpan s.cfg a 8 → zilsdMisalignedTrap s.cfg a = false →
      LoadsPair (.cLd rd offset rs1) s (BitVec.ofNat 5 (8 + rd.toNat)) (wordAt s a) (wordAt s (a + 4#32)) 2#32)

/-- R263, R274, R276: `sd`, `c.sdsp` and `c.sd` store the 8 bytes of an even pair, 64 zero bits for the pair 0, where the bytes are
backed and no misaligned trap is chosen. -/
def Obligations.PairStoreResults : Prop :=
  ∀ s : State,
    (∀ (rs2 rs1 : Reg) (offset : BitVec 12) (a : Word), a = s.readReg rs1 + BitVec.ofInt 32 offset.toInt →
      rs2.toNat % 2 = 0 → BackedSpan s.cfg a 8 → zilsdMisalignedTrap s.cfg a = false →
      Stores (.sd rs2 offset rs1) s a 8 (pairValue s rs2) 4#32) ∧
    (∀ (rs2 : Reg) (offset : BitVec 9) (a : Word), a = s.readReg 2#5 + BitVec.ofNat 32 offset.toNat → rs2.toNat % 2 = 0 →
      BackedSpan s.cfg a 8 → zilsdMisalignedTrap s.cfg a = false →
      Stores (.cSdsp rs2 offset) s a 8 (pairValue s rs2) 2#32) ∧
    (∀ (rs2 rs1 : CReg) (offset : BitVec 8) (a : Word),
      a = s.readReg (BitVec.ofNat 5 (8 + rs1.toNat)) + BitVec.ofNat 32 offset.toNat → rs2.toNat % 2 = 0 →
      BackedSpan s.cfg a 8 → zilsdMisalignedTrap s.cfg a = false →
      Stores (.cSd rs2 offset rs1) s a 8 (pairValue s (BitVec.ofNat 5 (8 + rs2.toNat))) 2#32)

/-- R265, R303: the misaligned trap is never chosen on a multiple of 8, and by default nowhere; where it is chosen `sd` and the forms
that expand to it take `StoreAddressMisaligned`, code 6, with the effective address (R263). That they change nothing else is the
model's reading (log 8) of R263, whose operation raises before it writes, and of R12. -/
def Obligations.PairMisalignedTraps : Prop :=
  Cause.code .loadAddressMisaligned = 4 ∧ Cause.code .storeAddressMisaligned = 6 ∧
  (∀ (c : Config) (a : Word), a.toNat % 8 = 0 → zilsdMisalignedTrap c a = false) ∧
  (∀ a : Word, zilsdMisalignedTrap Config.default a = false) ∧
  ∀ s : State,
    (∀ (rs2 rs1 : Reg) (offset : BitVec 12) (a : Word), a = s.readReg rs1 + BitVec.ofInt 32 offset.toInt →
      rs2.toNat % 2 = 0 → zilsdMisalignedTrap s.cfg a = true →
      TakesException (.sd rs2 offset rs1) s .storeAddressMisaligned a) ∧
    (∀ (rs2 : Reg) (offset : BitVec 9) (a : Word), a = s.readReg 2#5 + BitVec.ofNat 32 offset.toNat → rs2.toNat % 2 = 0 →
      zilsdMisalignedTrap s.cfg a = true → TakesException (.cSdsp rs2 offset) s .storeAddressMisaligned a) ∧
    (∀ (rs2 rs1 : CReg) (offset : BitVec 8) (a : Word),
      a = s.readReg (BitVec.ofNat 5 (8 + rs1.toNat)) + BitVec.ofNat 32 offset.toNat → rs2.toNat % 2 = 0 →
      zilsdMisalignedTrap s.cfg a = true → TakesException (.cSd rs2 offset rs1) s .storeAddressMisaligned a)

/-- R266: the loads of a pair that raise an exception. Which of the two values a register of the pair holds is a free value, and the
statement holds for every draw. That a half with an unbacked byte brings nothing is the model's reading (log 7). -/
def Obligations.FaultingPairLoad : Prop :=
  ∀ s : State,
    (∀ (rd rs1 : Reg) (offset : BitVec 12) (a : Word), a = s.readReg rs1 + BitVec.ofInt 32 offset.toInt → rd.toNat % 2 = 0 →
      (zilsdMisalignedTrap s.cfg a = true ∨ ¬ BackedSpan s.cfg a 8) → PairLoadTraps (.ld rd offset rs1) s rd rs1 a) ∧
    (∀ (rd : Reg) (offset : BitVec 9) (a : Word), a = s.readReg 2#5 + BitVec.ofNat 32 offset.toNat → rd.toNat % 2 = 0 →
      rd ≠ 0#5 → (zilsdMisalignedTrap s.cfg a = true ∨ ¬ BackedSpan s.cfg a 8) →
      PairLoadTraps (.cLdsp rd offset) s rd 2#5 a) ∧
    (∀ (rd rs1 : CReg) (offset : BitVec 8) (a : Word),
      a = s.readReg (BitVec.ofNat 5 (8 + rs1.toNat)) + BitVec.ofNat 32 offset.toNat → rd.toNat % 2 = 0 →
      (zilsdMisalignedTrap s.cfg a = true ∨ ¬ BackedSpan s.cfg a 8) →
      PairLoadTraps (.cLd rd offset rs1) s (BitVec.ofNat 5 (8 + rd.toNat)) (BitVec.ofNat 5 (8 + rs1.toNat)) a)

/-- R268, R307: the stores of a pair that take `StoreAccessFault`. Whether the backed half is written is a free value, and the statement
holds for every draw; `Dirty` is unchanged for each. -/
def Obligations.FaultingPairStore : Prop :=
  ∀ s : State,
    (∀ (rs2 rs1 : Reg) (offset : BitVec 12) (a : Word), a = s.readReg rs1 + BitVec.ofInt 32 offset.toInt →
      rs2.toNat % 2 = 0 → zilsdMisalignedTrap s.cfg a = false → ¬ BackedSpan s.cfg a 8 →
      PairStoreFaults (.sd rs2 offset rs1) s a (pairValue s rs2)) ∧
    (∀ (rs2 : Reg) (offset : BitVec 9) (a : Word), a = s.readReg 2#5 + BitVec.ofNat 32 offset.toNat → rs2.toNat % 2 = 0 →
      zilsdMisalignedTrap s.cfg a = false → ¬ BackedSpan s.cfg a 8 →
      PairStoreFaults (.cSdsp rs2 offset) s a (pairValue s rs2)) ∧
    (∀ (rs2 rs1 : CReg) (offset : BitVec 8) (a : Word),
      a = s.readReg (BitVec.ofNat 5 (8 + rs1.toNat)) + BitVec.ofNat 32 offset.toNat → rs2.toNat % 2 = 0 →
      zilsdMisalignedTrap s.cfg a = false → ¬ BackedSpan s.cfg a 8 →
      PairStoreFaults (.cSd rs2 offset rs1) s a (pairValue s (BitVec.ofNat 5 (8 + rs2.toNat))))

/-- R269, R277: the reserved code points of the pair instructions are no instructions. The clauses on terms, which no bits decode to,
are the model's choice (log 10): such a term takes `IllegalInstruction` with the bits of its own fields, never a load or a store. -/
def Obligations.ReservedPairsAreIllegal : Prop :=
  (∀ (ext : Extensions) (w : Word), ext.zilsd = true → fFunct3 w = 0b011#3 →
    (fOpcode w = 0b0000011#7 → w.getLsbD 7 = true → decodeWord ext w = .error .oddPair) ∧
    (fOpcode w = 0b0100011#7 → w.getLsbD 20 = true → decodeWord ext w = .error .oddPair)) ∧
  (∀ h : Half,
    (h.extractLsb' 13 3 = 0b011#3 → h.extractLsb' 0 2 = 0b10#2 →
      (h.extractLsb' 7 5 = 0#5 → decodeParcel h = .error .zeroDestination) ∧
      (h.getLsbD 7 = true → decodeParcel h = .error .oddPair)) ∧
    (h.extractLsb' 13 3 = 0b111#3 ∧ h.extractLsb' 0 2 = 0b10#2 ∨ h.extractLsb' 13 3 = 0b011#3 ∧ h.extractLsb' 0 2 = 0b00#2 ∨
      h.extractLsb' 13 3 = 0b111#3 ∧ h.extractLsb' 0 2 = 0b00#2 → h.getLsbD 2 = true → decodeParcel h = .error .oddPair)) ∧
  (∀ (s : State) (r rs1 : Reg) (offset : BitVec 12), r.toNat % 2 = 1 →
    TakesException (.ld r offset rs1) s .illegalInstruction (encodeRaw (.ld r offset rs1)).toWord ∧
    TakesException (.sd r offset rs1) s .illegalInstruction (encodeRaw (.sd r offset rs1)).toWord) ∧
  (∀ (s : State) (r : Reg) (offset : BitVec 9),
    (r.toNat % 2 = 1 ∨ r = 0#5 → TakesException (.cLdsp r offset) s .illegalInstruction (encodeRaw (.cLdsp r offset)).toWord) ∧
    (r.toNat % 2 = 1 → TakesException (.cSdsp r offset) s .illegalInstruction (encodeRaw (.cSdsp r offset)).toWord)) ∧
  (∀ (s : State) (r rs1 : CReg) (offset : BitVec 8), r.toNat % 2 = 1 →
    TakesException (.cLd r offset rs1) s .illegalInstruction (encodeRaw (.cLd r offset rs1)).toWord ∧
    TakesException (.cSd r offset rs1) s .illegalInstruction (encodeRaw (.cSd r offset rs1)).toWord)

/-! ### The assembler -/

/-- R222, R95: the base instructions' immediates are accepted exactly in their ranges, and refused as illegal operands outside: the 12-bit
ones of the I format (`jalr` in both its spellings, and the loads) and of the S format, shift amounts, the 20-bit ones of the U
format, and the even distances of branches and `jal` (R14), here written `.+v`, for every `v` of 32 bits (beyond them: log 17). -/
def Obligations.AssemblerChecksRanges : Prop :=
  ∀ (ext : Extensions) (syms : Symbols) (here : Word) (r₁ r₂ : Reg) (v : Int),
    let asm := fun m operands => assembleLine ext syms here ⟨m, operands⟩
    (∀ p ∈ twoRegisterImmediate,
      Accepts (asm p.1 [.reg r₁, .reg r₂, .num v]) (-2048 ≤ v ∧ v ≤ 2047) (p.2 r₁ r₂ (BitVec.ofInt 12 v))) ∧
    Accepts (asm "jalr" [.reg r₁, .mem v r₂]) (-2048 ≤ v ∧ v ≤ 2047) (.jalr r₁ r₂ (BitVec.ofInt 12 v)) ∧
    (∀ p ∈ loadKinds,
      Accepts (asm p.1 [.reg r₁, .mem v r₂]) (-2048 ≤ v ∧ v ≤ 2047) (p.2.instr r₁ (BitVec.ofInt 12 v) r₂)) ∧
    (∀ p ∈ storeKinds,
      Accepts (asm p.1 [.reg r₁, .mem v r₂]) (-2048 ≤ v ∧ v ≤ 2047) (p.2.instr r₁ (BitVec.ofInt 12 v) r₂)) ∧
    (∀ p ∈ shiftImmediate,
      Accepts (asm p.1 [.reg r₁, .reg r₂, .num v]) (0 ≤ v ∧ v ≤ 31) (p.2 r₁ r₂ (BitVec.ofInt 5 v))) ∧
    (∀ p ∈ upperImmediate, Accepts (asm p.1 [.reg r₁, .num v]) (0 ≤ v ∧ v ≤ 0xfffff) (p.2 r₁ (BitVec.ofInt 20 v))) ∧
    (-2 ^ 31 ≤ v ∧ v < 2 ^ 31 →
      (∀ p ∈ branches, Accepts (asm p.1 [.reg r₁, .reg r₂, .here v]) (-4096 ≤ v ∧ v ≤ 4094 ∧ v % 2 = 0)
        (p.2 r₁ r₂ (BitVec.ofInt 13 v))) ∧
      Accepts (asm "jal" [.reg r₁, .here v]) (-1048576 ≤ v ∧ v ≤ 1048574 ∧ v % 2 = 0) (.jal r₁ (BitVec.ofInt 21 v)))

/-- R226: the two halves of a distance `d`: `lo` is the sign-extended low 12 bits, `hi` is `(d + 0x800) >> 12`, and
`A + (hi << 12) + lo = var_x` where `d = var_x - A`. -/
def Obligations.LabelHalvesReachLabel : Prop :=
  ∀ A x d : Word, d = x - A →
    (loPart d).toNat = d.toNat % 4096 ∧ (hiPart d).toNat = (d.toNat + 0x800) % 2 ^ 32 / 2 ^ 12 ∧
    A + BitVec.ofNat 32 ((hiPart d).toNat * 2 ^ 12) + BitVec.ofInt 32 (loPart d).toInt = x

/-- R228, R229: executing the expansion of `la` at the address it was made for leaves the label's address in `rd`, and that of `li` its
constant, and x0 stays 0 where it is `rd`; the pc stands after the expansion and nothing else changes. -/
def Obligations.LoadAddressAndConstant : Prop :=
  ∀ (s : State) (rd : Reg) (x : Word) (is : List Instr), s.trap = none →
    ((Pseudo.la rd x).expand s.pc = some is ∨ (Pseudo.li rd x).expand s.pc = some is) →
    ∃ t, execAll is s = .next t ∧ SetsReg s t rd x ∧ t.pc = s.pc + BitVec.ofNat 32 (4 * is.length) ∧ SameMemory s t ∧
      SameRest s t

/-- R230: what the arithmetic and set pseudo-instructions compute. -/
def Obligations.SetPseudoResults : Prop :=
  ∀ (s : State) (rd rs : Reg), s.trap = none →
    ∀ pv ∈ [(Pseudo.neg rd rs, BitVec.ofInt 32 (-(s.readReg rs).toInt)),
      (Pseudo.not rd rs, BitVec.ofNat 32 (2 ^ 32 - 1 - (s.readReg rs).toNat)),
      (Pseudo.seqz rd rs, if s.readReg rs = 0#32 then 1#32 else 0#32),
      (Pseudo.snez rd rs, if s.readReg rs ≠ 0#32 then 1#32 else 0#32),
      (Pseudo.sltz rd rs, if (s.readReg rs).toInt < 0 then 1#32 else 0#32),
      (Pseudo.sgtz rd rs, if (s.readReg rs).toInt > 0 then 1#32 else 0#32)],
    ∃ is t, pv.1.expand s.pc = some is ∧ execAll is s = .next t ∧ SetsReg s t rd pv.2 ∧ t.pc = s.pc + 4#32 ∧
      SameMemory s t ∧ SameRest s t

/-- R252: MAIN's 64-bit addition. Afterwards `{a5, a4} = ({a1, a0} + {a3, a2}) mod 2^64` and `t1` is the carry out of the low words;
every other register is unchanged. -/
def Obligations.SixtyFourBitAddition : Prop :=
  ∀ s : State, s.trap = none →
    ∃ t, execAll add64Idiom s = .next t ∧ t.pc = s.pc + 16#32 ∧ SameMemory s t ∧ SameRest s t ∧
      t.readReg 15 ++ t.readReg 14 = (s.readReg 11 ++ s.readReg 10) + (s.readReg 13 ++ s.readReg 12) ∧
      t.readReg 6 = (if (s.readReg 10).toNat + (s.readReg 12).toNat ≥ 2 ^ 32 then 1#32 else 0#32) ∧
      ∀ r, r ∉ ([6, 14, 15] : List Reg) → t.readReg r = s.readReg r

/-- R250, R251: with the sum in `t0`, after the carry sequence `t3` is 1 exactly when the unsigned sum of `t1` and `t2` does not fit, and
after the signed sequence `t3` and `t4` differ exactly when the signed sum does not fit. -/
def Obligations.OverflowSequences : Prop :=
  ∀ s : State, s.trap = none →
    (∃ t, execAll (carryIdiom 5 6 7 28) s = .next t ∧ t.readReg 5 = s.readReg 6 + s.readReg 7 ∧
      (t.readReg 28 = if (s.readReg 6).toNat + (s.readReg 7).toNat ≥ 2 ^ 32 then 1#32 else 0#32) ∧
      (∀ r, r ∉ ([5, 28] : List Reg) → t.readReg r = s.readReg r) ∧ t.pc = s.pc + 8#32 ∧ SameMemory s t ∧ SameRest s t) ∧
    ∃ t, execAll (signedOverflowIdiom 5 6 7 28 29) s = .next t ∧ t.readReg 5 = s.readReg 6 + s.readReg 7 ∧
      (t.readReg 28 ≠ t.readReg 29 ↔ ((s.readReg 6).toInt + (s.readReg 7).toInt < -2 ^ 31 ∨
        (s.readReg 6).toInt + (s.readReg 7).toInt ≥ 2 ^ 31)) ∧
      (∀ r, r ∉ ([5, 28, 29] : List Reg) → t.readReg r = s.readReg r) ∧ t.pc = s.pc + 12#32 ∧ SameMemory s t ∧ SameRest s t
end

