-- ==== Sys2Proof/Laws/Encoding.lean ====
section
/-! SUPPORT. The fields of an encoded word, one lemma per field and format, and the word put together again from its fields:
what a proof about decoding or encoding cites instead of unfolding a layout. -/

namespace Sys2Proof

/-- A field that lies in the upper part of a concatenation. -/
theorem extract_high {w v : Nat} (x : BitVec w) (y : BitVec v) (s l : Nat) (h : v ≤ s) :
    (x ++ y).extractLsb' s l = x.extractLsb' (s - v) l := BitVec.extractLsb'_append_eq_of_le h

/-- A field that lies in the lower part of a concatenation. -/
theorem extract_low {w v : Nat} (x : BitVec w) (y : BitVec v) (s l : Nat) (h : s + l ≤ v) :
    (x ++ y).extractLsb' s l = y.extractLsb' s l := BitVec.extractLsb'_append_eq_of_add_le h

/-- A field of a field. -/
theorem extract_extract {w : Nat} (x : BitVec w) (s l s' l' : Nat) (h : s' + l' ≤ l) :
    (x.extractLsb' s l).extractLsb' s' l' = x.extractLsb' (s + s') l' := by
  apply BitVec.eq_of_getLsbD_eq
  intro i hi
  simp only [BitVec.getLsbD_extractLsb', hi, decide_true, Bool.true_and, show s' + i < l by omega, Nat.add_assoc]

/-- The field of a word under a mask that covers it is the pattern's field. -/
theorem field_of_mask {w mask pat : Word} (s l : Nat) (h : w &&& mask = pat)
    (hm : mask.extractLsb' s l = BitVec.allOnes l) : w.extractLsb' s l = pat.extractLsb' s l := by
  subst h
  apply BitVec.eq_of_getLsbD_eq
  intro i hi
  have := congrArg (fun v => v.getLsbD i) hm
  simp only [BitVec.getLsbD_extractLsb', BitVec.getLsbD_allOnes, hi, decide_true, Bool.true_and] at this
  simp [hi, this]

section
variable (f7 op : BitVec 7) (rd rs1 rs2 : Reg) (f3 : BitVec 3) (i12 : BitVec 12) (i20 : BitVec 20) (i13 : BitVec 13)
  (i21 : BitVec 21) (w : Word)

/-! ### R format -/

theorem rWord_opcode : fOpcode (rWord f7 rs2 rs1 f3 rd op) = op := by
  unfold rWord fOpcode
  rw [extract_low _ _ _ _ (by decide)]
  exact BitVec.extractLsb'_eq_self

theorem rWord_rd : fRd (rWord f7 rs2 rs1 f3 rd op) = rd := by
  unfold rWord fRd
  repeat (first | rw [extract_low _ _ _ _ (by decide)] | rw [extract_high _ _ _ _ (by decide)])
  exact BitVec.extractLsb'_eq_self

theorem rWord_funct3 : fFunct3 (rWord f7 rs2 rs1 f3 rd op) = f3 := by
  unfold rWord fFunct3
  repeat (first | rw [extract_low _ _ _ _ (by decide)] | rw [extract_high _ _ _ _ (by decide)])
  exact BitVec.extractLsb'_eq_self

theorem rWord_rs1 : fRs1 (rWord f7 rs2 rs1 f3 rd op) = rs1 := by
  unfold rWord fRs1
  repeat (first | rw [extract_low _ _ _ _ (by decide)] | rw [extract_high _ _ _ _ (by decide)])
  exact BitVec.extractLsb'_eq_self

theorem rWord_rs2 : fRs2 (rWord f7 rs2 rs1 f3 rd op) = rs2 := by
  unfold rWord fRs2
  repeat (first | rw [extract_low _ _ _ _ (by decide)] | rw [extract_high _ _ _ _ (by decide)])
  exact BitVec.extractLsb'_eq_self

theorem rWord_funct7 : fFunct7 (rWord f7 rs2 rs1 f3 rd op) = f7 := by
  unfold rWord fFunct7
  repeat (first | rw [extract_low _ _ _ _ (by decide)] | rw [extract_high _ _ _ _ (by decide)])
  exact BitVec.extractLsb'_eq_self

/-! ### I format -/

theorem iWord_opcode : fOpcode (iWord i12 rs1 f3 rd op) = op := by
  unfold iWord fOpcode
  rw [extract_low _ _ _ _ (by decide)]
  exact BitVec.extractLsb'_eq_self

theorem iWord_rd : fRd (iWord i12 rs1 f3 rd op) = rd := by
  unfold iWord fRd
  repeat (first | rw [extract_low _ _ _ _ (by decide)] | rw [extract_high _ _ _ _ (by decide)])
  exact BitVec.extractLsb'_eq_self

theorem iWord_funct3 : fFunct3 (iWord i12 rs1 f3 rd op) = f3 := by
  unfold iWord fFunct3
  repeat (first | rw [extract_low _ _ _ _ (by decide)] | rw [extract_high _ _ _ _ (by decide)])
  exact BitVec.extractLsb'_eq_self

theorem iWord_rs1 : fRs1 (iWord i12 rs1 f3 rd op) = rs1 := by
  unfold iWord fRs1
  repeat (first | rw [extract_low _ _ _ _ (by decide)] | rw [extract_high _ _ _ _ (by decide)])
  exact BitVec.extractLsb'_eq_self

theorem iWord_imm : immI (iWord i12 rs1 f3 rd op) = i12 := by
  unfold iWord immI
  repeat (first | rw [extract_low _ _ _ _ (by decide)] | rw [extract_high _ _ _ _ (by decide)])
  exact BitVec.extractLsb'_eq_self

/-! ### S format -/

theorem sWord_opcode : fOpcode (sWord i12 rs2 rs1 f3 op) = op := by
  unfold sWord fOpcode
  rw [extract_low _ _ _ _ (by decide)]
  exact BitVec.extractLsb'_eq_self

theorem sWord_funct3 : fFunct3 (sWord i12 rs2 rs1 f3 op) = f3 := by
  unfold sWord fFunct3
  repeat (first | rw [extract_low _ _ _ _ (by decide)] | rw [extract_high _ _ _ _ (by decide)])
  exact BitVec.extractLsb'_eq_self

theorem sWord_rs1 : fRs1 (sWord i12 rs2 rs1 f3 op) = rs1 := by
  unfold sWord fRs1
  repeat (first | rw [extract_low _ _ _ _ (by decide)] | rw [extract_high _ _ _ _ (by decide)])
  exact BitVec.extractLsb'_eq_self

theorem sWord_rs2 : fRs2 (sWord i12 rs2 rs1 f3 op) = rs2 := by
  unfold sWord fRs2
  repeat (first | rw [extract_low _ _ _ _ (by decide)] | rw [extract_high _ _ _ _ (by decide)])
  exact BitVec.extractLsb'_eq_self

/-! ### B format -/

theorem bWord_opcode : fOpcode (bWord i13 rs2 rs1 f3 op) = op := by
  unfold bWord fOpcode
  rw [extract_low _ _ _ _ (by decide)]
  exact BitVec.extractLsb'_eq_self

theorem bWord_funct3 : fFunct3 (bWord i13 rs2 rs1 f3 op) = f3 := by
  unfold bWord fFunct3
  repeat (first | rw [extract_low _ _ _ _ (by decide)] | rw [extract_high _ _ _ _ (by decide)])
  exact BitVec.extractLsb'_eq_self

theorem bWord_rs1 : fRs1 (bWord i13 rs2 rs1 f3 op) = rs1 := by
  unfold bWord fRs1
  repeat (first | rw [extract_low _ _ _ _ (by decide)] | rw [extract_high _ _ _ _ (by decide)])
  exact BitVec.extractLsb'_eq_self

theorem bWord_rs2 : fRs2 (bWord i13 rs2 rs1 f3 op) = rs2 := by
  unfold bWord fRs2
  repeat (first | rw [extract_low _ _ _ _ (by decide)] | rw [extract_high _ _ _ _ (by decide)])
  exact BitVec.extractLsb'_eq_self

/-! ### U format -/

theorem uWord_opcode : fOpcode (uWord i20 rd op) = op := by
  unfold uWord fOpcode
  rw [extract_low _ _ _ _ (by decide)]
  exact BitVec.extractLsb'_eq_self

theorem uWord_rd : fRd (uWord i20 rd op) = rd := by
  unfold uWord fRd
  repeat (first | rw [extract_low _ _ _ _ (by decide)] | rw [extract_high _ _ _ _ (by decide)])
  exact BitVec.extractLsb'_eq_self

theorem uWord_imm : immU (uWord i20 rd op) = i20 := by
  unfold uWord immU
  repeat (first | rw [extract_low _ _ _ _ (by decide)] | rw [extract_high _ _ _ _ (by decide)])
  exact BitVec.extractLsb'_eq_self

/-! ### J format -/

theorem jWord_opcode : fOpcode (jWord i21 rd op) = op := by
  unfold jWord fOpcode
  rw [extract_low _ _ _ _ (by decide)]
  exact BitVec.extractLsb'_eq_self

theorem jWord_rd : fRd (jWord i21 rd op) = rd := by
  unfold jWord fRd
  repeat (first | rw [extract_low _ _ _ _ (by decide)] | rw [extract_high _ _ _ _ (by decide)])
  exact BitVec.extractLsb'_eq_self

/-! ### Immediates put together from scattered fields -/

theorem sWord_imm : immS (sWord i12 rs2 rs1 f3 op) = i12 := by
  unfold sWord immS
  repeat (first | rw [extract_low _ _ _ _ (by decide)] | rw [extract_high _ _ _ _ (by decide)])
  repeat rw [BitVec.extractLsb'_eq_self]
  repeat rw [BitVec.extractLsb'_append_extractLsb'_eq_extractLsb' (by decide)]
  exact BitVec.extractLsb'_eq_self

/-- An even value is its upper bits and a zero. -/
theorem even_append {k : Nat} (v : BitVec (k + 1)) (h : evenOffset v = true) : v.extractLsb' 1 k ++ 0#1 = v := by
  apply BitVec.eq_of_getLsbD_eq
  intro i hi
  rw [BitVec.getLsbD_append]
  cases i with
  | zero => simpa using h
  | succ i =>
    rw [if_neg (by omega), BitVec.getLsbD_extractLsb']
    simp only [show i + 1 - 1 < k by omega, decide_true, Bool.true_and]
    congr 1; omega

theorem bWord_imm (h : evenOffset i13 = true) : immB (bWord i13 rs2 rs1 f3 op) = i13 := by
  unfold bWord immB
  repeat (first | rw [extract_low _ _ _ _ (by decide)] | rw [extract_high _ _ _ _ (by decide)])
  repeat rw [BitVec.extractLsb'_eq_self]
  repeat rw [BitVec.extractLsb'_append_extractLsb'_eq_extractLsb' (by decide)]
  exact even_append (k := 12) i13 h

theorem jWord_imm (h : evenOffset i21 = true) : immJ (jWord i21 rd op) = i21 := by
  unfold jWord immJ
  repeat (first | rw [extract_low _ _ _ _ (by decide)] | rw [extract_high _ _ _ _ (by decide)])
  repeat rw [BitVec.extractLsb'_eq_self]
  repeat rw [BitVec.extractLsb'_append_extractLsb'_eq_extractLsb' (by decide)]
  exact even_append (k := 20) i21 h

/-! ### A word is its fields -/

theorem rWord_eq : rWord (fFunct7 w) (fRs2 w) (fRs1 w) (fFunct3 w) (fRd w) (fOpcode w) = w := by
  unfold rWord
  repeat rw [BitVec.extractLsb'_append_extractLsb'_eq_extractLsb' (by decide)]
  exact BitVec.extractLsb'_eq_self

theorem iWord_eq : iWord (immI w) (fRs1 w) (fFunct3 w) (fRd w) (fOpcode w) = w := by
  unfold iWord immI
  repeat rw [BitVec.extractLsb'_append_extractLsb'_eq_extractLsb' (by decide)]
  exact BitVec.extractLsb'_eq_self

theorem uWord_eq : uWord (immU w) (fRd w) (fOpcode w) = w := by
  unfold uWord immU
  repeat rw [BitVec.extractLsb'_append_extractLsb'_eq_extractLsb' (by decide)]
  exact BitVec.extractLsb'_eq_self

theorem sWord_eq : sWord (immS w) (fRs2 w) (fRs1 w) (fFunct3 w) (fOpcode w) = w := by
  unfold sWord immS
  repeat (first | rw [extract_low _ _ _ _ (by decide)] | rw [extract_high _ _ _ _ (by decide)])
  repeat rw [BitVec.extractLsb'_eq_self]
  repeat rw [BitVec.extractLsb'_append_extractLsb'_eq_extractLsb' (by decide)]
  exact BitVec.extractLsb'_eq_self

theorem bWord_eq : bWord (immB w) (fRs2 w) (fRs1 w) (fFunct3 w) (fOpcode w) = w := by
  unfold bWord immB
  repeat (first | rw [extract_low _ _ _ _ (by decide)] | rw [extract_high _ _ _ _ (by decide)])
  repeat rw [BitVec.extractLsb'_eq_self]
  repeat rw [BitVec.extractLsb'_append_extractLsb'_eq_extractLsb' (by decide)]
  exact BitVec.extractLsb'_eq_self

theorem jWord_eq : jWord (immJ w) (fRd w) (fOpcode w) = w := by
  unfold jWord immJ
  repeat (first | rw [extract_low _ _ _ _ (by decide)] | rw [extract_high _ _ _ _ (by decide)])
  repeat rw [BitVec.extractLsb'_eq_self]
  repeat rw [BitVec.extractLsb'_append_extractLsb'_eq_extractLsb' (by decide)]
  exact BitVec.extractLsb'_eq_self

end

/-! ### The 16-bit forms -/

section
variable (o9 : BitVec 9) (o8 : BitVec 8) (r : Reg) (k rs1 : CReg) (f3 : BitVec 3) (h : Half)

/-- A multiple of 8 is its upper bits and three zeros. -/
theorem mul8_append {k : Nat} (v : BitVec (k + 3)) (h : multipleOf8 v = true) : v.extractLsb' 3 k ++ 0#3 = v := by
  have h8 : v.toNat % 8 = 0 := by simpa using h
  have hlo : v.extractLsb' 0 3 = 0#3 := by
    apply BitVec.eq_of_toNat_eq
    simpa using h8
  rw [← hlo, BitVec.extractLsb'_append_extractLsb'_eq_extractLsb' (by omega)]
  exact BitVec.extractLsb'_eq_self

theorem cLdspHalf_funct3 : (cLdspHalf o9 r).extractLsb' 13 3 = 0b011#3 := by
  unfold cLdspHalf
  repeat (first | rw [extract_low _ _ _ _ (by decide)] | rw [extract_high _ _ _ _ (by decide)])
  exact BitVec.extractLsb'_eq_self

theorem cLdspHalf_quadrant : (cLdspHalf o9 r).extractLsb' 0 2 = 0b10#2 := by
  unfold cLdspHalf
  rw [extract_low _ _ _ _ (by decide)]
  rfl

theorem cLdspHalf_rd : (cLdspHalf o9 r).extractLsb' 7 5 = r := by
  unfold cLdspHalf
  repeat (first | rw [extract_low _ _ _ _ (by decide)] | rw [extract_high _ _ _ _ (by decide)])
  exact BitVec.extractLsb'_eq_self

theorem cSdspHalf_funct3 : (cSdspHalf o9 r).extractLsb' 13 3 = 0b111#3 := by
  unfold cSdspHalf
  repeat (first | rw [extract_low _ _ _ _ (by decide)] | rw [extract_high _ _ _ _ (by decide)])
  exact BitVec.extractLsb'_eq_self

theorem cSdspHalf_quadrant : (cSdspHalf o9 r).extractLsb' 0 2 = 0b10#2 := by
  unfold cSdspHalf
  rw [extract_low _ _ _ _ (by decide)]
  rfl

theorem cSdspHalf_rs2 : (cSdspHalf o9 r).extractLsb' 2 5 = r := by
  unfold cSdspHalf
  repeat (first | rw [extract_low _ _ _ _ (by decide)] | rw [extract_high _ _ _ _ (by decide)])
  exact BitVec.extractLsb'_eq_self

theorem cPairHalf_funct3 : (cPairHalf f3 o8 rs1 k).extractLsb' 13 3 = f3 := by
  unfold cPairHalf
  repeat (first | rw [extract_low _ _ _ _ (by decide)] | rw [extract_high _ _ _ _ (by decide)])
  exact BitVec.extractLsb'_eq_self

theorem cPairHalf_quadrant : (cPairHalf f3 o8 rs1 k).extractLsb' 0 2 = 0b00#2 := by
  unfold cPairHalf
  rw [extract_low _ _ _ _ (by decide)]
  rfl

theorem cPairHalf_rs1 : (cPairHalf f3 o8 rs1 k).extractLsb' 7 3 = rs1 := by
  unfold cPairHalf
  repeat (first | rw [extract_low _ _ _ _ (by decide)] | rw [extract_high _ _ _ _ (by decide)])
  exact BitVec.extractLsb'_eq_self

theorem cPairHalf_r : (cPairHalf f3 o8 rs1 k).extractLsb' 2 3 = k := by
  unfold cPairHalf
  repeat (first | rw [extract_low _ _ _ _ (by decide)] | rw [extract_high _ _ _ _ (by decide)])
  exact BitVec.extractLsb'_eq_self

theorem cLdspHalf_imm (hm : multipleOf8 o9 = true) : immCLdsp (cLdspHalf o9 r) = o9 := by
  unfold cLdspHalf immCLdsp
  repeat (first | rw [extract_low _ _ _ _ (by decide)] | rw [extract_high _ _ _ _ (by decide)])
  repeat rw [BitVec.extractLsb'_eq_self]
  repeat rw [BitVec.extractLsb'_append_extractLsb'_eq_extractLsb' (by decide)]
  exact mul8_append (k := 6) o9 hm

theorem cSdspHalf_imm (hm : multipleOf8 o9 = true) : immCSdsp (cSdspHalf o9 r) = o9 := by
  unfold cSdspHalf immCSdsp
  repeat (first | rw [extract_low _ _ _ _ (by decide)] | rw [extract_high _ _ _ _ (by decide)])
  repeat rw [BitVec.extractLsb'_eq_self]
  repeat rw [BitVec.extractLsb'_append_extractLsb'_eq_extractLsb' (by decide)]
  exact mul8_append (k := 6) o9 hm

theorem cPairHalf_imm (hm : multipleOf8 o8 = true) : immCPair (cPairHalf f3 o8 rs1 k) = o8 := by
  unfold cPairHalf immCPair
  repeat (first | rw [extract_low _ _ _ _ (by decide)] | rw [extract_high _ _ _ _ (by decide)])
  repeat rw [BitVec.extractLsb'_eq_self]
  repeat rw [BitVec.extractLsb'_append_extractLsb'_eq_extractLsb' (by decide)]
  exact mul8_append (k := 5) o8 hm

theorem cLdspHalf_eq (h3 : h.extractLsb' 13 3 = 0b011#3) (h2 : h.extractLsb' 0 2 = 0b10#2) :
    cLdspHalf (immCLdsp h) (h.extractLsb' 7 5) = h := by
  unfold cLdspHalf immCLdsp
  repeat (first | rw [extract_low _ _ _ _ (by decide)] | rw [extract_high _ _ _ _ (by decide)])
  repeat rw [BitVec.extractLsb'_eq_self]
  rw [← h3, ← h2]
  repeat rw [BitVec.extractLsb'_append_extractLsb'_eq_extractLsb' (by decide)]
  exact BitVec.extractLsb'_eq_self

theorem cSdspHalf_eq (h3 : h.extractLsb' 13 3 = 0b111#3) (h2 : h.extractLsb' 0 2 = 0b10#2) :
    cSdspHalf (immCSdsp h) (h.extractLsb' 2 5) = h := by
  unfold cSdspHalf immCSdsp
  repeat (first | rw [extract_low _ _ _ _ (by decide)] | rw [extract_high _ _ _ _ (by decide)])
  repeat rw [BitVec.extractLsb'_eq_self]
  rw [← h3, ← h2]
  repeat rw [BitVec.extractLsb'_append_extractLsb'_eq_extractLsb' (by decide)]
  exact BitVec.extractLsb'_eq_self

theorem cPairHalf_eq (h2 : h.extractLsb' 0 2 = 0b00#2) :
    cPairHalf (h.extractLsb' 13 3) (immCPair h) (h.extractLsb' 7 3) (h.extractLsb' 2 3) = h := by
  unfold cPairHalf immCPair
  repeat (first | rw [extract_low _ _ _ _ (by decide)] | rw [extract_high _ _ _ _ (by decide)])
  repeat rw [BitVec.extractLsb'_eq_self]
  rw [← h2]
  repeat rw [BitVec.extractLsb'_append_extractLsb'_eq_extractLsb' (by decide)]
  exact BitVec.extractLsb'_eq_self

theorem multipleOf8_append {n : Nat} (x : BitVec n) : multipleOf8 (x ++ 0#3) = true := by
  have e : (x ++ 0#3).toNat = x.toNat * 8 := by
    rw [BitVec.toNat_append, Nat.shiftLeft_eq]; simp
  simp [e]

theorem evenOffset_append {n : Nat} (x : BitVec n) : evenOffset (x ++ 0#1) = true := by
  unfold evenOffset
  rw [BitVec.getLsbD_append]
  simp

end

end Sys2Proof
end

