-- ==== Sys2Proof/Laws/Memory.lean ====
section
/-! SUPPORT. Memory and address sets: a read after a write, and that every operation keeps the canonical forms. -/

namespace Sys2Proof.Machine

/-! ### One byte -/

theorem Memory.lookup_write (m : Memory) (a x : Nat) (b : Byte) :
    Memory.lookup (Memory.write m a b) x = if x = a then some b else Memory.lookup m x := by
  induction m with
  | nil => simp [Memory.write, Memory.lookup, eq_comm]
  | cons c m ih =>
    obtain ⟨k, v⟩ := c
    simp only [Memory.write]
    split
    · simp only [Memory.lookup]
    · split
      · subst_vars; simp only [Memory.lookup]; split <;> rfl
      · simp only [Memory.lookup, ih]
        split
        · subst_vars; rw [if_neg (by omega)]
        · rfl

theorem Memory.mem_write (m : Memory) (a : Nat) (b : Byte) (c : Host.Cell) (h : c ∈ Memory.write m a b) :
    c = (a, b) ∨ c ∈ m := by
  induction m with
  | nil => simpa [Memory.write] using h
  | cons d m ih =>
    obtain ⟨k, v⟩ := d
    simp only [Memory.write] at h
    split at h
    · simpa using h
    · split at h
      · simp only [List.mem_cons] at h ⊢; tauto
      · simp only [List.mem_cons] at h ⊢; tauto

/-- A write keeps memory's canonical form. -/
theorem Memory.write_wf (m : Memory) (a : Nat) (b : Byte) (h : Memory.wf m) (ha : a < 2 ^ 32) :
    Memory.wf (Memory.write m a b) := by
  refine ⟨?_, fun c hc => (Memory.mem_write m a b c hc).elim (fun e => e ▸ ha) (h.2 c)⟩
  obtain ⟨hs, -⟩ := h
  induction m with
  | nil => simp [Memory.write]
  | cons d m ih =>
    obtain ⟨k, v⟩ := d
    obtain ⟨hk, hm⟩ := List.pairwise_cons.1 hs
    simp only [Memory.write]
    split
    · refine List.pairwise_cons.2 ⟨fun c hc => ?_, hs⟩
      rcases List.mem_cons.1 hc with rfl | hc
      · assumption
      · exact Nat.lt_trans ‹a < k› (hk c hc)
    · split
      · subst_vars; exact List.pairwise_cons.2 ⟨hk, hm⟩
      · refine List.pairwise_cons.2 ⟨fun c hc => ?_, ih hm⟩
        rcases Memory.mem_write m a b c hc with rfl | hc
        · simp only; omega
        · exact hk c hc

theorem AddrSet.mem_insert (d : AddrSet) (a x : Nat) : x ∈ AddrSet.insert d a ↔ x = a ∨ x ∈ d := by
  induction d with
  | nil => simp [AddrSet.insert]
  | cons k d ih =>
    simp only [AddrSet.insert]
    split
    · simp
    · split
      · subst_vars; simp
      · simp only [List.mem_cons, ih]; tauto

/-- An insertion keeps an address set's canonical form. -/
theorem AddrSet.insert_wf (d : AddrSet) (a : Nat) (h : AddrSet.wf d) (ha : a < 2 ^ 32) :
    AddrSet.wf (AddrSet.insert d a) := by
  refine ⟨?_, fun x hx => ((AddrSet.mem_insert d a x).1 hx).elim (fun e => e ▸ ha) (h.2 x)⟩
  obtain ⟨hs, -⟩ := h
  induction d with
  | nil => simp [AddrSet.insert]
  | cons k d ih =>
    obtain ⟨hk, hd⟩ := List.pairwise_cons.1 hs
    simp only [AddrSet.insert]
    split
    · refine List.pairwise_cons.2 ⟨fun x hx => ?_, hs⟩
      rcases List.mem_cons.1 hx with rfl | hx
      · assumption
      · exact Nat.lt_trans ‹a < k› (hk x hx)
    · split
      · exact List.pairwise_cons.2 ⟨hk, hd⟩
      · refine List.pairwise_cons.2 ⟨fun x hx => ?_, ih hd⟩
        rcases (AddrSet.mem_insert d a x).1 hx with rfl | hx
        · omega
        · exact hk x hx

/-! ### Several bytes -/

theorem mem_byteAddrs (a x : Word) (n : Nat) : x ∈ byteAddrs a n ↔ ∃ k, k < n ∧ x = a + BitVec.ofNat 32 k := by
  induction n generalizing a with
  | zero => simp [byteAddrs]
  | succ n ih =>
    simp only [byteAddrs, List.mem_cons, ih]
    constructor
    · rintro (rfl | ⟨k, hk, rfl⟩)
      · exact ⟨0, by omega, by simp⟩
      · exact ⟨k + 1, by omega, by rw [BitVec.add_assoc]; congr 1; simp [BitVec.ofNat_add, BitVec.add_comm]⟩
    · rintro ⟨k, hk, rfl⟩
      cases k with
      | zero => left; simp
      | succ k => right; exact ⟨k, by omega, by rw [BitVec.add_assoc]; congr 1; simp [BitVec.ofNat_add, BitVec.add_comm]⟩

theorem allBacked_iff (c : Config) (a : Word) (n : Nat) :
    allBacked c a n = true ↔ ∀ k, k < n → isBacked c (a + BitVec.ofNat 32 k) = true := by
  simp only [allBacked, List.all_eq_true, mem_byteAddrs]
  exact ⟨fun h k hk => h _ ⟨k, hk, rfl⟩, fun h x ⟨k, hk, e⟩ => e ▸ h k hk⟩

/-- A store of bytes keeps memory's canonical form. -/
theorem storeBytes_wf {w : Nat} (m : Memory) (a : Word) (n : Nat) (v : BitVec w) (h : Memory.wf m) :
    Memory.wf (storeBytes m a n v) := by
  induction n generalizing m a v with
  | zero => exact h
  | succ n ih => exact ih _ _ _ (Memory.write_wf m _ _ h a.isLt)

theorem markBytes_wf (d : AddrSet) (a : Word) (n : Nat) (h : AddrSet.wf d) : AddrSet.wf (markBytes d a n) := by
  induction n generalizing d a with
  | zero => exact h
  | succ n ih => exact ih _ _ (AddrSet.insert_wf d _ h a.isLt)

theorem mem_markBytes (d : AddrSet) (a : Word) (n x : Nat) :
    x ∈ markBytes d a n ↔ x ∈ d ∨ ∃ k, k < n ∧ x = (a.toNat + k) % 2 ^ 32 := by
  induction n generalizing d a with
  | zero => simp [markBytes]
  | succ n ih =>
    simp only [markBytes, ih, AddrSet.mem_insert]
    have e : (a + 1#32).toNat = (a.toNat + 1) % 2 ^ 32 := by simp [BitVec.toNat_add]
    constructor
    · rintro ((rfl | h) | ⟨k, hk, rfl⟩)
      · exact .inr ⟨0, by omega, by have := a.isLt; simp; omega⟩
      · exact .inl h
      · exact .inr ⟨k + 1, by omega, by rw [e]; omega⟩
    · rintro (h | ⟨k, hk, rfl⟩)
      · exact .inl (.inr h)
      · cases k with
        | zero => exact .inl (.inl (by have := a.isLt; simp; omega))
        | succ k => exact .inr ⟨k, by omega, by rw [e]; omega⟩

/-- What `storeBytes` leaves at an address: the stored byte inside the access, the old one outside (`n` bytes that do not wrap
onto themselves). -/
theorem lookup_storeBytes {w : Nat} (m : Memory) (a x : Word) (n : Nat) (v : BitVec w) (hn : n ≤ 2 ^ 32) :
    Memory.lookup (storeBytes m a n v) x.toNat =
      if (x - a).toNat < n then some ((v >>> (8 * (x - a).toNat)).setWidth 8) else Memory.lookup m x.toNat := by
  induction n generalizing m a v with
  | zero => simp [storeBytes]
  | succ n ih =>
    rw [storeBytes, ih _ _ _ (by omega), Memory.lookup_write]
    by_cases hxa : x = a
    · subst hxa
      have h1 : (x - (x + 1#32)).toNat = 2 ^ 32 - 1 := by bv_omega
      rw [if_neg (by omega), if_pos rfl]
      simp
    · have h1 : (x - (a + 1#32)).toNat + 1 = (x - a).toNat := by bv_omega
      have h2 : x.toNat ≠ a.toNat := fun e => hxa (BitVec.eq_of_toNat_eq e)
      rw [if_neg h2]
      by_cases hlt : (x - a).toNat < n + 1
      · rw [if_pos hlt, if_pos (by omega), ← BitVec.shiftRight_add]
        congr 3; omega
      · rw [if_neg hlt, if_neg (by omega)]

theorem lookup_storeBytes_isSome {w : Nat} (m : Memory) (a x : Word) (n : Nat) (v : BitVec w)
    (hn : n ≤ 2 ^ 32) (hx : (x - a).toNat < n ∨ (Memory.lookup m x.toNat).isSome) :
    (Memory.lookup (storeBytes m a n v) x.toNat).isSome := by
  rw [lookup_storeBytes m a x n v hn]
  split
  · rfl
  · exact hx.resolve_left ‹_›

/-- The cells after a store: old cells, or cells at the access's own addresses. -/
theorem mem_storeBytes {w : Nat} (m : Memory) (a : Word) (n : Nat) (v : BitVec w) (c : Host.Cell)
    (hc : c ∈ storeBytes m a n v) : c ∈ m ∨ ∃ x ∈ byteAddrs a n, c.1 = x.toNat := by
  induction n generalizing m a v with
  | zero => exact .inl hc
  | succ n ih =>
    rcases ih _ _ _ hc with h | ⟨x, hx, e⟩
    · rcases Memory.mem_write m _ _ c h with rfl | h
      · exact .inr ⟨a, by simp [byteAddrs], rfl⟩
      · exact .inl h
    · exact .inr ⟨x, by simp [byteAddrs, hx], e⟩

/-- A stored byte reads back, any other reads as before. -/
theorem byte_storeBytes {w : Nat} (m : Memory) (a x : Word) (n : Nat) (v : BitVec w) (hn : n ≤ 2 ^ 32) :
    Memory.byte (storeBytes m a n v) x.toNat =
      if (x - a).toNat < n then (v >>> (8 * (x - a).toNat)).setWidth 8 else Memory.byte m x.toNat := by
  simp only [Memory.byte, lookup_storeBytes m a x n v hn]
  split <;> rfl

/-- Byte `k` of a load is the byte at `a + k` (R42, R44). -/
theorem loadBytes_byte (m : Memory) (a : Word) (n k : Nat) (hk : k < n) :
    (loadBytes m a n).extractLsb' (8 * k) 8 = Memory.byte m (a + BitVec.ofNat 32 k).toNat := by
  induction n generalizing a k with
  | zero => omega
  | succ n ih =>
    simp only [loadBytes]
    cases k with
    | zero =>
      apply BitVec.eq_of_getLsbD_eq
      intro i hi
      simp [BitVec.getLsbD_append, hi]
    | succ k =>
      have e : a + BitVec.ofNat 32 (k + 1) = (a + 1#32) + BitVec.ofNat 32 k := by
        rw [BitVec.add_assoc]; congr 1; simp [BitVec.ofNat_add, BitVec.add_comm]
      rw [e, ← ih (a + 1#32) k (by omega)]
      apply BitVec.eq_of_getLsbD_eq
      intro i hi
      simp only [BitVec.getLsbD_extractLsb', hi, decide_true, Bool.true_and, BitVec.getLsbD_append]
      rw [if_neg (by omega)]
      congr 1; omega

end Sys2Proof.Machine
end

