-- ==== Sys2Proof/Laws/State.lean ====
section
/-! SUPPORT. One lemma per field per update of the state, so that no proof unfolds a record update. -/

namespace Sys2Proof.Machine.State

@[simp] theorem setPc_regs (s : State) (p : Word) : (s.setPc p).regs = s.regs := rfl
@[simp] theorem setPc_pc (s : State) (p : Word) : (s.setPc p).pc = p := rfl
@[simp] theorem setPc_mem (s : State) (p : Word) : (s.setPc p).mem = s.mem := rfl
@[simp] theorem setPc_dirty (s : State) (p : Word) : (s.setPc p).dirty = s.dirty := rfl
@[simp] theorem setPc_trap (s : State) (p : Word) : (s.setPc p).trap = s.trap := rfl
@[simp] theorem setPc_cfg (s : State) (p : Word) : (s.setPc p).cfg = s.cfg := rfl
@[simp] theorem setPc_draws (s : State) (p : Word) : (s.setPc p).draws = s.draws := rfl

@[simp] theorem advance_regs (s : State) (n : Word) : (s.advance n).regs = s.regs := rfl
@[simp] theorem advance_pc (s : State) (n : Word) : (s.advance n).pc = s.pc + n := rfl
@[simp] theorem advance_mem (s : State) (n : Word) : (s.advance n).mem = s.mem := rfl
@[simp] theorem advance_dirty (s : State) (n : Word) : (s.advance n).dirty = s.dirty := rfl
@[simp] theorem advance_trap (s : State) (n : Word) : (s.advance n).trap = s.trap := rfl
@[simp] theorem advance_cfg (s : State) (n : Word) : (s.advance n).cfg = s.cfg := rfl
@[simp] theorem advance_draws (s : State) (n : Word) : (s.advance n).draws = s.draws := rfl

@[simp] theorem writeReg_pc (s : State) (r : Reg) (v : Word) : (s.writeReg r v).pc = s.pc := by
  unfold writeReg; split <;> rfl
@[simp] theorem writeReg_mem (s : State) (r : Reg) (v : Word) : (s.writeReg r v).mem = s.mem := by
  unfold writeReg; split <;> rfl
@[simp] theorem writeReg_dirty (s : State) (r : Reg) (v : Word) : (s.writeReg r v).dirty = s.dirty := by
  unfold writeReg; split <;> rfl
@[simp] theorem writeReg_trap (s : State) (r : Reg) (v : Word) : (s.writeReg r v).trap = s.trap := by
  unfold writeReg; split <;> rfl
@[simp] theorem writeReg_cfg (s : State) (r : Reg) (v : Word) : (s.writeReg r v).cfg = s.cfg := by
  unfold writeReg; split <;> rfl
@[simp] theorem writeReg_draws (s : State) (r : Reg) (v : Word) : (s.writeReg r v).draws = s.draws := by
  unfold writeReg; split <;> rfl

@[simp] theorem writeBytes_regs (s : State) {w : Nat} (a : Word) (n : Nat) (v : BitVec w) : (s.writeBytes a n v).regs = s.regs := rfl
@[simp] theorem writeBytes_pc (s : State) {w : Nat} (a : Word) (n : Nat) (v : BitVec w) : (s.writeBytes a n v).pc = s.pc := rfl
@[simp] theorem writeBytes_mem (s : State) {w : Nat} (a : Word) (n : Nat) (v : BitVec w) : (s.writeBytes a n v).mem = storeBytes s.mem a n v := rfl
@[simp] theorem writeBytes_dirty (s : State) {w : Nat} (a : Word) (n : Nat) (v : BitVec w) : (s.writeBytes a n v).dirty = s.dirty := rfl
@[simp] theorem writeBytes_trap (s : State) {w : Nat} (a : Word) (n : Nat) (v : BitVec w) : (s.writeBytes a n v).trap = s.trap := rfl
@[simp] theorem writeBytes_cfg (s : State) {w : Nat} (a : Word) (n : Nat) (v : BitVec w) : (s.writeBytes a n v).cfg = s.cfg := rfl
@[simp] theorem writeBytes_draws (s : State) {w : Nat} (a : Word) (n : Nat) (v : BitVec w) : (s.writeBytes a n v).draws = s.draws := rfl

@[simp] theorem poke_regs (s : State) {w : Nat} (a : Word) (n : Nat) (v : BitVec w) : (s.poke a n v).regs = s.regs := rfl
@[simp] theorem poke_pc (s : State) {w : Nat} (a : Word) (n : Nat) (v : BitVec w) : (s.poke a n v).pc = s.pc := rfl
@[simp] theorem poke_mem (s : State) {w : Nat} (a : Word) (n : Nat) (v : BitVec w) : (s.poke a n v).mem = storeBytes s.mem a n v := rfl
@[simp] theorem poke_dirty (s : State) {w : Nat} (a : Word) (n : Nat) (v : BitVec w) : (s.poke a n v).dirty = markBytes s.dirty a n := rfl
@[simp] theorem poke_trap (s : State) {w : Nat} (a : Word) (n : Nat) (v : BitVec w) : (s.poke a n v).trap = s.trap := rfl
@[simp] theorem poke_cfg (s : State) {w : Nat} (a : Word) (n : Nat) (v : BitVec w) : (s.poke a n v).cfg = s.cfg := rfl
@[simp] theorem poke_draws (s : State) {w : Nat} (a : Word) (n : Nat) (v : BitVec w) : (s.poke a n v).draws = s.draws := rfl

@[simp] theorem endRun_regs (s : State) (c : Cause) (v : Word) : (s.endRun c v).regs = s.regs := rfl
@[simp] theorem endRun_pc (s : State) (c : Cause) (v : Word) : (s.endRun c v).pc = s.pc := rfl
@[simp] theorem endRun_mem (s : State) (c : Cause) (v : Word) : (s.endRun c v).mem = s.mem := rfl
@[simp] theorem endRun_dirty (s : State) (c : Cause) (v : Word) : (s.endRun c v).dirty = s.dirty := rfl
@[simp] theorem endRun_trap (s : State) (c : Cause) (v : Word) : (s.endRun c v).trap = some { cause := c, epc := s.pc, tval := v } := rfl
@[simp] theorem endRun_cfg (s : State) (c : Cause) (v : Word) : (s.endRun c v).cfg = s.cfg := rfl
@[simp] theorem endRun_draws (s : State) (c : Cause) (v : Word) : (s.endRun c v).draws = s.draws := rfl

@[simp] theorem addDraws_regs (s : State) (n : Nat) : (s.addDraws n).regs = s.regs := rfl
@[simp] theorem addDraws_pc (s : State) (n : Nat) : (s.addDraws n).pc = s.pc := rfl
@[simp] theorem addDraws_mem (s : State) (n : Nat) : (s.addDraws n).mem = s.mem := rfl
@[simp] theorem addDraws_dirty (s : State) (n : Nat) : (s.addDraws n).dirty = s.dirty := rfl
@[simp] theorem addDraws_trap (s : State) (n : Nat) : (s.addDraws n).trap = s.trap := rfl
@[simp] theorem addDraws_cfg (s : State) (n : Nat) : (s.addDraws n).cfg = s.cfg := rfl
@[simp] theorem addDraws_draws (s : State) (n : Nat) : (s.addDraws n).draws = s.draws + n := rfl

end Sys2Proof.Machine.State
end

