-- ==== Sys2Proof/Laws/Ops.lean ====
section
/-! SUPPORT. One lemma per shared operation: what it can do, said once. -/

namespace Sys2Proof.Machine

/-! ### Registers -/

theorem State.readReg_congr {s t : State} (h : t.regs = s.regs) (r : Reg) : t.readReg r = s.readReg r := by
  simp only [State.readReg, h]

@[simp] theorem State.readReg_zero (s : State) : s.readReg 0#5 = 0#32 := rfl

/-- A register reads what was last written to it; x0 reads 0 (R9, R21). -/
theorem State.readReg_writeReg (s : State) (r q : Reg) (v : Word) :
    (s.writeReg r v).readReg q = if q = r ∧ q ≠ 0#5 then v else s.readReg q := by
  unfold State.writeReg
  by_cases hr : r = 0#5
  · rw [if_pos hr, if_neg (by rintro ⟨rfl, h⟩; exact h hr)]
  · rw [if_neg hr]
    by_cases hq : q = 0#5
    · subst hq; simp
    · have h1 : q.toNat ≠ 0 := fun e => hq (BitVec.eq_of_toNat_eq e)
      have h2 : r.toNat ≠ 0 := fun e => hr (BitVec.eq_of_toNat_eq e)
      simp only [State.readReg, if_neg hq, Vector.getElem_set]
      by_cases e : q = r
      · subst e; simp [hq]
      · have h3 : q.toNat ≠ r.toNat := fun h => e (BitVec.eq_of_toNat_eq h)
        rw [if_neg (by omega), if_neg (by rintro ⟨h, -⟩; exact e h)]

@[simp] theorem State.readReg_setPc (s : State) (p : Word) (r : Reg) : (s.setPc p).readReg r = s.readReg r := rfl
@[simp] theorem State.readReg_advance (s : State) (n : Word) (r : Reg) : (s.advance n).readReg r = s.readReg r := rfl
@[simp] theorem State.readReg_endRun (s : State) (c : Cause) (v : Word) (r : Reg) :
    (s.endRun c v).readReg r = s.readReg r := rfl
@[simp] theorem State.readReg_addDraws (s : State) (n : Nat) (r : Reg) : (s.addDraws n).readReg r = s.readReg r := rfl
@[simp] theorem State.readReg_writeBytes {w : Nat} (s : State) (a : Word) (n : Nat) (v : BitVec w) (r : Reg) :
    (s.writeBytes a n v).readReg r = s.readReg r := rfl
@[simp] theorem State.readReg_poke {w : Nat} (s : State) (a : Word) (n : Nat) (v : BitVec w) (r : Reg) :
    (s.poke a n v).readReg r = s.readReg r := rfl

/-- Two states with the same registers hold the same register file. -/
theorem State.regs_ext {s t : State} (h : ∀ r, t.readReg r = s.readReg r) : t.regs = s.regs := by
  apply Vector.ext
  intro i hi
  have hr := h (BitVec.ofNat 5 (i + 1))
  have e : (BitVec.ofNat 5 (i + 1)).toNat = i + 1 := by simp; omega
  have hne : BitVec.ofNat 5 (i + 1) ≠ 0#5 := fun h0 => by
    have := congrArg BitVec.toNat h0; simp at this; omega
  simp only [State.readReg, if_neg hne, e, Nat.add_sub_cancel] at hr
  exact hr

/-! ### Memory -/

@[simp] theorem State.byteAt_setPc (s : State) (p a : Word) : (s.setPc p).byteAt a = s.byteAt a := rfl
@[simp] theorem State.byteAt_advance (s : State) (n a : Word) : (s.advance n).byteAt a = s.byteAt a := rfl
@[simp] theorem State.byteAt_endRun (s : State) (c : Cause) (v a : Word) : (s.endRun c v).byteAt a = s.byteAt a := rfl
@[simp] theorem State.byteAt_addDraws (s : State) (n : Nat) (a : Word) : (s.addDraws n).byteAt a = s.byteAt a := rfl
@[simp] theorem State.byteAt_writeReg (s : State) (r : Reg) (v a : Word) : (s.writeReg r v).byteAt a = s.byteAt a := by
  simp only [State.byteAt, State.writeReg_mem]

theorem byteOf_eq {w : Nat} (v : BitVec w) (k : Nat) : byteOf v k = (v >>> (8 * k)).setWidth 8 := by
  apply BitVec.eq_of_toNat_eq
  simp [byteOf, BitVec.toNat_setWidth, BitVec.toNat_ushiftRight, Nat.shiftRight_eq_div_pow]

/-- What writing bytes does to the bytes. -/
theorem State.writeBytes_bytesAt {w : Nat} (s : State) (a : Word) (n : Nat) (v : BitVec w) (hn : n ≤ 2 ^ 32) :
    BytesAt s (s.writeBytes a n v) a n v := by
  intro x
  rw [byteOf_eq]
  exact byte_storeBytes s.mem a x n v hn

/-- What a `MemWrite` does to the bytes and to `Dirty` (R45). -/
theorem State.poke_storesAt {w : Nat} (s : State) (a : Word) (n : Nat) (v : BitVec w) (hn : n ≤ 2 ^ 32) :
    StoresAt s (s.poke a n v) a n v := ⟨State.writeBytes_bytesAt s a n v hn, fun x => mem_markBytes s.dirty a n x⟩

theorem backedSpan_iff (c : Config) (a : Word) (n : Nat) : BackedSpan c a n ↔ allBacked c a n = true :=
  (allBacked_iff c a n).symm

/-- `MemRead` answers exactly where every byte is backed, and then the bytes themselves (R44). -/
theorem State.memRead_eq_some (s : State) (a : Word) (n : Nat) (h : BackedSpan s.cfg a n) :
    s.memRead a n = some (loadBytes s.mem a n) := if_pos ((backedSpan_iff _ _ _).1 h)

theorem State.memRead_eq_none (s : State) (a : Word) (n : Nat) (h : ¬ BackedSpan s.cfg a n) : s.memRead a n = none :=
  if_neg fun e => h ((backedSpan_iff _ _ _).2 e)

/-- `MemWrite` answers exactly where every byte is backed (R45, R46). -/
theorem State.memWrite_eq_some {w : Nat} (s : State) (a : Word) (n : Nat) (v : BitVec w) (h : BackedSpan s.cfg a n) :
    s.memWrite a n v = some (s.poke a n v) := if_pos ((backedSpan_iff _ _ _).1 h)

theorem State.memWrite_eq_none {w : Nat} (s : State) (a : Word) (n : Nat) (v : BitVec w) (h : ¬ BackedSpan s.cfg a n) :
    s.memWrite a n v = none := if_neg fun e => h ((backedSpan_iff _ _ _).2 e)

theorem loadBytes_one (m : Memory) (a : Word) : loadBytes m a 1 = Memory.byte m a.toNat := by
  apply BitVec.eq_of_toNat_eq
  exact (BitVec.toNat_append (0#0) (Memory.byte m a.toNat)).trans (by simp)

/-- A halfword is its two bytes, the lower at the lower address (R42). -/
theorem loadBytes_two (s : State) (a : Word) : loadBytes s.mem a 2 = s.byteAt (a + 1#32) ++ s.byteAt a := by
  show (loadBytes s.mem (a + 1#32) 1 ++ s.byteAt a : BitVec (8 * 1 + 8)) = _
  rw [loadBytes_one]; rfl

/-- A word is its four bytes (R42). -/
theorem loadBytes_four (s : State) (a : Word) :
    loadBytes s.mem a 4 = s.byteAt (a + 3#32) ++ s.byteAt (a + 2#32) ++ s.byteAt (a + 1#32) ++ s.byteAt a := by
  have e (b : Word) : loadBytes s.mem b 2 = s.byteAt (b + 1#32) ++ s.byteAt b := loadBytes_two s b
  show ((loadBytes s.mem (a + 1#32 + 1#32) 2 ++ s.byteAt (a + 1#32) : BitVec (8 * 2 + 8)) ++ s.byteAt a :
    BitVec (8 * 3 + 8)) = _
  rw [e]
  have h2 : a + 1#32 + 1#32 = a + 2#32 := by bv_omega
  have h3 : a + 2#32 + 1#32 = a + 3#32 := by bv_omega
  rw [h2, h3]

/-! ### Exceptions and jumps -/

/-- Taking an exception changes nothing but the end of the run (R311, R312). -/
theorem State.endRun_traps (s : State) (c : Cause) (v : Word) : Traps s (s.endRun c v) c v :=
  ⟨rfl, fun _ => rfl, rfl, ⟨fun _ => rfl, fun _ => Iff.rfl⟩, rfl, rfl⟩

theorem misalignedPc_iff (c : Config) (t : Word) : misalignedPc c t = false ↔ InstrAligned c t := by
  unfold misalignedPc InstrAligned
  have h0 : t.getLsbD 0 = decide (t.toNat % 2 = 1) := by
    simp [BitVec.getLsbD, Nat.testBit_zero]
  have h1 : t.getLsbD 1 = decide (t.toNat / 2 % 2 = 1) := by
    simp [BitVec.getLsbD, Nat.testBit, Nat.shiftRight_eq_div_pow]
    rcases Nat.mod_two_eq_zero_or_one (t.toNat / 2) with h | h <;> simp [h]
  split
  · rw [h0]; simp
  · rw [h0, h1]; simp; omega

/-- A jump goes to an address where an instruction can stand, or traps there and then (R176, R190). -/
theorem jumpTo_of_aligned (s : State) (t : Word) (h : InstrAligned s.cfg t) : jumpTo t s = .next (s.setPc t) := by
  simp [jumpTo, (misalignedPc_iff _ _).2 h]

theorem jumpTo_of_misaligned (s : State) (t : Word) (h : ¬ InstrAligned s.cfg t) :
    jumpTo t s = raise .instructionAddressMisaligned t s := by
  unfold jumpTo
  rw [if_pos]
  by_contra hn
  exact h ((misalignedPc_iff _ _).1 (by simpa using hn))

theorem linkAndJump_of_aligned (s : State) (rd : Reg) (t : Word) (h : InstrAligned s.cfg t) :
    linkAndJump rd t s = .next ((s.writeReg rd (s.pc + 4#32)).setPc t) := by
  simp [linkAndJump, (misalignedPc_iff _ _).2 h]

theorem linkAndJump_of_misaligned (s : State) (rd : Reg) (t : Word) (h : ¬ InstrAligned s.cfg t) :
    linkAndJump rd t s = raise .instructionAddressMisaligned t s := by
  unfold linkAndJump
  rw [if_pos]
  by_contra hn
  exact h ((misalignedPc_iff _ _).1 (by simpa using hn))

/-! ### Pairs (R261, R267) -/

theorem pairHigh_ne (r : Reg) : pairHigh r ≠ r := by
  unfold pairHigh; bv_omega

theorem pairHigh_ne_zero {r : Reg} (h : evenReg r = true) : pairHigh r ≠ 0#5 := by
  revert r; decide

/-- What writing a pair does to each register. -/
theorem State.writePair_setsPair (s : State) (r : Reg) (v : Dword) (h : evenReg r = true) :
    SetsPair s (s.writePair r v) r (v.extractLsb' 0 32) (v.extractLsb' 32 32) := by
  intro q
  unfold State.writePair
  by_cases hr : r = 0#5
  · simp [hr]
  · rw [if_neg hr, if_neg hr, State.readReg_writeReg, State.readReg_writeReg]
    have h1 := pairHigh_ne r
    have h2 := pairHigh_ne_zero h
    show (if q = pairHigh r ∧ q ≠ 0#5 then _ else _) = if q = r then _ else if q = pairHigh r then _ else _
    by_cases hq : q = r
    · subst hq; rw [if_neg (by rintro ⟨e, -⟩; exact h1 e.symm), if_pos ⟨rfl, hr⟩, if_pos rfl]
    · rw [if_neg hq]
      by_cases hp : q = pairHigh r
      · subst hp; rw [if_pos ⟨rfl, h2⟩, if_pos rfl]
      · rw [if_neg (by rintro ⟨e, -⟩; exact hp e), if_neg (by rintro ⟨e, -⟩; exact hq e), if_neg hp]

section
variable (s : State) (r base : Reg) (v : Dword) (a : Word) (n : Nat)

@[simp] theorem State.writePair_pc : (s.writePair r v).pc = s.pc := by unfold State.writePair; split <;> simp
@[simp] theorem State.writePair_mem : (s.writePair r v).mem = s.mem := by unfold State.writePair; split <;> simp
@[simp] theorem State.writePair_dirty : (s.writePair r v).dirty = s.dirty := by unfold State.writePair; split <;> simp
@[simp] theorem State.writePair_trap : (s.writePair r v).trap = s.trap := by unfold State.writePair; split <;> simp
@[simp] theorem State.writePair_cfg : (s.writePair r v).cfg = s.cfg := by unfold State.writePair; split <;> simp
@[simp] theorem State.writePair_draws : (s.writePair r v).draws = s.draws := by unfold State.writePair; split <;> simp

@[simp] theorem State.halfAfterFault_pc : (s.halfAfterFault base r a n).pc = s.pc := by
  unfold State.halfAfterFault; split <;> simp
@[simp] theorem State.halfAfterFault_mem : (s.halfAfterFault base r a n).mem = s.mem := by
  unfold State.halfAfterFault; split <;> simp
@[simp] theorem State.halfAfterFault_dirty : (s.halfAfterFault base r a n).dirty = s.dirty := by
  unfold State.halfAfterFault; split <;> simp
@[simp] theorem State.halfAfterFault_trap : (s.halfAfterFault base r a n).trap = s.trap := by
  unfold State.halfAfterFault; split <;> simp
@[simp] theorem State.halfAfterFault_cfg : (s.halfAfterFault base r a n).cfg = s.cfg := by
  unfold State.halfAfterFault; split <;> simp
@[simp] theorem State.halfAfterFault_draws : (s.halfAfterFault base r a n).draws = s.draws := by
  unfold State.halfAfterFault; split <;> simp

@[simp] theorem State.afterFaultingLoad_pc : (s.afterFaultingLoad r base a).pc = s.pc := by
  unfold State.afterFaultingLoad; split <;> simp
@[simp] theorem State.afterFaultingLoad_mem : (s.afterFaultingLoad r base a).mem = s.mem := by
  unfold State.afterFaultingLoad; split <;> simp
@[simp] theorem State.afterFaultingLoad_dirty : (s.afterFaultingLoad r base a).dirty = s.dirty := by
  unfold State.afterFaultingLoad; split <;> simp
@[simp] theorem State.afterFaultingLoad_trap : (s.afterFaultingLoad r base a).trap = s.trap := by
  unfold State.afterFaultingLoad; split <;> simp
@[simp] theorem State.afterFaultingLoad_cfg : (s.afterFaultingLoad r base a).cfg = s.cfg := by
  unfold State.afterFaultingLoad; split <;> simp

@[simp] theorem State.afterFaultingStore_regs : (s.afterFaultingStore a v).regs = s.regs := by
  unfold State.afterFaultingStore; repeat' split <;> simp_all
@[simp] theorem State.afterFaultingStore_pc : (s.afterFaultingStore a v).pc = s.pc := by
  unfold State.afterFaultingStore; repeat' split <;> simp_all
@[simp] theorem State.afterFaultingStore_dirty : (s.afterFaultingStore a v).dirty = s.dirty := by
  unfold State.afterFaultingStore; repeat' split <;> simp_all
@[simp] theorem State.afterFaultingStore_trap : (s.afterFaultingStore a v).trap = s.trap := by
  unfold State.afterFaultingStore; repeat' split <;> simp_all
@[simp] theorem State.afterFaultingStore_cfg : (s.afterFaultingStore a v).cfg = s.cfg := by
  unfold State.afterFaultingStore; repeat' split <;> simp_all
end

/-- A faulting `sd` has written nothing, or one backed half of its access (R268), and `Dirty` has not changed (R307). -/
theorem State.afterFaultingStore_cases (s : State) (a : Word) (v : Dword) :
    (∃ n, s.afterFaultingStore a v = s.addDraws n) ∨
    (allBacked s.cfg a 4 = true ∧ s.afterFaultingStore a v = (s.writeBytes a 4 v).addDraws 1) ∨
    (allBacked s.cfg (a + 4#32) 4 = true ∧ s.afterFaultingStore a v = (s.writeBytes (a + 4#32) 4 (v >>> 32)).addDraws 1) := by
  unfold State.afterFaultingStore
  split
  · split
    · exact .inr (.inl ⟨‹_›, rfl⟩)
    · exact .inl ⟨1, rfl⟩
  · split
    · split
      · exact .inr (.inr ⟨‹_›, rfl⟩)
      · exact .inl ⟨1, rfl⟩
    · exact .inl ⟨0, rfl⟩

/-- A register after a faulting `ld` (R266): unchanged, or a register of the pair other than the base with its backed half. -/
theorem State.readReg_halfAfterFault (s : State) (base r q : Reg) (a : Word) (n : Nat) :
    (s.halfAfterFault base r a n).readReg q = s.readReg q ∨
    (q = r ∧ q ≠ base ∧ allBacked s.cfg a 4 = true ∧ (s.halfAfterFault base r a n).readReg q = loadBytes s.mem a 4) := by
  unfold State.halfAfterFault
  split
  · rename_i h
    rw [State.readReg_writeReg]
    split
    · rename_i hq; exact .inr ⟨hq.1, hq.1 ▸ h.1, h.2.1, rfl⟩
    · exact .inl rfl
  · exact .inl rfl

end Sys2Proof.Machine
end

