-- ==== Sys2Proof/Laws/Exec.lean ====
section
/-! SUPPORT. What executing an instruction can do, said once for all 44: an invariant of the machine is a case analysis over
`Effect`, not over the instructions. -/

namespace Sys2Proof.Machine

/-- An instruction's length in bytes: 4, or 2 for a form of Zclsd. -/
def LengthOf (i : Instr) (len : Word) : Prop := len = 4#32 ∨ (len = 2#32 ∧ i.needs = Extensions.all)

/-- The next states of an instruction. -/
inductive Effect (i : Instr) (s : State) : State → Prop where
  /-- A register is written and control goes on. -/
  | writes (rd : Reg) (v : Word) : rd ∈ destinations i → Effect i s ((s.writeReg rd v).advance 4#32)
  /-- A branch that is not taken. -/
  | continues : Effect i s (s.advance 4#32)
  /-- A branch that is taken. -/
  | jumps (p : Word) : InstrAligned s.cfg p → Effect i s (s.setPc p)
  /-- A jump with its link value. -/
  | links (rd : Reg) (p : Word) : rd ∈ destinations i → InstrAligned s.cfg p →
      Effect i s ((s.writeReg rd (s.pc + 4#32)).setPc p)
  /-- A store. -/
  | stores (w : Nat) (a : Word) (n : Nat) (v : BitVec w) (len : Word) : storeTarget i s = some (a, n) → n ≤ 8 →
      allBacked s.cfg a n = true → LengthOf i len → Effect i s ((s.poke a n v).advance len)
  /-- A load of a pair. -/
  | pairs (rd : Reg) (v : Dword) (len : Word) : destinations i = pairRegs rd → evenReg rd = true → LengthOf i len →
      Effect i s ((s.writePair rd v).advance len)
  /-- An exception with no effect. -/
  | traps (c : Cause) (v : Word) : Effect i s (s.endRun c v)
  /-- An exception of a load of a pair. -/
  | loadFault (rd base : Reg) (a : Word) (c : Cause) : destinations i = pairRegs rd → evenReg rd = true → base ∈ sources i →
      Effect i s ((s.afterFaultingLoad rd base a).endRun c a)
  /-- An access fault of a store of a pair. -/
  | storeFault (a : Word) (v : Dword) : storeTarget i s = some (a, 8) →
      Effect i s ((s.afterFaultingStore a v).endRun .storeAccessFault a)

theorem jumpTo_effect {i : Instr} {s t : State} {p : Word} (h : jumpTo p s = .next t) : Effect i s t := by
  by_cases ha : InstrAligned s.cfg p
  · rw [jumpTo_of_aligned s p ha] at h; cases h; exact .jumps p ha
  · rw [jumpTo_of_misaligned s p ha] at h; cases h; exact .traps _ _

theorem linkAndJump_effect {i : Instr} {s t : State} {rd : Reg} {p : Word} (hd : rd ∈ destinations i)
    (h : linkAndJump rd p s = .next t) : Effect i s t := by
  by_cases ha : InstrAligned s.cfg p
  · rw [linkAndJump_of_aligned s rd p ha] at h; cases h; exact .links rd p hd ha
  · rw [linkAndJump_of_misaligned s rd p ha] at h; cases h; exact .traps _ _

theorem branchOp_effect {i : Instr} {s t : State} {cond : Word → Word → Bool} {rs1 rs2 : Reg} {offset : BitVec 13}
    (h : branchOp cond rs1 rs2 offset s = .next t) : Effect i s t := by
  unfold branchOp at h
  split at h
  · exact jumpTo_effect h
  · cases h; exact .continues

theorem loadOp_effect {i : Instr} {s t : State} {n : Nat} {ext : BitVec (8 * n) → Word} {rd rs1 : Reg} {offset : BitVec 12}
    (hd : rd ∈ destinations i) (h : loadOp n ext rd offset rs1 s = .next t) : Effect i s t := by
  unfold loadOp at h
  split at h
  · cases h; exact .traps _ _
  · cases h; exact .writes rd _ hd

theorem storeOp_effect {i : Instr} {s t : State} {n : Nat} {rs2 rs1 : Reg} {offset : BitVec 12}
    (hi : storeTarget i s = some (s.baseDisp rs1 offset, n)) (hn : n ≤ 8)
    (h : storeOp n rs2 offset rs1 s = .next t) : Effect i s t := by
  by_cases hb : BackedSpan s.cfg (s.baseDisp rs1 offset) n
  · rw [storeOp, State.memWrite_eq_some _ _ _ _ hb] at h
    cases h; exact .stores 32 _ _ _ _ hi hn ((backedSpan_iff _ _ _).1 hb) (.inl rfl)
  · rw [storeOp, State.memWrite_eq_none _ _ _ _ hb] at h
    cases h; exact .traps _ _

theorem loadPair_effect {i : Instr} {s t : State} {rd base : Reg} {a len : Word} (hd : destinations i = pairRegs rd)
    (he : evenReg rd = true) (hb : base ∈ sources i) (hl : LengthOf i len) (h : loadPair rd base a len s = .next t) :
    Effect i s t := by
  unfold loadPair at h
  split at h
  · cases h; exact .loadFault rd base a _ hd he hb
  · split at h
    · cases h; exact .loadFault rd base a _ hd he hb
    · cases h; exact .pairs rd _ len hd he hl

theorem storePair_effect {i : Instr} {s t : State} {rs2 : Reg} {a len : Word} (hi : storeTarget i s = some (a, 8))
    (hl : LengthOf i len) (h : storePair rs2 a len s = .next t) : Effect i s t := by
  unfold storePair at h
  split at h
  · cases h; exact .traps _ _
  · by_cases hb : BackedSpan s.cfg a 8
    · rw [State.memWrite_eq_some _ _ _ _ hb] at h
      cases h; exact .stores 64 a 8 _ len hi (by omega) ((backedSpan_iff _ _ _).1 hb) hl
    · rw [State.memWrite_eq_none _ _ _ _ hb] at h
      cases h; exact .storeFault a _ hi

theorem evenReg_cReg {k : CReg} (h : evenReg k = true) : evenReg (cReg k) = true := by revert k; decide

/-- Every next state of every instruction is one of these. -/
theorem exec_effect {i : Instr} {s t : State} (h : exec i s = .next t) : Effect i s t := by
  cases i with
  | sll rd _ _ | srl rd _ _ | sra rd _ _ | add rd _ _ | sub rd _ _ | xor rd _ _ | or rd _ _ | and rd _ _ | slt rd _ _
  | sltu rd _ _ => cases h; exact .writes rd _ (.head _)
  | slli rd _ _ | srli rd _ _ | srai rd _ _ | addi rd _ _ | xori rd _ _ | ori rd _ _ | andi rd _ _ | slti rd _ _
  | sltiu rd _ _ => cases h; exact .writes rd _ (.head _)
  | lui rd _ | auipc rd _ => cases h; exact .writes rd _ (.head _)
  | lw _ _ _ | lh _ _ _ | lb _ _ _ | lhu _ _ _ | lbu _ _ _ => exact loadOp_effect (.head _) h
  | bne _ _ _ => exact branchOp_effect (cond := fun a b => !eqW a b) h
  | beq _ _ _ | blt _ _ _ | bge _ _ _ | bltu _ _ _ | bgeu _ _ _ => exact branchOp_effect h
  | jal _ _ | jalr _ _ _ => exact linkAndJump_effect (.head _) h
  | sw _ _ _ | sh _ _ _ | sb _ _ _ => exact storeOp_effect rfl (by omega) h
  | ebreak => cases h; exact .traps _ _
  | ld rd _ rs1 =>
    simp only [exec, execLd] at h
    split at h
    · exact loadPair_effect rfl ‹_› (.head _) (.inl rfl) h
    · cases h; exact .traps _ _
  | sd rs2 _ rs1 =>
    simp only [exec, execSd] at h
    split at h
    · exact storePair_effect rfl (.inl rfl) h
    · cases h; exact .traps _ _
  | cLdsp rd _ =>
    simp only [exec, execCLdsp] at h
    split at h
    · rename_i he; exact loadPair_effect rfl (Bool.and_eq_true_iff.1 he).1 (.head _) (.inr ⟨rfl, rfl⟩) h
    · cases h; exact .traps _ _
  | cSdsp rs2 _ =>
    simp only [exec, execCSdsp] at h
    split at h
    · exact storePair_effect rfl (.inr ⟨rfl, rfl⟩) h
    · cases h; exact .traps _ _
  | cLd rd _ rs1 =>
    simp only [exec, execCLd] at h
    split at h
    · exact loadPair_effect rfl (evenReg_cReg ‹_›) (.head _) (.inr ⟨rfl, rfl⟩) h
    · cases h; exact .traps _ _
  | cSd rs2 _ rs1 =>
    simp only [exec, execCSd] at h
    split at h
    · exact storePair_effect rfl (.inr ⟨rfl, rfl⟩) h
    · cases h; exact .traps _ _

end Sys2Proof.Machine
end

