-- ==== Sys2Proof/Laws/PerInstr.lean ====
section
/-! SUPPORT. Statements made once per instruction: the encoder's bits of an instruction match that instruction's own row of the opcode
table (R94). -/

namespace Sys2Proof

/-! ### What a mask keeps of a word in each format -/

section
variable (f7 op : BitVec 7) (rd rs1 rs2 : Reg) (f3 : BitVec 3) (i12 : BitVec 12) (i20 : BitVec 20) (i13 : BitVec 13) (i21 : BitVec 21)
  (o9 : BitVec 9) (o8 : BitVec 8) (k k' : CReg)

theorem rWord_mask : rWord f7 rs2 rs1 f3 rd op &&& 0xfe00707f#32 = (f7 ++ 0#5 ++ 0#5 ++ f3 ++ 0#5 ++ op : Word) := by
  unfold rWord
  rw [show 0xfe00707f#32 = (BitVec.allOnes 7 ++ 0#5 ++ 0#5 ++ BitVec.allOnes 3 ++ 0#5 ++ BitVec.allOnes 7 : Word) from rfl]
  repeat rw [BitVec.and_append]
  simp only [BitVec.and_zero, BitVec.and_allOnes]

theorem iWord_mask : iWord i12 rs1 f3 rd op &&& 0x0000707f#32 = (0#12 ++ 0#5 ++ f3 ++ 0#5 ++ op : Word) := by
  unfold iWord
  rw [show 0x0000707f#32 = (0#12 ++ 0#5 ++ BitVec.allOnes 3 ++ 0#5 ++ BitVec.allOnes 7 : Word) from rfl]
  repeat rw [BitVec.and_append]
  simp only [BitVec.and_zero, BitVec.and_allOnes]

theorem sWord_mask : sWord i12 rs2 rs1 f3 op &&& 0x0000707f#32 = (0#7 ++ 0#5 ++ 0#5 ++ f3 ++ 0#5 ++ op : Word) := by
  unfold sWord
  rw [show 0x0000707f#32 = (0#7 ++ 0#5 ++ 0#5 ++ BitVec.allOnes 3 ++ 0#5 ++ BitVec.allOnes 7 : Word) from rfl]
  repeat rw [BitVec.and_append]
  simp only [BitVec.and_zero, BitVec.and_allOnes]

theorem bWord_mask : bWord i13 rs2 rs1 f3 op &&& 0x0000707f#32 = (0#1 ++ 0#6 ++ 0#5 ++ 0#5 ++ f3 ++ 0#4 ++ 0#1 ++ op : Word) := by
  unfold bWord
  rw [show 0x0000707f#32 = (0#1 ++ 0#6 ++ 0#5 ++ 0#5 ++ BitVec.allOnes 3 ++ 0#4 ++ 0#1 ++ BitVec.allOnes 7 : Word) from rfl]
  repeat rw [BitVec.and_append]
  simp only [BitVec.and_zero, BitVec.and_allOnes]

theorem uWord_mask : uWord i20 rd op &&& 0x0000007f#32 = (0#20 ++ 0#5 ++ op : Word) := by
  unfold uWord
  rw [show 0x0000007f#32 = (0#20 ++ 0#5 ++ BitVec.allOnes 7 : Word) from rfl]
  repeat rw [BitVec.and_append]
  simp only [BitVec.and_zero, BitVec.and_allOnes]

theorem jWord_mask : jWord i21 rd op &&& 0x0000007f#32 = (0#1 ++ 0#10 ++ 0#1 ++ 0#8 ++ 0#5 ++ op : Word) := by
  unfold jWord
  rw [show 0x0000007f#32 = (0#1 ++ 0#10 ++ 0#1 ++ 0#8 ++ 0#5 ++ BitVec.allOnes 7 : Word) from rfl]
  repeat rw [BitVec.and_append]
  simp only [BitVec.and_zero, BitVec.and_allOnes]

theorem cLdspHalf_mask : (cLdspHalf o9 rd).setWidth 32 &&& 0xe003#32 = (0b011#3 ++ 0#1 ++ 0#5 ++ 0#2 ++ 0#3 ++ 0b10#2 : Half).setWidth 32 := by
  have e : cLdspHalf o9 rd &&& 0xe003#16 = (0b011#3 ++ 0#1 ++ 0#5 ++ 0#2 ++ 0#3 ++ 0b10#2 : Half) := by
    unfold cLdspHalf
    rw [show 0xe003#16 = (BitVec.allOnes 3 ++ 0#1 ++ 0#5 ++ 0#2 ++ 0#3 ++ BitVec.allOnes 2 : Half) from rfl]
    repeat rw [BitVec.and_append]
    simp only [BitVec.and_zero, BitVec.and_allOnes]
  rw [← e, BitVec.setWidth_and]
  rfl

theorem cSdspHalf_mask : (cSdspHalf o9 rd).setWidth 32 &&& 0xe003#32 = (0b111#3 ++ 0#3 ++ 0#3 ++ 0#5 ++ 0b10#2 : Half).setWidth 32 := by
  have e : cSdspHalf o9 rd &&& 0xe003#16 = (0b111#3 ++ 0#3 ++ 0#3 ++ 0#5 ++ 0b10#2 : Half) := by
    unfold cSdspHalf
    rw [show 0xe003#16 = (BitVec.allOnes 3 ++ 0#3 ++ 0#3 ++ 0#5 ++ BitVec.allOnes 2 : Half) from rfl]
    repeat rw [BitVec.and_append]
    simp only [BitVec.and_zero, BitVec.and_allOnes]
  rw [← e, BitVec.setWidth_and]
  rfl

theorem cPairHalf_mask : (cPairHalf f3 o8 k k').setWidth 32 &&& 0xe003#32 = (f3 ++ 0#3 ++ 0#3 ++ 0#2 ++ 0#3 ++ 0b00#2 : Half).setWidth 32 := by
  have e : cPairHalf f3 o8 k k' &&& 0xe003#16 = (f3 ++ 0#3 ++ 0#3 ++ 0#2 ++ 0#3 ++ 0b00#2 : Half) := by
    unfold cPairHalf
    rw [show 0xe003#16 = (BitVec.allOnes 3 ++ 0#3 ++ 0#3 ++ 0#2 ++ 0#3 ++ BitVec.allOnes 2 : Half) from rfl]
    repeat rw [BitVec.and_append]
    simp only [BitVec.and_zero, BitVec.and_allOnes]
  rw [← e, BitVec.setWidth_and]
  rfl

end

/-- An instruction's bits match the row of its mnemonic, which needs the extensions the instruction needs (R94). -/
def Laws.RowOf.Statement (i : Instr) : Prop :=
  ∃ row ∈ opcodeTable, row.mnemonic = i.mnemonic ∧ row.needs = i.needs ∧ row.hits (encodeRaw i) = true

theorem hits_word {row : OpcodeRow} {w : Word} (hf : (row.format != .c16) = true) (h : w &&& row.mask = row.pattern) :
    row.hits (.word w) = true := by
  simp [OpcodeRow.hits, h]; simpa using hf

theorem hits_parcel {row : OpcodeRow} {p : Half} (hf : (row.format == .c16) = true)
    (h : p.setWidth 32 &&& row.mask = row.pattern) : row.hits (.parcel p) = true := by
  simp [OpcodeRow.hits, h]; simpa using hf

namespace Laws.RowOf

theorem sll (rd rs1 rs2 : Reg) : Statement (.sll rd rs1 rs2) :=
  ⟨⟨"sll", .r, 0xfe00707f#32, 0x00001033#32, Extensions.base⟩, by decide, rfl, rfl,
    hits_word rfl (rWord_mask ..)⟩

theorem srl (rd rs1 rs2 : Reg) : Statement (.srl rd rs1 rs2) :=
  ⟨⟨"srl", .r, 0xfe00707f#32, 0x00005033#32, Extensions.base⟩, by decide, rfl, rfl,
    hits_word rfl (rWord_mask ..)⟩

theorem sra (rd rs1 rs2 : Reg) : Statement (.sra rd rs1 rs2) :=
  ⟨⟨"sra", .r, 0xfe00707f#32, 0x40005033#32, Extensions.base⟩, by decide, rfl, rfl,
    hits_word rfl (rWord_mask ..)⟩

theorem add (rd rs1 rs2 : Reg) : Statement (.add rd rs1 rs2) :=
  ⟨⟨"add", .r, 0xfe00707f#32, 0x00000033#32, Extensions.base⟩, by decide, rfl, rfl,
    hits_word rfl (rWord_mask ..)⟩

theorem sub (rd rs1 rs2 : Reg) : Statement (.sub rd rs1 rs2) :=
  ⟨⟨"sub", .r, 0xfe00707f#32, 0x40000033#32, Extensions.base⟩, by decide, rfl, rfl,
    hits_word rfl (rWord_mask ..)⟩

theorem xor (rd rs1 rs2 : Reg) : Statement (.xor rd rs1 rs2) :=
  ⟨⟨"xor", .r, 0xfe00707f#32, 0x00004033#32, Extensions.base⟩, by decide, rfl, rfl,
    hits_word rfl (rWord_mask ..)⟩

theorem or (rd rs1 rs2 : Reg) : Statement (.or rd rs1 rs2) :=
  ⟨⟨"or", .r, 0xfe00707f#32, 0x00006033#32, Extensions.base⟩, by decide, rfl, rfl,
    hits_word rfl (rWord_mask ..)⟩

theorem and (rd rs1 rs2 : Reg) : Statement (.and rd rs1 rs2) :=
  ⟨⟨"and", .r, 0xfe00707f#32, 0x00007033#32, Extensions.base⟩, by decide, rfl, rfl,
    hits_word rfl (rWord_mask ..)⟩

theorem slt (rd rs1 rs2 : Reg) : Statement (.slt rd rs1 rs2) :=
  ⟨⟨"slt", .r, 0xfe00707f#32, 0x00002033#32, Extensions.base⟩, by decide, rfl, rfl,
    hits_word rfl (rWord_mask ..)⟩

theorem sltu (rd rs1 rs2 : Reg) : Statement (.sltu rd rs1 rs2) :=
  ⟨⟨"sltu", .r, 0xfe00707f#32, 0x00003033#32, Extensions.base⟩, by decide, rfl, rfl,
    hits_word rfl (rWord_mask ..)⟩

theorem slli (rd rs1 : Reg) (shamt : BitVec 5) : Statement (.slli rd rs1 shamt) :=
  ⟨⟨"slli", .i, 0xfe00707f#32, 0x00001013#32, Extensions.base⟩, by decide, rfl, rfl,
    hits_word rfl (rWord_mask ..)⟩

theorem srli (rd rs1 : Reg) (shamt : BitVec 5) : Statement (.srli rd rs1 shamt) :=
  ⟨⟨"srli", .i, 0xfe00707f#32, 0x00005013#32, Extensions.base⟩, by decide, rfl, rfl,
    hits_word rfl (rWord_mask ..)⟩

theorem srai (rd rs1 : Reg) (shamt : BitVec 5) : Statement (.srai rd rs1 shamt) :=
  ⟨⟨"srai", .i, 0xfe00707f#32, 0x40005013#32, Extensions.base⟩, by decide, rfl, rfl,
    hits_word rfl (rWord_mask ..)⟩

theorem addi (rd rs1 : Reg) (imm : BitVec 12) : Statement (.addi rd rs1 imm) :=
  ⟨⟨"addi", .i, 0x0000707f#32, 0x00000013#32, Extensions.base⟩, by decide, rfl, rfl,
    hits_word rfl (iWord_mask ..)⟩

theorem xori (rd rs1 : Reg) (imm : BitVec 12) : Statement (.xori rd rs1 imm) :=
  ⟨⟨"xori", .i, 0x0000707f#32, 0x00004013#32, Extensions.base⟩, by decide, rfl, rfl,
    hits_word rfl (iWord_mask ..)⟩

theorem ori (rd rs1 : Reg) (imm : BitVec 12) : Statement (.ori rd rs1 imm) :=
  ⟨⟨"ori", .i, 0x0000707f#32, 0x00006013#32, Extensions.base⟩, by decide, rfl, rfl,
    hits_word rfl (iWord_mask ..)⟩

theorem andi (rd rs1 : Reg) (imm : BitVec 12) : Statement (.andi rd rs1 imm) :=
  ⟨⟨"andi", .i, 0x0000707f#32, 0x00007013#32, Extensions.base⟩, by decide, rfl, rfl,
    hits_word rfl (iWord_mask ..)⟩

theorem slti (rd rs1 : Reg) (imm : BitVec 12) : Statement (.slti rd rs1 imm) :=
  ⟨⟨"slti", .i, 0x0000707f#32, 0x00002013#32, Extensions.base⟩, by decide, rfl, rfl,
    hits_word rfl (iWord_mask ..)⟩

theorem sltiu (rd rs1 : Reg) (imm : BitVec 12) : Statement (.sltiu rd rs1 imm) :=
  ⟨⟨"sltiu", .i, 0x0000707f#32, 0x00003013#32, Extensions.base⟩, by decide, rfl, rfl,
    hits_word rfl (iWord_mask ..)⟩

theorem lw (rd : Reg) (offset : BitVec 12) (rs1 : Reg) : Statement (.lw rd offset rs1) :=
  ⟨⟨"lw", .i, 0x0000707f#32, 0x00002003#32, Extensions.base⟩, by decide, rfl, rfl,
    hits_word rfl (iWord_mask ..)⟩

theorem lh (rd : Reg) (offset : BitVec 12) (rs1 : Reg) : Statement (.lh rd offset rs1) :=
  ⟨⟨"lh", .i, 0x0000707f#32, 0x00001003#32, Extensions.base⟩, by decide, rfl, rfl,
    hits_word rfl (iWord_mask ..)⟩

theorem lb (rd : Reg) (offset : BitVec 12) (rs1 : Reg) : Statement (.lb rd offset rs1) :=
  ⟨⟨"lb", .i, 0x0000707f#32, 0x00000003#32, Extensions.base⟩, by decide, rfl, rfl,
    hits_word rfl (iWord_mask ..)⟩

theorem lhu (rd : Reg) (offset : BitVec 12) (rs1 : Reg) : Statement (.lhu rd offset rs1) :=
  ⟨⟨"lhu", .i, 0x0000707f#32, 0x00005003#32, Extensions.base⟩, by decide, rfl, rfl,
    hits_word rfl (iWord_mask ..)⟩

theorem lbu (rd : Reg) (offset : BitVec 12) (rs1 : Reg) : Statement (.lbu rd offset rs1) :=
  ⟨⟨"lbu", .i, 0x0000707f#32, 0x00004003#32, Extensions.base⟩, by decide, rfl, rfl,
    hits_word rfl (iWord_mask ..)⟩

theorem lui (rd : Reg) (imm : BitVec 20) : Statement (.lui rd imm) :=
  ⟨⟨"lui", .u, 0x0000007f#32, 0x00000037#32, Extensions.base⟩, by decide, rfl, rfl,
    hits_word rfl (uWord_mask ..)⟩

theorem auipc (rd : Reg) (imm : BitVec 20) : Statement (.auipc rd imm) :=
  ⟨⟨"auipc", .u, 0x0000007f#32, 0x00000017#32, Extensions.base⟩, by decide, rfl, rfl,
    hits_word rfl (uWord_mask ..)⟩

theorem beq (rs1 rs2 : Reg) (offset : BitVec 13) : Statement (.beq rs1 rs2 offset) :=
  ⟨⟨"beq", .b, 0x0000707f#32, 0x00000063#32, Extensions.base⟩, by decide, rfl, rfl,
    hits_word rfl (bWord_mask ..)⟩

theorem bne (rs1 rs2 : Reg) (offset : BitVec 13) : Statement (.bne rs1 rs2 offset) :=
  ⟨⟨"bne", .b, 0x0000707f#32, 0x00001063#32, Extensions.base⟩, by decide, rfl, rfl,
    hits_word rfl (bWord_mask ..)⟩

theorem blt (rs1 rs2 : Reg) (offset : BitVec 13) : Statement (.blt rs1 rs2 offset) :=
  ⟨⟨"blt", .b, 0x0000707f#32, 0x00004063#32, Extensions.base⟩, by decide, rfl, rfl,
    hits_word rfl (bWord_mask ..)⟩

theorem bge (rs1 rs2 : Reg) (offset : BitVec 13) : Statement (.bge rs1 rs2 offset) :=
  ⟨⟨"bge", .b, 0x0000707f#32, 0x00005063#32, Extensions.base⟩, by decide, rfl, rfl,
    hits_word rfl (bWord_mask ..)⟩

theorem bltu (rs1 rs2 : Reg) (offset : BitVec 13) : Statement (.bltu rs1 rs2 offset) :=
  ⟨⟨"bltu", .b, 0x0000707f#32, 0x00006063#32, Extensions.base⟩, by decide, rfl, rfl,
    hits_word rfl (bWord_mask ..)⟩

theorem bgeu (rs1 rs2 : Reg) (offset : BitVec 13) : Statement (.bgeu rs1 rs2 offset) :=
  ⟨⟨"bgeu", .b, 0x0000707f#32, 0x00007063#32, Extensions.base⟩, by decide, rfl, rfl,
    hits_word rfl (bWord_mask ..)⟩

theorem jal (rd : Reg) (offset : BitVec 21) : Statement (.jal rd offset) :=
  ⟨⟨"jal", .j, 0x0000007f#32, 0x0000006f#32, Extensions.base⟩, by decide, rfl, rfl,
    hits_word rfl (jWord_mask ..)⟩

theorem jalr (rd rs1 : Reg) (imm : BitVec 12) : Statement (.jalr rd rs1 imm) :=
  ⟨⟨"jalr", .i, 0x0000707f#32, 0x00000067#32, Extensions.base⟩, by decide, rfl, rfl,
    hits_word rfl (iWord_mask ..)⟩

theorem sw (rs2 : Reg) (offset : BitVec 12) (rs1 : Reg) : Statement (.sw rs2 offset rs1) :=
  ⟨⟨"sw", .s, 0x0000707f#32, 0x00002023#32, Extensions.base⟩, by decide, rfl, rfl,
    hits_word rfl (sWord_mask ..)⟩

theorem sh (rs2 : Reg) (offset : BitVec 12) (rs1 : Reg) : Statement (.sh rs2 offset rs1) :=
  ⟨⟨"sh", .s, 0x0000707f#32, 0x00001023#32, Extensions.base⟩, by decide, rfl, rfl,
    hits_word rfl (sWord_mask ..)⟩

theorem sb (rs2 : Reg) (offset : BitVec 12) (rs1 : Reg) : Statement (.sb rs2 offset rs1) :=
  ⟨⟨"sb", .s, 0x0000707f#32, 0x00000023#32, Extensions.base⟩, by decide, rfl, rfl,
    hits_word rfl (sWord_mask ..)⟩

theorem ebreak : Statement (.ebreak) :=
  ⟨⟨"ebreak", .i, 0xffffffff#32, 0x00100073#32, Extensions.base⟩, by decide, rfl, rfl,
    hits_word rfl rfl⟩

theorem ld (rd : Reg) (offset : BitVec 12) (rs1 : Reg) : Statement (.ld rd offset rs1) :=
  ⟨⟨"ld", .i, 0x0000707f#32, 0x00003003#32, { zilsd := true, zclsd := false }⟩, by decide, rfl, rfl,
    hits_word rfl (iWord_mask ..)⟩

theorem sd (rs2 : Reg) (offset : BitVec 12) (rs1 : Reg) : Statement (.sd rs2 offset rs1) :=
  ⟨⟨"sd", .s, 0x0000707f#32, 0x00003023#32, { zilsd := true, zclsd := false }⟩, by decide, rfl, rfl,
    hits_word rfl (sWord_mask ..)⟩

theorem cLdsp (rd : Reg) (offset : BitVec 9) : Statement (.cLdsp rd offset) :=
  ⟨⟨"c.ldsp", .c16, 0xe003#32, 0x6002#32, Extensions.all⟩, by decide, rfl, rfl,
    hits_parcel rfl (cLdspHalf_mask ..)⟩

theorem cSdsp (rs2 : Reg) (offset : BitVec 9) : Statement (.cSdsp rs2 offset) :=
  ⟨⟨"c.sdsp", .c16, 0xe003#32, 0xe002#32, Extensions.all⟩, by decide, rfl, rfl,
    hits_parcel rfl (cSdspHalf_mask ..)⟩

theorem cLd (rd : CReg) (offset : BitVec 8) (rs1 : CReg) : Statement (.cLd rd offset rs1) :=
  ⟨⟨"c.ld", .c16, 0xe003#32, 0x6000#32, Extensions.all⟩, by decide, rfl, rfl,
    hits_parcel rfl (cPairHalf_mask ..)⟩

theorem cSd (rs2 : CReg) (offset : BitVec 8) (rs1 : CReg) : Statement (.cSd rs2 offset rs1) :=
  ⟨⟨"c.sd", .c16, 0xe003#32, 0xe000#32, Extensions.all⟩, by decide, rfl, rfl,
    hits_parcel rfl (cPairHalf_mask ..)⟩

end Laws.RowOf

end Sys2Proof
end

