-- ==== Sys2Proof/Machine/SourceText.lean ====
section
/-! DEFINITION. Reading source text (R221): one instruction a line, operands separated by commas, `name:` before an
instruction, `#` before a comment. What R221 leaves open is in log 17. -/

namespace Sys2Proof.Machine

/-- A space or a tab. -/
def isBlank (c : Char) : Bool := c = ' ' || c = '\t'

/-- Without the blanks at both ends. -/
def trimChars (cs : List Char) : List Char := ((cs.dropWhile isBlank).reverse.dropWhile isBlank).reverse

/-- A character of a name. DESIGN CHOICE (log 17): R221 says only `name:`; the model takes the ASCII letters and digits, `_` and `.`. -/
def isNameChar (c : Char) : Bool := c.isAlphanum || c = '_' || c = '.'

/-- The value of a digit in base 16; base 10 uses the first ten. DESIGN CHOICE (log 17): `a` to `f` in either case. -/
def digitValue (c : Char) : Option Nat :=
  if '0' ≤ c ∧ c ≤ '9' then some (c.toNat - 48)
  else if 'a' ≤ c ∧ c ≤ 'f' then some (c.toNat - 87)
  else if 'A' ≤ c ∧ c ≤ 'F' then some (c.toNat - 55)
  else none

/-- The digits of a number in a base, added to what the digits before them gave. -/
def digits (base acc : Nat) : List Char → Option Nat
  | [] => some acc
  | c :: cs =>
    match digitValue c with
    | some d => if d < base then digits base (acc * base + d) cs else none
    | none => none

/-- A decimal number, or a hexadecimal one with prefix `0x` (R221), the `x` in lower case. -/
def natural : List Char → Option Nat
  | [] => none
  | '0' :: 'x' :: [] => none
  | '0' :: 'x' :: cs => digits 16 0 cs
  | cs => digits 10 0 cs

/-- A number, possibly negative. DESIGN CHOICE (log 17): R221 speaks of negative decimal numbers only; the model takes a `-` before a
hexadecimal one too (`-0x10`). -/
def integer : List Char → Option Int
  | '-' :: cs => (natural cs).map fun n => -(n : Int)
  | cs => (natural cs).map fun n => (n : Int)

/-- A name. DESIGN CHOICE (log 17): it starts with no digit, and `.` alone is none. -/
def name (cs : List Char) : Option String :=
  match cs with
  | [] => none
  | c :: _ => if cs.all isNameChar && !c.isDigit && cs != ['.'] then some (String.ofList cs) else none

/-- What stands before and after the first character that satisfies a test, that character dropped. -/
def splitFirst (p : Char → Bool) : List Char → List Char × Option (List Char)
  | [] => ([], none)
  | c :: cs =>
    if p c then ([], some cs)
    else
      let rest := splitFirst p cs
      (c :: rest.1, rest.2)

/-- `offset(base)`. -/
def memoryOperand (cs : List Char) : Option Operand :=
  match splitFirst (· = '(') cs with
  | (_, none) => none
  | (before, some inside) =>
    match inside.reverse with
    | ')' :: base =>
      match integer (trimChars before), name (trimChars base.reverse) with
      | some offset, some r => (regNamed r).map (.mem offset)
      | _, _ => none
    | _ => none

/-- A label, or a label plus a constant (R221: "with an added constant", so no constant is taken away). -/
def labelOperand (cs : List Char) : Option Operand :=
  match splitFirst (· = '+') cs with
  | (n, none) => (name (trimChars n)).map fun s => .label s 0
  | (n, some k) =>
    match name (trimChars n), natural (trimChars k) with
    | some s, some v => some (.label s v)
    | _, _ => none

/-- An operand (R221). -/
def operand (text : List Char) : Option Operand :=
  let cs := trimChars text
  match cs with
  | '.' :: '+' :: ds => (natural (trimChars ds)).map fun n => .here n
  | '.' :: '-' :: ds => (natural (trimChars ds)).map fun n => .here (-(n : Int))
  | _ =>
    match (name cs).bind regNamed, integer cs, memoryOperand cs with
    | some r, _, _ => some (.reg r)
    | none, some v, _ => some (.num v)
    | none, none, some o => some o
    | none, none, none => labelOperand cs

/-- The pieces between commas. -/
def splitCommas : List Char → List (List Char)
  | [] => [[]]
  | c :: cs =>
    match splitCommas cs with
    | [] => [[c]]
    | p :: ps => if c = ',' then [] :: p :: ps else (c :: p) :: ps

/-- The operands after a mnemonic. -/
def operands (text : List Char) : Option (List Operand) :=
  if (trimChars text).isEmpty then some [] else (splitCommas text).mapM operand

/-- A mnemonic and its operands, or nothing. -/
def body (text : List Char) : Except AsmError (Option Line) :=
  let cs := trimChars text
  if cs.isEmpty then .ok none
  else
    let parts := splitFirst isBlank cs
    match name parts.1, operands (parts.2.getD []) with
    | some m, some ops => .ok (some { mnemonic := m, operands := ops })
    | _, _ => .error .badText

/-- One line of source. -/
def sourceLine (text : List Char) : Except AsmError SourceLine :=
  let code := (splitFirst (· = '#') text).1
  match splitFirst (· = ':') code with
  | (_, none) => (body code).map fun b => { label := none, body := b }
  | (l, some rest) =>
    match name (trimChars l) with
    | some s => (body rest).map fun b => { label := some s, body := b }
    | none => .error .badText

/-- Assemble one line of text that needs no labels. -/
def assembleText (here : Word) (text : String) : Except AsmError (List Instr) :=
  (sourceLine text.toList).bind fun l =>
    match l.body with
    | some line => assembleLine Extensions.base [] here line
    | none => .ok []

/-- Assemble a program given as lines of text. -/
def assembleSource (base : Word) (lines : List String) : Except AsmError (List (Word × Instr)) :=
  (lines.mapM fun l => sourceLine l.toList).bind (assemble Extensions.base base)

end Sys2Proof.Machine
end

