-- ==== Sys2Proof/Tests/Slice0.lean ====
section
/-! SUPPORT. The model's own tests, each a named theorem: ill-formed terms that the checks refuse, words written out field by field
from the encodings of 30_encoding.md and 49_zilsd_zclsd_optional.md, one step of each instruction with the values that the spec's own
examples and vectors give, and for every statement with hypotheses a state and operands that meet them. -/

namespace Sys2Proof.Tests

open Sys2Proof Sys2Proof.Machine

/-! ### WellFormed: each check refuses its ill-formed term, and the boundary values pass -/

theorem test_branch_offset_odd : (Instr.beq 1 2 5#13).wf = false ∧ (Instr.bne 1 2 7#13).wf = false ∧
    (Instr.blt 1 2 1#13).wf = false ∧ (Instr.bge 1 2 3#13).wf = false ∧ (Instr.bltu 1 2 0x1fff#13).wf = false ∧
    (Instr.bgeu 1 2 9#13).wf = false ∧ (Instr.beq 1 2 0x1ffe#13).wf = true := by decide
theorem test_jal_offset_odd : (Instr.jal 1 1#21).wf = false ∧ (Instr.jal 1 0x1ffffe#21).wf = true := by decide
theorem test_ld_pair_odd : (Instr.ld 11 0 2).wf = false ∧ (Instr.ld 30 0 2).wf = true ∧ (Instr.ld 0 0 2).wf = true := by decide
theorem test_sd_pair_odd : (Instr.sd 31 0 2).wf = false ∧ (Instr.sd 0 0 2).wf = true := by decide
theorem test_cLdsp_ill_formed : (Instr.cLdsp 11 8).wf = false ∧ (Instr.cLdsp 0 8).wf = false ∧ (Instr.cLdsp 10 4).wf = false ∧
    (Instr.cLdsp 10 504).wf = true := by decide
theorem test_cSdsp_ill_formed : (Instr.cSdsp 1 8).wf = false ∧ (Instr.cSdsp 10 12).wf = false ∧ (Instr.cSdsp 0 504).wf = true := by
  decide
theorem test_cLd_ill_formed : (Instr.cLd 1 8 0).wf = false ∧ (Instr.cLd 2 2 0).wf = false ∧ (Instr.cLd 6 248 7).wf = true := by decide
theorem test_cSd_ill_formed : (Instr.cSd 3 8 0).wf = false ∧ (Instr.cSd 2 1 0).wf = false ∧ (Instr.cSd 0 248 7).wf = true := by decide

/-! ### Decoding: every constructor from its word, field by field as its encoding row has them (R73, R82 to R91) -/

theorem test_decode_sll : decodeWord .base (0b0000000#7 ++ 0b01100#5 ++ 0b01011#5 ++ 0b001#3 ++ 0b01010#5 ++ 0b0110011#7) = .ok (.sll 10 11 12) := by decide
theorem test_decode_srl : decodeWord .base (0b0000000#7 ++ 0b01100#5 ++ 0b01011#5 ++ 0b101#3 ++ 0b01010#5 ++ 0b0110011#7) = .ok (.srl 10 11 12) := by decide
theorem test_decode_sra : decodeWord .base (0b0100000#7 ++ 0b01100#5 ++ 0b01011#5 ++ 0b101#3 ++ 0b01010#5 ++ 0b0110011#7) = .ok (.sra 10 11 12) := by decide
theorem test_decode_add : decodeWord .base (0b0000000#7 ++ 0b01100#5 ++ 0b01011#5 ++ 0b000#3 ++ 0b01010#5 ++ 0b0110011#7) = .ok (.add 10 11 12) := by decide
theorem test_decode_sub : decodeWord .base (0b0100000#7 ++ 0b01100#5 ++ 0b01011#5 ++ 0b000#3 ++ 0b01010#5 ++ 0b0110011#7) = .ok (.sub 10 11 12) := by decide
theorem test_decode_xor : decodeWord .base (0b0000000#7 ++ 0b01100#5 ++ 0b01011#5 ++ 0b100#3 ++ 0b01010#5 ++ 0b0110011#7) = .ok (.xor 10 11 12) := by decide
theorem test_decode_or : decodeWord .base (0b0000000#7 ++ 0b01100#5 ++ 0b01011#5 ++ 0b110#3 ++ 0b01010#5 ++ 0b0110011#7) = .ok (.or 10 11 12) := by decide
theorem test_decode_and : decodeWord .base (0b0000000#7 ++ 0b01100#5 ++ 0b01011#5 ++ 0b111#3 ++ 0b01010#5 ++ 0b0110011#7) = .ok (.and 10 11 12) := by decide
theorem test_decode_slt : decodeWord .base (0b0000000#7 ++ 0b01100#5 ++ 0b01011#5 ++ 0b010#3 ++ 0b01010#5 ++ 0b0110011#7) = .ok (.slt 10 11 12) := by decide
theorem test_decode_sltu : decodeWord .base (0b0000000#7 ++ 0b01100#5 ++ 0b01011#5 ++ 0b011#3 ++ 0b01010#5 ++ 0b0110011#7) = .ok (.sltu 10 11 12) := by decide
theorem test_decode_slli : decodeWord .base (0b0000000#7 ++ 0b10110#5 ++ 0b01011#5 ++ 0b001#3 ++ 0b01010#5 ++ 0b0010011#7) = .ok (.slli 10 11 0b10110#5) := by decide
theorem test_decode_srli : decodeWord .base (0b0000000#7 ++ 0b10110#5 ++ 0b01011#5 ++ 0b101#3 ++ 0b01010#5 ++ 0b0010011#7) = .ok (.srli 10 11 0b10110#5) := by decide
theorem test_decode_srai : decodeWord .base (0b0100000#7 ++ 0b10110#5 ++ 0b01011#5 ++ 0b101#3 ++ 0b01010#5 ++ 0b0010011#7) = .ok (.srai 10 11 0b10110#5) := by decide
theorem test_decode_addi : decodeWord .base (0b101100011010#12 ++ 0b01011#5 ++ 0b000#3 ++ 0b01010#5 ++ 0b0010011#7) = .ok (.addi 10 11 0b101100011010#12) := by decide
theorem test_decode_xori : decodeWord .base (0b101100011010#12 ++ 0b01011#5 ++ 0b100#3 ++ 0b01010#5 ++ 0b0010011#7) = .ok (.xori 10 11 0b101100011010#12) := by decide
theorem test_decode_ori : decodeWord .base (0b101100011010#12 ++ 0b01011#5 ++ 0b110#3 ++ 0b01010#5 ++ 0b0010011#7) = .ok (.ori 10 11 0b101100011010#12) := by decide
theorem test_decode_andi : decodeWord .base (0b101100011010#12 ++ 0b01011#5 ++ 0b111#3 ++ 0b01010#5 ++ 0b0010011#7) = .ok (.andi 10 11 0b101100011010#12) := by decide
theorem test_decode_slti : decodeWord .base (0b101100011010#12 ++ 0b01011#5 ++ 0b010#3 ++ 0b01010#5 ++ 0b0010011#7) = .ok (.slti 10 11 0b101100011010#12) := by decide
theorem test_decode_sltiu : decodeWord .base (0b101100011010#12 ++ 0b01011#5 ++ 0b011#3 ++ 0b01010#5 ++ 0b0010011#7) = .ok (.sltiu 10 11 0b101100011010#12) := by decide
theorem test_decode_lw : decodeWord .base (0b101100011010#12 ++ 0b01011#5 ++ 0b010#3 ++ 0b01010#5 ++ 0b0000011#7) = .ok (.lw 10 0b101100011010#12 11) := by decide
theorem test_decode_lh : decodeWord .base (0b101100011010#12 ++ 0b01011#5 ++ 0b001#3 ++ 0b01010#5 ++ 0b0000011#7) = .ok (.lh 10 0b101100011010#12 11) := by decide
theorem test_decode_lb : decodeWord .base (0b101100011010#12 ++ 0b01011#5 ++ 0b000#3 ++ 0b01010#5 ++ 0b0000011#7) = .ok (.lb 10 0b101100011010#12 11) := by decide
theorem test_decode_lhu : decodeWord .base (0b101100011010#12 ++ 0b01011#5 ++ 0b101#3 ++ 0b01010#5 ++ 0b0000011#7) = .ok (.lhu 10 0b101100011010#12 11) := by decide
theorem test_decode_lbu : decodeWord .base (0b101100011010#12 ++ 0b01011#5 ++ 0b100#3 ++ 0b01010#5 ++ 0b0000011#7) = .ok (.lbu 10 0b101100011010#12 11) := by decide
theorem test_decode_lui : decodeWord .base (0b10110001101000101110#20 ++ 0b01010#5 ++ 0b0110111#7) = .ok (.lui 10 0b10110001101000101110#20) := by decide
theorem test_decode_auipc : decodeWord .base (0b10110001101000101110#20 ++ 0b01010#5 ++ 0b0010111#7) = .ok (.auipc 10 0b10110001101000101110#20) := by decide
theorem test_decode_beq : decodeWord .base (0b1#1 ++ 0b101100#6 ++ 0b01100#5 ++ 0b01011#5 ++ 0b000#3 ++ 0b0110#4 ++ 0b0#1 ++ 0b1100011#7) = .ok (.beq 11 12 0b1010110001100#13) := by decide
theorem test_decode_bne : decodeWord .base (0b1#1 ++ 0b101100#6 ++ 0b01100#5 ++ 0b01011#5 ++ 0b001#3 ++ 0b0110#4 ++ 0b0#1 ++ 0b1100011#7) = .ok (.bne 11 12 0b1010110001100#13) := by decide
theorem test_decode_blt : decodeWord .base (0b1#1 ++ 0b101100#6 ++ 0b01100#5 ++ 0b01011#5 ++ 0b100#3 ++ 0b0110#4 ++ 0b0#1 ++ 0b1100011#7) = .ok (.blt 11 12 0b1010110001100#13) := by decide
theorem test_decode_bge : decodeWord .base (0b1#1 ++ 0b101100#6 ++ 0b01100#5 ++ 0b01011#5 ++ 0b101#3 ++ 0b0110#4 ++ 0b0#1 ++ 0b1100011#7) = .ok (.bge 11 12 0b1010110001100#13) := by decide
theorem test_decode_bltu : decodeWord .base (0b1#1 ++ 0b101100#6 ++ 0b01100#5 ++ 0b01011#5 ++ 0b110#3 ++ 0b0110#4 ++ 0b0#1 ++ 0b1100011#7) = .ok (.bltu 11 12 0b1010110001100#13) := by decide
theorem test_decode_bgeu : decodeWord .base (0b1#1 ++ 0b101100#6 ++ 0b01100#5 ++ 0b01011#5 ++ 0b111#3 ++ 0b0110#4 ++ 0b0#1 ++ 0b1100011#7) = .ok (.bgeu 11 12 0b1010110001100#13) := by decide
theorem test_decode_jal : decodeWord .base (0b1#1 ++ 0b1100100011#10 ++ 0b0#1 ++ 0b01100101#8 ++ 0b01010#5 ++ 0b1101111#7) = .ok (.jal 10 0b101100101011001000110#21) := by decide
theorem test_decode_jalr : decodeWord .base (0b101100011010#12 ++ 0b01011#5 ++ 0b000#3 ++ 0b01010#5 ++ 0b1100111#7) = .ok (.jalr 10 11 0b101100011010#12) := by decide
theorem test_decode_sw : decodeWord .base (0b1011000#7 ++ 0b01100#5 ++ 0b01011#5 ++ 0b010#3 ++ 0b11010#5 ++ 0b0100011#7) = .ok (.sw 12 0b101100011010#12 11) := by decide
theorem test_decode_sh : decodeWord .base (0b1011000#7 ++ 0b01100#5 ++ 0b01011#5 ++ 0b001#3 ++ 0b11010#5 ++ 0b0100011#7) = .ok (.sh 12 0b101100011010#12 11) := by decide
theorem test_decode_sb : decodeWord .base (0b1011000#7 ++ 0b01100#5 ++ 0b01011#5 ++ 0b000#3 ++ 0b11010#5 ++ 0b0100011#7) = .ok (.sb 12 0b101100011010#12 11) := by decide
theorem test_decode_ebreak : decodeWord .base (0b000000000001#12 ++ 0b00000#5 ++ 0b000#3 ++ 0b00000#5 ++ 0b1110011#7) = .ok (.ebreak) := by decide
theorem test_decode_ld : decodeWord .all (0b101100011010#12 ++ 0b01011#5 ++ 0b011#3 ++ 0b01010#5 ++ 0b0000011#7) = .ok (.ld 10 0b101100011010#12 11) := by decide
theorem test_decode_sd : decodeWord .all (0b1011000#7 ++ 0b01100#5 ++ 0b01011#5 ++ 0b011#3 ++ 0b11010#5 ++ 0b0100011#7) = .ok (.sd 12 0b101100011010#12 11) := by decide
theorem test_decode_cLdsp : decodeParcel (0b011#3 ++ 0b1#1 ++ 0b01010#5 ++ 0b01#2 ++ 0b110#3 ++ 0b10#2) = .ok (.cLdsp 10 0b110101000#9) := by decide
theorem test_decode_cSdsp : decodeParcel (0b111#3 ++ 0b101#3 ++ 0b110#3 ++ 0b01010#5 ++ 0b10#2) = .ok (.cSdsp 10 0b110101000#9) := by decide
theorem test_decode_cLd : decodeParcel (0b011#3 ++ 0b101#3 ++ 0b011#3 ++ 0b10#2 ++ 0b110#3 ++ 0b00#2) = .ok (.cLd 6 0b10101000#8 3) := by decide
theorem test_decode_cSd : decodeParcel (0b111#3 ++ 0b101#3 ++ 0b011#3 ++ 0b10#2 ++ 0b110#3 ++ 0b00#2) = .ok (.cSd 6 0b10101000#8 3) := by decide

/-- Words that 95_test_vectors.md section 2.2 gives as illegal. -/
theorem test_illegal_words : decodeWord .base 0x00000073#32 = .error .reservedSystem ∧
    decodeWord .base 0x0000000f#32 = .error .unassignedOpcode ∧ decodeWord .base 0x02c58533#32 = .error .reservedFunct ∧
    decodeWord .base 0x02051513#32 = .error .reservedShift ∧ decodeWord .base 0x0085b503#32 = .error .zilsdOff := by decide

/-- The examples of R273 to R276. -/
theorem test_parcel_examples : decodeParcel 0x6542#16 = .ok (.cLdsp 10 16) ∧ decodeParcel 0x757e#16 = .ok (.cLdsp 10 504) ∧
    decodeParcel 0xe82a#16 = .ok (.cSdsp 10 16) ∧ decodeParcel 0xe002#16 = .ok (.cSdsp 0 0) ∧
    decodeParcel 0x7de8#16 = .ok (.cLd 2 248 3) ∧ decodeParcel 0xe588#16 = .ok (.cSd 2 8 3) := by decide

/-- The host's view of the decoder on a 16-bit and on a 32-bit row. -/
theorem test_decode_table_word : decodeTableWord 16 0x6588 = some (.cLd 2 8 3) ∧
    decodeTableWord 32 0x00c58533 = some (.add 10 11 12) ∧ decodeTableWord 32 0x0085b503 = some (.ld 10 8 11) ∧
    decodeTableWord 32 0 = none := by decide

/-! ### One step of each instruction, on the values of the spec's examples -/

/-- The reset state with some registers preset. -/
def preset (regs : List (Nat × Word)) : State :=
  regs.foldl (fun s p => s.writeReg (BitVec.ofNat 5 p.1) p.2) State.reset

/-- With some bytes of memory preset, from `a` on. -/
def bytesAt (s : State) (a : Nat) : List Byte → State
  | [] => s
  | b :: bs => bytesAt { s with mem := Memory.write s.mem a b } (a + 1) bs

/-- The state one step after an instruction was placed at `pc`. -/
def ran (s : State) (nbits w : Nat) : Option State :=
  match step (s.withFetchWord nbits w) with
  | .next t => some t
  | _ => none

/-- A register after that step. -/
def regAfter (s : State) (nbits w : Nat) (r : Reg) : Option Word := (ran s nbits w).map (·.readReg r)

/-- The `pc` after that step. -/
def pcAfter (s : State) (nbits w : Nat) : Option Word := (ran s nbits w).map (·.pc)

/-- The trap record after that step. -/
def trapAfter (s : State) (nbits w : Nat) : Option TrapRecord := (ran s nbits w).bind (·.trap)

/-- Some bytes of memory after that step. -/
def memAfter (s : State) (nbits w : Nat) (as : List Word) : Option (List Byte) := (ran s nbits w).map fun t => as.map t.byteAt

/-- `pc` elsewhere. -/
def at' (s : State) (p : Word) : State := { s with pc := p }

/-- SEC1's Figure 5.4: bytes `fc 65 20 66 69 6c 6c 65` at `0x42..0x49`. -/
def dump (s : State) : State := bytesAt s 0x42 [0xfc, 0x65, 0x20, 0x66, 0x69, 0x6c, 0x6c, 0x65]

theorem test_sll : regAfter (preset [(11, 0x80000001), (12, 0x00000021)]) 32 0x00c59533 10 = some 0x00000002 := by decide
theorem test_srl : regAfter (preset [(11, 0x80000000), (12, 31)]) 32 0x00c5d533 10 = some 0x00000001 := by decide
theorem test_sra : regAfter (preset [(11, 0x80000000), (12, 31)]) 32 0x40c5d533 10 = some 0xffffffff := by decide
theorem test_add_wraps : regAfter (preset [(11, 0x7fffffff), (12, 1)]) 32 0x00c58533 10 = some 0x80000000 := by decide
theorem test_sub_wraps : regAfter (preset [(11, 0), (12, 1)]) 32 0x40c58533 10 = some 0xffffffff := by decide
theorem test_xor : regAfter (preset [(11, 0x0000ff00), (12, 0x00000ff0)]) 32 0x00c5c533 10 = some 0x0000f0f0 := by decide
theorem test_or : regAfter (preset [(11, 0x0000ff00), (12, 0x00000ff0)]) 32 0x00c5e533 10 = some 0x0000fff0 := by decide
theorem test_and : regAfter (preset [(11, 0x0000ff00), (12, 0x00000ff0)]) 32 0x00c5f533 10 = some 0x00000f00 := by decide
theorem test_slt_signed : regAfter (preset [(11, 0xffffffff), (12, 1)]) 32 0x00c5a533 10 = some 1 := by decide
theorem test_sltu_unsigned : regAfter (preset [(11, 0xffffffff), (12, 1)]) 32 0x00c5b533 10 = some 0 := by decide
theorem test_slli : regAfter (preset [(11, 0x87654321)]) 32 0x00459513 10 = some 0x76543210 := by decide
theorem test_srli : regAfter (preset [(11, 0x87654321)]) 32 0x0045d513 10 = some 0x08765432 := by decide
theorem test_srai : regAfter (preset [(11, 0x87654321)]) 32 0x4045d513 10 = some 0xf8765432 := by decide
theorem test_addi : regAfter (preset [(11, 0)]) 32 0xfff58513 10 = some 0xffffffff := by decide
theorem test_xori : regAfter (preset [(11, 0x0000ffff)]) 32 0xfff5c513 10 = some 0xffff0000 := by decide
theorem test_ori : regAfter (preset [(11, 0x0000000f)]) 32 0x0f05e513 10 = some 0x000000ff := by decide
theorem test_andi : regAfter (preset [(11, 0x12345678)]) 32 0xff05f513 10 = some 0x12345670 := by decide
theorem test_slti : regAfter (preset [(11, 0xfffffffe)]) 32 0xfff5a513 10 = some 1 := by decide
theorem test_sltiu : regAfter (preset [(11, 0x80000000)]) 32 0x0015b513 10 = some 0 := by decide
theorem test_lw : regAfter (dump (preset [(11, 0x3a)])) 32 0x0085a503 10 = some 0x662065fc := by decide
theorem test_lh_signed : regAfter (bytesAt (preset [(11, 0x1002)]) 0x1000 [0x00, 0x80]) 32 0xffe59503 10 = some 0xffff8000 := by decide
theorem test_lb_signed : regAfter (dump (preset [(11, 0x42)])) 32 0x00058503 10 = some 0xfffffffc := by decide
theorem test_lhu : regAfter (dump (preset [(11, 0x40)])) 32 0x0025d503 10 = some 0x000065fc := by decide
theorem test_lbu : regAfter (dump (preset [(11, 0x3f)])) 32 0x0035c503 10 = some 0x000000fc := by decide
theorem test_lw_wraps : regAfter (bytesAt (bytesAt (preset [(11, 0xfffffff6)]) 0xfffffffe [1, 2]) 0 []) 32 0x0085a503 10 =
    some 0xa5030201 := by decide
theorem test_lui : regAfter (preset []) 32 0x12345537 10 = some 0x12345000 := by decide
theorem test_auipc : regAfter (at' State.reset 0x8000) 32 0x00001517 10 = some 0x9000 := by decide
theorem test_beq_taken : pcAfter (at' (preset [(4, 9), (5, 9)]) 4) 32 0x00520463 = some 0xc := by decide
theorem test_bne_taken : pcAfter (at' (preset [(10, 1), (11, 2)]) 0x100) 32 0xfeb51ee3 = some 0xfc := by decide
theorem test_blt_signed : pcAfter (at' (preset [(10, 0xffffffff), (11, 0)]) 0x100) 32 0x00b54463 = some 0x108 := by decide
theorem test_bge_not_taken : pcAfter (at' (preset [(10, 0x80000000), (11, 0)]) 0x100) 32 0x00b55463 = some 0x104 := by decide
theorem test_bltu_unsigned : pcAfter (at' (preset [(10, 1), (11, 0xffffffff)]) 0x100) 32 0x00b56463 = some 0x108 := by decide
theorem test_bgeu_unsigned : pcAfter (at' (preset [(10, 0xffffffff), (11, 1)]) 0x100) 32 0x00b57463 = some 0x108 := by decide
theorem test_branch_misaligned : trapAfter State.reset 32 0x00000163 = some ⟨.instructionAddressMisaligned, 0, 2⟩ := by decide
theorem test_jal : pcAfter (at' State.reset 8000) 32 0x3e8000ef = some 9000 ∧
    regAfter (at' State.reset 8000) 32 0x3e8000ef 1 = some 8004 := by decide
theorem test_jalr : pcAfter (at' (preset [(10, 0x1004)]) 0x200) 32 0xffc500e7 = some 0x1000 ∧
    regAfter (at' (preset [(10, 0x1004)]) 0x200) 32 0xffc500e7 1 = some 0x204 := by decide
theorem test_jalr_misaligned : trapAfter (preset [(1, 0x1002)]) 32 0x00008067 =
    some ⟨.instructionAddressMisaligned, 0, 0x1002⟩ := by decide
theorem test_sw : memAfter (preset [(10, 0x12345678), (11, 0x1000)]) 32 0x00a5a423 [0x1008, 0x1009, 0x100a, 0x100b] =
    some [0x78, 0x56, 0x34, 0x12] := by decide
theorem test_sh : memAfter (bytesAt (preset [(10, 0x12345678), (11, 0x1002)]) 0x1002 [0x99]) 32 0xfea59f23 [0x1000, 0x1001, 0x1002] =
    some [0x78, 0x56, 0x99] := by decide
theorem test_sb : memAfter (bytesAt (preset [(10, 0x12345678), (11, 0x1000)]) 0x1001 [0x99]) 32 0x00a58023 [0x1000, 0x1001] =
    some [0x78, 0x99] := by decide
theorem test_ebreak : trapAfter (at' State.reset 0xc) 32 0x00100073 = some ⟨.breakpoint, 0xc, 0xc⟩ := by decide
theorem test_illegal_trap : trapAfter State.reset 32 0xffffffff = some ⟨.illegalInstruction, 0, 0xffffffff⟩ := by decide
theorem test_ld : regAfter (dump (preset [(11, 0x3a)])) 32 0x0085b503 10 = some 0x662065fc ∧
    regAfter (dump (preset [(11, 0x3a)])) 32 0x0085b503 11 = some 0x656c6c69 := by decide
theorem test_sd : memAfter (preset [(10, 0x11223344), (11, 0x1000)]) 32 0x00a5b423
    [0x1008, 0x1009, 0x100a, 0x100b, 0x100c, 0x100d, 0x100e, 0x100f] =
    some [0x44, 0x33, 0x22, 0x11, 0x00, 0x10, 0x00, 0x00] := by decide
theorem test_cLdsp : regAfter (dump (preset [(2, 0x32)])) 16 0x6542 11 = some 0x656c6c69 ∧
    pcAfter (dump (preset [(2, 0x32)])) 16 0x6542 = some 2 := by decide
theorem test_cSdsp_x0 : memAfter (bytesAt (preset [(1, 0xffffffff), (2, 0x1000)]) 0x1004 [0x99]) 16 0xe002 [0x1000, 0x1004] =
    some [0, 0] := by decide
theorem test_cLd : regAfter (dump (preset [(11, 0x3a)])) 16 0x6588 10 = some 0x662065fc := by decide
theorem test_cSd : memAfter (preset [(10, 0x11223344), (11, 0x1000)]) 16 0xe588 [0x1008, 0x100c] = some [0x44, 0x00] := by decide
theorem test_no_step_after_trap : step { State.reset with trap := some ⟨.breakpoint, 0, 0⟩ } =
    .fault (.runEnded ⟨.breakpoint, 0, 0⟩) := rfl

/-! ### The assembler (MAIN's examples: R222, R229; R246) -/

theorem test_assemble_add : assembleText 0 "add a0, a1, a2" = .ok [.add 10 11 12] := by decide
theorem test_assemble_refuses : assembleText 0 "addi a0, a5, 2048" = .error .illegalOperands ∧
    assembleText 0 "addi a0, a5, -3000" = .error .illegalOperands ∧
    assembleText 0 "addi a0, a5, 2047" = .ok [.addi 10 15 2047] := by decide
theorem test_assemble_li : assembleText 0 "li a0, 10000" = .ok [.lui 10 0x2, .addi 10 10 0x710] := by decide
theorem test_assemble_li_correction : assembleText 0 "li a0, 0x12345fff" = .ok [.lui 10 0x12346, .addi 10 10 0xfff] := by decide
theorem test_assemble_label : assembleSource 0x1000 ["loop: nop", "j loop"] = .ok [(0x1000, .addi 0 0 0), (0x1004, .jal 0 0x1ffffc)] := by
  decide

/-! ### States and operands that meet the hypotheses of the statements -/

/-- A machine with the hole 0x104 to 0x107, and `a1 = 0x100`: four backed bytes from 0x100, the hole from 0x104, backed from 0x108. -/
def holed : State :=
  { preset [(11, 0x100), (2, 0x100)] with
    cfg := { Config.default with holes := [⟨0x104, 0x107⟩], ext := Extensions.all, misalignedTrap := [⟨0x10c, 0x10c⟩] } }

/-- `addi a0, a1, -1` at `pc`. -/
def ready : State := (preset [(11, 5)]).withFetchWord 32 0xfff58513

/-- `ebreak` at `pc`. -/
def ending : State := State.reset.withFetchWord 32 0x00100073

theorem witness_encodeThenDecode : (Instr.cLdsp 30 504).wf = true ∧ Extensions.all.zilsd = true ∧ Extensions.all.zclsd = true ∧
    (Instr.beq 1 2 0x1000).wf = true ∧ (Instr.beq 1 2 0x1000).needs = Extensions.base := by decide
theorem witness_decodeThenEncode : decodeRaw .base (.word 0x00c58533#32) = .ok (.add 10 11 12) ∧
    decodeRaw .all (.parcel 0x6588#16) = .ok (.cLd 2 8 3) := by decide
/-- The same bytes with the extensions and without: the 16-bit row is an instruction in the first only. -/
theorem witness_decode_needs : decode .all [0x88, 0x65, 0x13, 0x05] = .ok (.cLd 2 8 3, [0x13, 0x05]) ∧
    decode .base [0x88, 0x65, 0x13, 0x05] = .error .unassignedOpcode ∧
    decode { zilsd := false, zclsd := true } [0x88, 0x65, 0x13, 0x05] = .error .unassignedOpcode := by decide
/-- Every row is hit, by its own pattern: by this the hypotheses on rows, masks and patterns can be met. -/
theorem witness_rows : ∀ row ∈ opcodeTable, row.pattern &&& row.mask = row.pattern ∧
    (row.hits (.word row.pattern) = true ∨ row.hits (.parcel (row.pattern.setWidth 16)) = true) := by decide
theorem witness_shiftUpperBits :
    (fOpcode 0x00459513#32 = 0b0010011#7 ∧ fFunct3 0x00459513#32 = 0b001#3 ∧ fFunct7 0x00459513#32 = 0b0000000#7) ∧
    (fOpcode 0x02059513#32 = 0b0010011#7 ∧ fFunct3 0x02059513#32 = 0b001#3 ∧ fFunct7 0x02059513#32 ≠ 0b0000000#7) ∧
    (fOpcode 0x0045d513#32 = 0b0010011#7 ∧ fFunct3 0x0045d513#32 = 0b101#3 ∧ fFunct7 0x0045d513#32 = 0b0000000#7) ∧
    (fOpcode 0x4045d513#32 = 0b0010011#7 ∧ fFunct3 0x4045d513#32 = 0b101#3 ∧ fFunct7 0x4045d513#32 = 0b0100000#7) ∧
    (fOpcode 0x4205d513#32 = 0b0010011#7 ∧ fFunct3 0x4205d513#32 = 0b101#3 ∧ fFunct7 0x4205d513#32 ≠ 0b0000000#7 ∧
      fFunct7 0x4205d513#32 ≠ 0b0100000#7) := by decide
theorem witness_illegalWords : (0x4501#32).extractLsb' 0 2 ≠ 0b11#2 ∧ Extensions.base.zilsd = false ∧
    (fFunct3 0x0085b503#32 = 0b011#3 ∧ fOpcode 0x0085b503#32 = 0b0000011#7) ∧
    (fFunct3 0x00a5b423#32 = 0b011#3 ∧ fOpcode 0x00a5b423#32 = 0b0100011#7) := by decide

/-- The bytes of `ready` are backed, never stored to, and decode. -/
theorem witness_stepRuns : ready.trap = none ∧ InstrAligned ready.cfg ready.pc ∧ BackedSpan ready.cfg ready.pc 4 ∧
    CleanSpan ready ready.pc 4 ∧
    decode ready.cfg.ext ((List.range 4).map fun k => ready.byteAt (ready.pc + BitVec.ofNat 32 k)) = .ok (.addi 10 11 0xfff, []) := by
  unfold InstrAligned BackedSpan CleanSpan; decide
theorem witness_stepRuns_parcel :
    let s := State.reset.withFetchWord 16 0x6588
    s.trap = none ∧ InstrAligned s.cfg s.pc ∧ BackedSpan s.cfg s.pc 2 ∧ CleanSpan s s.pc 2 ∧
    decode s.cfg.ext ((List.range 2).map fun k => s.byteAt (s.pc + BitVec.ofNat 32 k)) = .ok (.cLd 2 8 3, []) := by
  unfold InstrAligned BackedSpan CleanSpan; decide
theorem witness_stepTakesIllegal :
    let s := State.reset.withFetchWord 32 0xffffffff
    s.trap = none ∧ InstrAligned s.cfg s.pc ∧ BackedSpan s.cfg s.pc 4 ∧ CleanSpan s s.pc 4 ∧
    splitRaw s.cfg.ext ((List.range 4).map fun k => s.byteAt (s.pc + BitVec.ofNat 32 k)) = .ok (.word 0xffffffff, []) ∧
    decodeRaw s.cfg.ext (.word 0xffffffff) = .error .unassignedOpcode := by
  unfold InstrAligned BackedSpan CleanSpan; decide
/-- The four clauses of the fetch exceptions: `pc` 2, `pc` 0x104 without and with parcels, and the second parcel in the hole. -/
theorem witness_fetchExceptions :
    (¬ InstrAligned Config.default 2#32) ∧
    (InstrAligned { holed.cfg with ext := .base } 0x104#32 ∧ ¬ BackedSpan { holed.cfg with ext := .base } 0x104#32 4) ∧
    (holed.cfg.ext.parcels = true ∧ InstrAligned holed.cfg 0x106#32 ∧ ¬ BackedSpan holed.cfg 0x106#32 2) ∧
    (let s := bytesAt (at' holed 0x102) 0x102 [0x13, 0x05]
     s.trap = none ∧ InstrAligned s.cfg s.pc ∧ BackedSpan s.cfg s.pc 2 ∧ CleanSpan s s.pc 2 ∧
     isLong (s.byteAt (s.pc + 1#32) ++ s.byteAt s.pc) = true ∧ ¬ BackedSpan s.cfg (s.pc + 2#32) 2) := by
  unfold InstrAligned BackedSpan CleanSpan; decide
theorem witness_fetchOfStored :
    let s := { ready with dirty := [3] }
    s.trap = none ∧ InstrAligned s.cfg s.pc ∧ s.cfg.ext.parcels = false ∧ BackedSpan s.cfg s.pc 4 ∧
    s.cfg.fetchSeesStores = false ∧ ¬ CleanSpan s s.pc 4 := by
  unfold InstrAligned BackedSpan CleanSpan; decide
theorem witness_fetchOfStored_seen :
    let s := { ready with cfg := { ready.cfg with fetchSeesStores := true } }
    s.trap = none ∧ InstrAligned s.cfg s.pc ∧ s.cfg.ext.parcels = false ∧ BackedSpan s.cfg s.pc 4 ∧
    s.cfg.fetchSeesStores = true := by
  unfold InstrAligned BackedSpan; decide
/-- A machine with parcels whose first parcel, and whose second parcel alone, was stored to. -/
theorem witness_fetchOfStored_parcels :
    let s := { State.reset.withFetchWord 32 0x0085b503 with dirty := [1], cfg := { Config.default with ext := .all } }
    let u := { s with dirty := [2] }
    s.trap = none ∧ InstrAligned s.cfg s.pc ∧ s.cfg.ext.parcels = true ∧ s.cfg.fetchSeesStores = false ∧ BackedSpan s.cfg s.pc 2 ∧
    ¬ CleanSpan s s.pc 2 ∧ CleanSpan u u.pc 2 ∧ BackedSpan u.cfg (u.pc + 2#32) 2 ∧ ¬ CleanSpan u (u.pc + 2#32) 2 ∧
    isLong (u.byteAt (u.pc + 1#32) ++ u.byteAt u.pc) = true := by
  unfold InstrAligned BackedSpan CleanSpan; decide
theorem witness_fetchOfStored_parcels_seen :
    let s := { State.reset.withFetchWord 16 0x6588 with dirty := [1] }
    let u := { s with cfg := { s.cfg with fetchSeesStores := true } }
    u.trap = none ∧ InstrAligned u.cfg u.pc ∧ u.cfg.ext.parcels = true ∧ u.cfg.fetchSeesStores = true ∧ BackedSpan u.cfg u.pc 2 ∧
    isLong (u.byteAt (u.pc + 1#32) ++ u.byteAt u.pc) = false := by
  unfold InstrAligned BackedSpan; decide
/-- A step that completes, with the parameter off. -/
theorem witness_step_next : ready.cfg.fetchSeesStores = false ∧ ready.trap = none ∧
    step ready = .next ((ready.writeReg 10 4).advance 4) := ⟨rfl, rfl, rfl⟩
/-- A step that takes an exception in the base machine. -/
theorem witness_step_trap : ending.cfg.ext = Extensions.base ∧ ending.trap = none ∧
    step ending = .next (ending.endRun .breakpoint 0) ∧ (ending.endRun .breakpoint 0).trap = some ⟨.breakpoint, 0, 0⟩ :=
  ⟨rfl, rfl, rfl, rfl⟩
theorem witness_stepOutcomes : ending.trap = none ∧ (ending.endRun .breakpoint 0).trap = some ⟨.breakpoint, 0, 0⟩ ∧
    ({ ending.cfg with fetchSeesStores := true } : Config).fetchSeesStores = true := by decide
/-- A run that ends. -/
theorem witness_endsIn : EndsIn ending (ending.endRun .breakpoint 0) ⟨.breakpoint, 0, 0⟩ := ⟨1, by decide⟩
/-- A run that is refused. -/
theorem witness_isRefused : IsRefused { ready with dirty := [0] } := ⟨0, _, rfl, rfl, rfl⟩
theorem witness_exceptionCauses : Instr.ebreak.wf = true ∧ ending.trap = none ∧
    exec .ebreak ending = .next (ending.endRun .breakpoint 0) := ⟨rfl, rfl, rfl⟩
theorem witness_inv : Inv ready where
  pcAligned := by unfold InstrAligned; decide
  memoryForm := by decide
  memoryBacked := by decide
  dirtyForm := by decide
  dirtyKnown := by decide
  parameters := by decide
theorem witness_isStart : IsStart ready :=
  ⟨Config.default, (preset [(11, 5)]).regs, ready.mem, by decide, ⟨by decide, by decide⟩, by decide⟩
theorem witness_resetLeaves : Memory.lookup [(8000, 0xef)] (8000#32).toNat = some 0xef#8 ∧ (0 < 31 ∧ 30 < 31) := by decide
theorem witness_onlyWritten : exec (.add 10 11 12) ready = .next ((ready.writeReg 10 5).advance 4) ∧
    (12 : Reg) ∉ destinations (.add 10 11 12) := ⟨rfl, by decide⟩
/-- `x5` differs and is no source of the instruction. -/
theorem witness_onlyRead :
    let s₂ := { ready with regs := (ready.writeReg 5 77).regs }
    (∀ r ∈ sources (.add 10 11 12), s₂.readReg r = ready.readReg r) ∧ s₂.readReg 5 ≠ ready.readReg 5 := by decide
theorem witness_memoryChanges :
    let s := bytesAt (preset [(10, 7), (11, 0x1000)]) 0x1000 [9]
    exec (.sb 10 0 11) s = .next ((s.poke 0x1000 1 (7 : Word)).advance 4) ∧
    ((s.poke 0x1000 1 (7 : Word)).advance 4).byteAt 0x1000 ≠ s.byteAt 0x1000 := ⟨rfl, by decide⟩
theorem witness_memRead : (dump State.reset).memRead 0x42 8 = some 0x656c6c69662065fc := by decide
theorem witness_memWrite : ∃ t, State.reset.memWrite 0xfffffffe 4 (0x44332211 : Word) = some t ∧ t.byteAt 0 = 0x33 := ⟨_, rfl, by decide⟩
theorem witness_bytesWritten : ∃ s₁ s₂ s₃ s₄, State.reset.memWrite 0xfffffffe 1 (0x11 : Word) = some s₁ ∧
    s₁.memWrite (0xfffffffe + 1#32) 1 (0x22 : Word) = some s₂ ∧ s₂.memWrite (0xfffffffe + 2#32) 1 (0x33 : Word) = some s₃ ∧
    s₃.memWrite (0xfffffffe + 3#32) 1 (0x44 : Word) = some s₄ := ⟨_, _, _, _, rfl, rfl, rfl, rfl⟩
/-- Accesses of the loads and the stores, backed up to the hole and not backed at its first byte. -/
theorem witness_accesses : (0x100#32 = holed.readReg 11 + BitVec.ofInt 32 (0#12).toInt ∧
      0x104#32 = holed.readReg 11 + BitVec.ofInt 32 (4#12).toInt) ∧
    (BackedSpan holed.cfg 0x100 4 ∧ BackedSpan holed.cfg 0x100 2 ∧ BackedSpan holed.cfg 0x100 1) ∧
    (¬ BackedSpan holed.cfg 0x104 4 ∧ ¬ BackedSpan holed.cfg 0x104 2 ∧ ¬ BackedSpan holed.cfg 0x104 1) := by
  unfold BackedSpan; decide
/-- Branches: each condition holds and fails, and the target is aligned and misaligned. -/
theorem witness_branches :
    let s := preset [(10, 0x80000000), (11, 1)]
    (s.readReg 11 = s.readReg 11 ∧ ¬ s.readReg 10 = s.readReg 11) ∧
    ((s.readReg 10).toInt < (s.readReg 11).toInt ∧ ¬ (s.readReg 11).toInt < (s.readReg 10).toInt) ∧
    ((s.readReg 11).toNat < (s.readReg 10).toNat ∧ ¬ (s.readReg 10).toNat < (s.readReg 11).toNat) ∧
    InstrAligned s.cfg (s.pc + BitVec.ofInt 32 (8#13).toInt) ∧ ¬ InstrAligned s.cfg (s.pc + BitVec.ofInt 32 (2#13).toInt) := by
  unfold InstrAligned; decide
theorem witness_jumps :
    let s := preset [(10, 0x1001), (11, 0x1002)]
    InstrAligned s.cfg (s.pc + BitVec.ofInt 32 (0x1ffffc#21).toInt) ∧ ¬ InstrAligned s.cfg (s.pc + BitVec.ofInt 32 (2#21).toInt) ∧
    InstrAligned s.cfg (BitVec.ofNat 32 ((s.readReg 10 + BitVec.ofInt 32 (0#12).toInt).toNat / 2 * 2)) ∧
    ¬ InstrAligned s.cfg (BitVec.ofNat 32 ((s.readReg 11 + BitVec.ofInt 32 (0#12).toInt).toNat / 2 * 2)) := by
  unfold InstrAligned; decide
theorem witness_systemWords : fOpcode 0x00100073#32 = 0b1110011#7 ∧ fOpcode 0x00000073#32 = 0b1110011#7 ∧
    0x00000073#32 ≠ 0x00100073#32 := by decide
/-- Pair accesses that complete: `8(a1)`, `8(sp)`, with even registers and the pair 0. -/
theorem witness_pairs : 0x108#32 = holed.readReg 11 + BitVec.ofInt 32 (8#12).toInt ∧
    0x108#32 = holed.readReg 2 + BitVec.ofNat 32 (8#9).toNat ∧
    0x108#32 = holed.readReg (BitVec.ofNat 5 (8 + (3#3).toNat)) + BitVec.ofNat 32 (8#8).toNat ∧
    ((10 : Reg).toNat % 2 = 0 ∧ (0 : Reg).toNat % 2 = 0 ∧ (10 : Reg) ≠ 0#5 ∧ (2 : CReg).toNat % 2 = 0) ∧
    BackedSpan holed.cfg 0x108 8 ∧ zilsdMisalignedTrap holed.cfg 0x108 = false := by
  unfold BackedSpan; decide
/-- Pair accesses that trap: misaligned at `12(a1)`, and half backed at `0(a1)`. -/
theorem witness_pairTraps : 0x10c#32 = holed.readReg 11 + BitVec.ofInt 32 (12#12).toInt ∧
    0x10c#32 = holed.readReg 2 + BitVec.ofNat 32 (12#9).toNat ∧
    0x10c#32 = holed.readReg (BitVec.ofNat 5 (8 + (3#3).toNat)) + BitVec.ofNat 32 (12#8).toNat ∧
    zilsdMisalignedTrap holed.cfg 0x10c = true ∧
    0x100#32 = holed.readReg 11 + BitVec.ofInt 32 (0#12).toInt ∧ 0x100#32 = holed.readReg 2 + BitVec.ofNat 32 (0#9).toNat ∧
    0x100#32 = holed.readReg (BitVec.ofNat 5 (8 + (3#3).toNat)) + BitVec.ofNat 32 (0#8).toNat ∧
    zilsdMisalignedTrap holed.cfg 0x100 = false ∧ ¬ BackedSpan holed.cfg 0x100 8 ∧ BackedSpan holed.cfg 0x100 4 := by
  unfold BackedSpan; decide
theorem witness_reservedPairs :
    (fFunct3 0x0085b583#32 = 0b011#3 ∧ fOpcode 0x0085b583#32 = 0b0000011#7 ∧ (0x0085b583#32).getLsbD 7 = true) ∧
    (fFunct3 0x00b5b423#32 = 0b011#3 ∧ fOpcode 0x00b5b423#32 = 0b0100011#7 ∧ (0x00b5b423#32).getLsbD 20 = true) ∧
    ((0x6002#16).extractLsb' 13 3 = 0b011#3 ∧ (0x6002#16).extractLsb' 0 2 = 0b10#2 ∧ (0x6002#16).extractLsb' 7 5 = 0#5) ∧
    ((0x6082#16).extractLsb' 13 3 = 0b011#3 ∧ (0x6082#16).extractLsb' 0 2 = 0b10#2 ∧ (0x6082#16).getLsbD 7 = true) ∧
    ((0xe006#16).extractLsb' 13 3 = 0b111#3 ∧ (0xe006#16).extractLsb' 0 2 = 0b10#2 ∧ (0xe006#16).getLsbD 2 = true) ∧
    ((0x6004#16).extractLsb' 13 3 = 0b011#3 ∧ (0x6004#16).extractLsb' 0 2 = 0b00#2 ∧ (0x6004#16).getLsbD 2 = true) ∧
    ((0xe004#16).extractLsb' 13 3 = 0b111#3 ∧ (0xe004#16).extractLsb' 0 2 = 0b00#2 ∧ (0xe004#16).getLsbD 2 = true) ∧
    ((31 : Reg).toNat % 2 = 1 ∧ (7 : CReg).toNat % 2 = 1) := by decide
/-- The ends of each range of the assembler's operands, and a value past each. -/
theorem witness_assembler : ((-2048 ≤ (2047 : Int) ∧ (2047 : Int) ≤ 2047) ∧ ¬ (-2048 ≤ (2048 : Int) ∧ (2048 : Int) ≤ 2047)) ∧
    ((0 ≤ (31 : Int) ∧ (31 : Int) ≤ 31) ∧ ¬ (0 ≤ (32 : Int) ∧ (32 : Int) ≤ 31)) ∧
    ((0 ≤ (0xfffff : Int) ∧ (0xfffff : Int) ≤ 0xfffff) ∧ ¬ (0 ≤ (-1 : Int) ∧ (-1 : Int) ≤ 0xfffff)) ∧
    ((-4096 ≤ (4094 : Int) ∧ (4094 : Int) ≤ 4094 ∧ (4094 : Int) % 2 = 0) ∧
      ¬ (-4096 ≤ (4096 : Int) ∧ (4096 : Int) ≤ 4094 ∧ (4096 : Int) % 2 = 0)) ∧
    ((-1048576 ≤ (-1048576 : Int) ∧ (-1048576 : Int) ≤ 1048574 ∧ (-1048576 : Int) % 2 = 0) ∧
      ¬ (-1048576 ≤ (1048573 : Int) ∧ (1048573 : Int) ≤ 1048574 ∧ (1048573 : Int) % 2 = 0)) ∧
    (-2 ^ 31 ≤ (-1048576 : Int) ∧ (1048573 : Int) < 2 ^ 31) := by decide
/-- The choices of log 17 on a constant past 32 bits, the temporary x0, `.+n` in a label form, and a negative hexadecimal number. -/
theorem test_assembler_choices :
    assembleText 0x1000 "beq a0, a1, .+0x100000008" = .ok [.beq 10 11 8] ∧
    assembleText 0x1000 "beq a0, a1, 0x100001008" = .error .illegalOperands ∧
    assembleText 0x1000 "sw a0, .+0x1804, x0" = .ok [.auipc 0 2, .sw 10 0x804 0] ∧
    assembleText 0x1000 "addi a0, a1, -0x10" = .ok [.addi 10 11 0xff0] ∧
    assembleText 0x1000 "lw x0, .+0x1804" = .error .illegalOperands := by decide
/-- R228's example: `A = 0x1000`, `var_x = 0x2804`; R229's `li a0, 10000`. -/
theorem witness_labels : 0x1804#32 = 0x2804#32 - 0x1000#32 ∧
    (Pseudo.la 10 0x2804).expand 0x1000 = some [.auipc 10 2, .addi 10 10 0x804] ∧
    (Pseudo.li 10 10000).expand 0x1000 = some [.lui 10 2, .addi 10 10 0x710] ∧ (Pseudo.li 0 10000).expand 0x1000 = some [.lui 0 2, .addi 0 0 0x710] ∧
    State.reset.trap = none := by decide

end Sys2Proof.Tests
end

section
/-! Registers (R9, R21): what the register file keeps of a write. -/

namespace Sys2Proof.Machine

/-- A write to x0 is discarded (R9). -/
@[simp] theorem State.writeReg_zero (s : State) (v : Word) : s.writeReg 0#5 v = s :=
  if_pos rfl

/-- A register write sets its destination and nothing else in the register file (R9, R21). -/
theorem State.writeReg_setsReg (s : State) (r : Reg) (v : Word) : SetsReg s (s.writeReg r v) r v :=
  fun q => s.readReg_writeReg r q v

/-- Settles O26: the read-after-write rule, and the two halves of x0 being a constant. -/
theorem registerReadAfterWrite : Obligations.RegisterReadAfterWrite :=
  fun s r v => ⟨s.writeReg_setsReg r v, s.readReg_zero, s.writeReg_zero v⟩

end Sys2Proof.Machine
end

section
/-! Reset, and what every step keeps of the machine: its parameters (R32) and its invariant (R24, R31, R41, R341). -/

namespace Sys2Proof.Machine

/-! ### What reset leaves (R33, R340 to R344) -/

/-- Register `k + 1` stands at index `k` of the register file. -/
theorem State.readReg_ofNat_succ (s : State) (k : Nat) (h : k < 31) :
    s.readReg (BitVec.ofNat 5 (k + 1)) = s.regs[k] := by
  have e : (BitVec.ofNat 5 (k + 1)).toNat = k + 1 := by simp; omega
  have hne : BitVec.ofNat 5 (k + 1) ≠ 0#5 := fun h0 => by simp [h0] at e
  simp only [State.readReg, if_neg hne, e, Nat.add_sub_cancel]

/-- A byte that memory knows is the byte that is read. -/
theorem State.byteAt_of_lookup {s : State} {a : Word} {b : Byte} (h : Memory.lookup s.mem a.toNat = some b) :
    s.byteAt a = b := by
  simp [State.byteAt, Memory.byte, h]

/-- Settles O20: each field of a start is the harness's argument or its reset value, read through the accessors. -/
theorem resetLeaves : Obligations.ResetLeaves := by
  refine ⟨fun c regs image => ?_, rfl⟩
  have hregs (k : Nat) (h : k < 31) := (State.start c regs image).readReg_ofNat_succ k h
  have hbytes (a : Word) (b : Byte) (h : Memory.lookup image a.toNat = some b) :
      (State.start c regs image).byteAt a = b := State.byteAt_of_lookup h
  exact ⟨rfl, State.readReg_zero _, hregs, hbytes, rfl, rfl, rfl⟩

/-! ### What a step can do (R26) -/

/-- A step that gives a next state takes an exception of the fetch or of the decoder, with no other effect, or executes
the instruction that the fetched bits decode to. -/
theorem step_next_cases {s t : State} (h : step s = .next t) :
    s.trap = none ∧ ((∃ c v, t = s.endRun c v) ∨
      ∃ raw i, s.fetch = .raw raw ∧ decodeRaw s.cfg.ext raw = .ok i ∧ exec i s = .next t) := by
  unfold step cycle at h
  split at h
  case h_1 => cases h
  case h_2 htrap =>
    refine ⟨htrap, ?_⟩
    split at h
    · cases h; exact .inl ⟨_, _, rfl⟩
    · split at h
      · cases h; exact .inl ⟨_, _, rfl⟩
      · cases h
      · rename_i raw hfetch
        unfold decodeAndExecute at h
        split at h
        · cases h; exact .inl ⟨_, _, rfl⟩
        · rename_i i hdec
          exact .inr ⟨raw, i, hfetch, hdec, h⟩

/-- No effect of an instruction changes a parameter. -/
theorem Effect.cfg_eq {i : Instr} {s t : State} (h : Effect i s t) : t.cfg = s.cfg := by
  cases h <;> simp

/-- Settles O21: the exceptions of the cycle and every effect of an instruction leave `cfg`. -/
theorem stepKeepsParameters : Obligations.StepKeepsParameters := by
  intro s t h
  obtain ⟨-, ⟨c, v, rfl⟩ | ⟨_, _, _, _, hexec⟩⟩ := step_next_cases h
  · exact State.endRun_cfg s c v
  · exact (exec_effect hexec).cfg_eq

/-! ### Which instructions a fetched word or parcel can be -/

theorem decodeOp_needs {w : Word} {i : Instr} (h : decodeOp w = .ok i) : i.needs = Extensions.base := by
  unfold decodeOp at h
  split at h <;> cases h <;> rfl

theorem decodeOpImm_needs {w : Word} {i : Instr} (h : decodeOpImm w = .ok i) : i.needs = Extensions.base := by
  unfold decodeOpImm at h
  repeat' split at h
  all_goals cases h <;> rfl

theorem decodeBranch_needs {w : Word} {i : Instr} (h : decodeBranch w = .ok i) : i.needs = Extensions.base := by
  unfold decodeBranch at h
  split at h <;> cases h <;> rfl

theorem decodeLoad_needs_zclsd {ext : Extensions} {w : Word} {i : Instr} (h : decodeLoad ext w = .ok i) :
    i.needs.zclsd = false := by
  unfold decodeLoad at h
  dsimp only at h
  repeat' split at h
  all_goals cases h <;> rfl

theorem decodeStore_needs_zclsd {ext : Extensions} {w : Word} {i : Instr} (h : decodeStore ext w = .ok i) :
    i.needs.zclsd = false := by
  unfold decodeStore at h
  dsimp only at h
  repeat' split at h
  all_goals cases h <;> rfl

/-- No 32-bit word is one of the 16-bit forms (R271). -/
theorem decodeWord_needs_zclsd {ext : Extensions} {w : Word} {i : Instr} (h : decodeWord ext w = .ok i) :
    i.needs.zclsd = false := by
  unfold decodeWord at h
  split at h
  · cases h; rfl
  · cases h; rfl
  · cases h; rfl
  · split at h <;> cases h; rfl
  · rw [decodeBranch_needs h]; rfl
  · exact decodeLoad_needs_zclsd h
  · exact decodeStore_needs_zclsd h
  · rw [decodeOpImm_needs h]; rfl
  · rw [decodeOp_needs h]; rfl
  · split at h <;> cases h; rfl
  · cases h

/-- What a fetch of bytes answers when it answers bits: what the continuation makes of the bytes. -/
theorem State.fetchBytes_eq_raw {s : State} {a : Word} {n : Nat} {k : BitVec (8 * n) → Fetched} {raw : RawInstr}
    (h : s.fetchBytes a n k = .raw raw) : k (loadBytes s.mem a n) = .raw raw := by
  unfold State.fetchBytes at h
  split at h
  · cases h
  · split at h
    · cases h
    · exact h

/-- Only a machine with parcels fetches a parcel (R271). -/
theorem parcels_of_fetch_parcel {s : State} {p : Half} (h : s.fetch = .raw (.parcel p)) : s.cfg.ext.parcels = true := by
  by_contra hp
  rw [State.fetch, if_neg hp] at h
  cases State.fetchBytes_eq_raw h

/-- A 16-bit form is executed by a machine with parcels only (R270, R271). -/
theorem parcels_of_fetched_compressed {s : State} {raw : RawInstr} {i : Instr} (hf : s.fetch = .raw raw)
    (hd : decodeRaw s.cfg.ext raw = .ok i) (hi : i.needs = Extensions.all) : s.cfg.ext.parcels = true := by
  cases raw with
  | word w =>
    have hz := decodeWord_needs_zclsd hd
    rw [hi] at hz
    cases hz
  | parcel p => exact parcels_of_fetch_parcel hf

/-! ### The parts of the invariant -/

/-- The next instruction in sequence stands at an aligned address: 4 bytes on, or 2 where instructions are parcels. -/
theorem InstrAligned.add_length {i : Instr} {c : Config} {p len : Word} (h : InstrAligned c p) (hl : LengthOf i len)
    (hp : i.needs = Extensions.all → c.ext.parcels = true) : InstrAligned c (p + len) := by
  unfold InstrAligned at h ⊢
  by_cases hparcels : c.ext.parcels = true
  · rw [if_pos hparcels] at h ⊢
    obtain rfl | ⟨rfl, -⟩ := hl <;> bv_omega
  · rw [if_neg hparcels] at h ⊢
    obtain rfl | ⟨-, hi⟩ := hl
    · bv_omega
    · exact absurd (hp hi) hparcels

/-- A store whose bytes are all backed keeps memory canonical and on backed addresses (R41). -/
theorem ImageFits.storeBytes {w : Nat} {c : Config} {m : Memory} {a : Word} {n : Nat} (v : BitVec w)
    (h : ImageFits c m) (hb : allBacked c a n = true) : ImageFits c (storeBytes m a n v) := by
  obtain ⟨hwf, hbacked⟩ := h
  refine ⟨storeBytes_wf m a n v hwf, fun x hx => ?_⟩
  rcases mem_storeBytes m a n v x hx with hold | ⟨y, hy, e⟩
  · exact hbacked x hold
  · rw [e, BitVec.ofNat_toNat, BitVec.setWidth_eq]
    exact List.all_eq_true.1 hb y hy

/-- After a store memory knows the bytes of the access, and those that it knew before. -/
theorem known_storeBytes {w : Nat} {m : Memory} {x : Nat} (a : Word) (n : Nat) (v : BitVec w) (hn : n ≤ 2 ^ 32)
    (hx : x < 2 ^ 32) (h : (∃ k, k < n ∧ x = (a.toNat + k) % 2 ^ 32) ∨ ∃ b, Memory.lookup m x = some b) :
    ∃ b, Memory.lookup (storeBytes m a n v) x = some b := by
  have e : (BitVec.ofNat 32 x).toNat = x := by simp; omega
  rw [← Option.isSome_iff_exists, ← e]
  apply lookup_storeBytes_isSome m a _ n v hn
  rw [e, Option.isSome_iff_exists]
  refine h.imp_left fun ⟨k, hk, hxk⟩ => ?_
  bv_omega

/-- The invariant speaks of the parameters, the pc and memory only. -/
theorem Inv.congr {s t : State} (h : Inv s) (hcfg : t.cfg = s.cfg) (hpc : InstrAligned s.cfg t.pc)
    (hmem : t.mem = s.mem) (hdirty : t.dirty = s.dirty) : Inv t where
  pcAligned := hcfg ▸ hpc
  memoryForm := hmem ▸ h.memoryForm
  memoryBacked := by rw [hmem, hcfg]; exact h.memoryBacked
  dirtyForm := hdirty ▸ h.dirtyForm
  dirtyKnown := by rw [hmem, hdirty]; exact h.dirtyKnown
  parameters := hcfg ▸ h.parameters

theorem Inv.writeBytes {w : Nat} {s : State} {a : Word} {n : Nat} (v : BitVec w) (h : Inv s) (hn : n ≤ 2 ^ 32)
    (hb : allBacked s.cfg a n = true) : Inv (s.writeBytes a n v) := by
  obtain ⟨hwf, hbacked⟩ := ImageFits.storeBytes v ⟨h.memoryForm, h.memoryBacked⟩ hb
  exact
    { pcAligned := h.pcAligned
      memoryForm := hwf
      memoryBacked := hbacked
      dirtyForm := h.dirtyForm
      dirtyKnown := fun x hx => known_storeBytes a n v hn (h.dirtyForm.2 x hx) (.inr (h.dirtyKnown x hx))
      parameters := h.parameters }

theorem Inv.poke {w : Nat} {s : State} {a : Word} {n : Nat} (v : BitVec w) (h : Inv s) (hn : n ≤ 2 ^ 32)
    (hb : allBacked s.cfg a n = true) : Inv (s.poke a n v) := by
  have hmark : AddrSet.wf (markBytes s.dirty a n) := markBytes_wf s.dirty a n h.dirtyForm
  refine { h.writeBytes v hn hb with dirtyForm := hmark, dirtyKnown := fun x hx => ?_ }
  exact known_storeBytes a n v hn (hmark.2 x hx)
    (((mem_markBytes s.dirty a n x).1 hx).symm.imp_right (h.dirtyKnown x))

theorem Inv.setPc {s : State} {p : Word} (h : Inv s) (hp : InstrAligned s.cfg p) : Inv (s.setPc p) :=
  h.congr rfl hp rfl rfl

theorem Inv.advance {i : Instr} {s : State} {len : Word} (h : Inv s) (hl : LengthOf i len)
    (hp : i.needs = Extensions.all → s.cfg.ext.parcels = true) : Inv (s.advance len) :=
  h.setPc (h.pcAligned.add_length hl hp)

theorem Inv.endRun {s : State} (c : Cause) (v : Word) (h : Inv s) : Inv (s.endRun c v) :=
  h.congr rfl h.pcAligned rfl rfl

theorem Inv.addDraws {s : State} (n : Nat) (h : Inv s) : Inv (s.addDraws n) :=
  h.congr rfl h.pcAligned rfl rfl

theorem Inv.writeReg {s : State} (r : Reg) (v : Word) (h : Inv s) : Inv (s.writeReg r v) :=
  h.congr (by simp) (by simpa using h.pcAligned) (by simp) (by simp)

theorem Inv.writePair {s : State} (r : Reg) (v : Dword) (h : Inv s) : Inv (s.writePair r v) :=
  h.congr (by simp) (by simpa using h.pcAligned) (by simp) (by simp)

theorem Inv.afterFaultingLoad {s : State} (rd base : Reg) (a : Word) (h : Inv s) :
    Inv (s.afterFaultingLoad rd base a) :=
  h.congr (by simp) (by simpa using h.pcAligned) (by simp) (by simp)

theorem Inv.afterFaultingStore {s : State} (a : Word) (v : Dword) (h : Inv s) : Inv (s.afterFaultingStore a v) := by
  rcases s.afterFaultingStore_cases a v with ⟨n, e⟩ | ⟨hb, e⟩ | ⟨hb, e⟩ <;> rw [e]
  · exact h.addDraws n
  · exact (h.writeBytes v (by omega) hb).addDraws 1
  · exact (h.writeBytes (v >>> 32) (by omega) hb).addDraws 1

/-- Every effect of an instruction keeps the invariant, where a 16-bit form is executed by a machine with parcels only. -/
theorem Effect.keeps_inv {i : Instr} {s t : State} (h : Effect i s t) (hs : Inv s)
    (hp : i.needs = Extensions.all → s.cfg.ext.parcels = true) : Inv t := by
  cases h with
  | writes rd v _ => exact (hs.writeReg rd v).advance (i := i) (.inl rfl) (by simpa using hp)
  | continues => exact hs.advance (.inl rfl) hp
  | jumps p ha => exact hs.setPc ha
  | links rd p _ ha => exact (hs.writeReg rd _).setPc (by simpa using ha)
  | stores w a n v len _ hn hb hl => exact (hs.poke v (by omega) hb).advance hl hp
  | pairs rd v len _ _ hl => exact (hs.writePair rd v).advance hl (by simpa using hp)
  | traps c v => exact hs.endRun c v
  | loadFault rd base a c _ _ _ => exact (hs.afterFaultingLoad rd base a).endRun c a
  | storeFault a v _ => exact (hs.afterFaultingStore a v).endRun _ a

/-- Settles O18: an exception of the cycle changes nothing the invariant speaks of, and each effect of the decoded
instruction keeps it. -/
theorem stepKeepsInvariant : Obligations.StepKeepsInvariant := by
  intro s t hs h
  obtain ⟨-, ⟨c, v, rfl⟩ | ⟨raw, i, hfetch, hdec, hexec⟩⟩ := step_next_cases h
  · exact hs.endRun c v
  · exact (exec_effect hexec).keeps_inv hs (parcels_of_fetched_compressed hfetch hdec)

end Sys2Proof.Machine
end

section
/-! The fetch and the cycle (R26, R48, R271): where the bytes at `pc` decode, a step executes what they decode to. -/

namespace Sys2Proof.Machine

/-! ### Spans of bytes -/

/-- A part of a backed span is backed. -/
theorem BackedSpan.part {c : Config} {a : Word} {n : Nat} (h : BackedSpan c a n) (j m : Nat) (hj : j + m ≤ n) :
    BackedSpan c (a + BitVec.ofNat 32 j) m := by
  intro k hk
  rw [BitVec.add_assoc, ← BitVec.ofNat_add]
  exact h (j + k) (by omega)

/-- No store has written to a part of a span that no store has written to. -/
theorem CleanSpan.part {s : State} {a : Word} {n : Nat} (h : CleanSpan s a n) (j m : Nat) (hj : j + m ≤ n) :
    CleanSpan s (a + BitVec.ofNat 32 j) m := by
  intro k hk
  have e : ((a + BitVec.ofNat 32 j).toNat + k) % 2 ^ 32 = (a.toNat + (j + k)) % 2 ^ 32 := by
    simp only [BitVec.toNat_add, BitVec.toNat_ofNat]; omega
  rw [e]
  exact h (j + k) (by omega)

theorem anyDirty_eq_false_of_clean {s : State} {a : Word} {n : Nat} (h : CleanSpan s a n) :
    s.anyDirty a n = false := by
  rw [State.anyDirty, List.any_eq_false]
  intro b hb
  obtain ⟨k, hk, rfl⟩ := (mem_byteAddrs a b n).1 hb
  have e : (a + BitVec.ofNat 32 k).toNat = (a.toNat + k) % 2 ^ 32 := by
    simp only [BitVec.toNat_add, BitVec.toNat_ofNat]; omega
  rw [e, List.contains_iff_mem]
  exact h k hk

/-- The fetch of `n` bytes at `a` is neither unbacked nor refused (R48, R57). -/
def Fetchable (s : State) (a : Word) (n : Nat) : Prop :=
  BackedSpan s.cfg a n ∧ (s.cfg.fetchSeesStores = true ∨ CleanSpan s a n)

theorem Fetchable.part {s : State} {a : Word} {n : Nat} (h : Fetchable s a n) (j m : Nat) (hj : j + m ≤ n) :
    Fetchable s (a + BitVec.ofNat 32 j) m :=
  ⟨h.1.part j m hj, h.2.imp_right fun hc => hc.part j m hj⟩

/-- The first bytes of a fetchable span. -/
theorem Fetchable.first {s : State} {a : Word} {n : Nat} (h : Fetchable s a n) (m : Nat) (hm : m ≤ n) :
    Fetchable s a m := by
  simpa using h.part 0 m (by omega)

/-! ### What a fetch answers -/

/-- Two parcels put together are the word of their four bytes. -/
theorem append_parcels (b₀ b₁ b₂ b₃ : Byte) :
    ((b₃ ++ b₂ : Half) ++ (b₁ ++ b₀ : Half) : Word) = b₃ ++ b₂ ++ b₁ ++ b₀ :=
  (BitVec.append_assoc (x₁ := b₃ ++ b₂)).symm

/-- A fetch of fetchable bytes goes on with the current bytes. -/
theorem State.fetchBytes_of_fetchable {s : State} {a : Word} {n : Nat} (h : Fetchable s a n)
    (k : BitVec (8 * n) → Fetched) : s.fetchBytes a n k = k (loadBytes s.mem a n) := by
  obtain ⟨hb, hs⟩ := h
  have hstored : (!s.cfg.fetchSeesStores && s.anyDirty a n) = false := by
    rcases hs with hs | hs
    · simp [hs]
    · simp [anyDirty_eq_false_of_clean hs]
  simp [State.fetchBytes, (backedSpan_iff _ _ _).1 hb, hstored]

/-- A machine with parcels fetches the two bytes at `pc` where they are no half of a word (R271). -/
theorem State.fetch_parcel {s : State} (hp : s.cfg.ext.parcels = true) (h : Fetchable s s.pc 2)
    (hshort : isLong (s.byteAt (s.pc + 1#32) ++ s.byteAt s.pc) = false) :
    s.fetch = .raw (.parcel (s.byteAt (s.pc + 1#32) ++ s.byteAt s.pc)) := by
  rw [State.fetch, if_pos hp, State.fetchBytes_of_fetchable h, loadBytes_two, if_neg (by simp [hshort])]

/-- A machine without parcels fetches the four bytes at `pc` (R48); one with parcels fetches them as two parcels, where the
first says that there is a second (R271). -/
theorem State.fetch_word {s : State} (h : Fetchable s s.pc 4)
    (hlong : s.cfg.ext.parcels = true → isLong (s.byteAt (s.pc + 1#32) ++ s.byteAt s.pc) = true) :
    s.fetch = .raw (.word (wordAt s s.pc)) := by
  by_cases hp : s.cfg.ext.parcels = true
  · have h2 : s.pc + 2#32 + 1#32 = s.pc + 3#32 := by bv_omega
    rw [State.fetch, if_pos hp, State.fetchBytes_of_fetchable (h.first 2 (by omega)), loadBytes_two, if_pos (hlong hp),
      State.fetchBytes_of_fetchable (h.part 2 2 (by omega)), loadBytes_two, h2, wordAt, append_parcels]
  · rw [State.fetch, if_neg hp, State.fetchBytes_of_fetchable h, loadBytes_four, wordAt]

/-! ### The decoder on the bytes of one instruction -/

/-- A list of bytes that is one raw instruction and no more: a parcel, or a word. -/
theorem splitRaw_eq_all {ext : Extensions} {bytes : List Byte} {raw : RawInstr}
    (h : splitRaw ext bytes = .ok (raw, [])) :
    (∃ b₀ b₁, bytes = [b₀, b₁] ∧ ext.parcels = true ∧ isLong (b₁ ++ b₀) = false ∧ raw = .parcel (b₁ ++ b₀)) ∨
    (∃ b₀ b₁ b₂ b₃, bytes = [b₀, b₁, b₂, b₃] ∧ (ext.parcels = true → isLong (b₁ ++ b₀) = true) ∧
      raw = .word (b₃ ++ b₂ ++ b₁ ++ b₀)) := by
  unfold splitRaw at h
  split at h
  · rename_i b₀ b₁ rest
    split at h
    · rename_i hshort
      cases h
      simp only [Bool.and_eq_true, Bool.not_eq_true'] at hshort
      exact .inl ⟨b₀, b₁, rfl, hshort.1, hshort.2, rfl⟩
    · rename_i hlong
      split at h
      · rename_i b₂ b₃ rest'
        cases h
        refine .inr ⟨b₀, b₁, b₂, b₃, rfl, fun hp => ?_, rfl⟩
        simpa [hp] using hlong
      · cases h
  · cases h

/-- Bytes decode to an instruction and no more exactly by way of their raw instruction. -/
theorem decode_eq_all {ext : Extensions} {bytes : List Byte} {i : Instr} (h : decode ext bytes = .ok (i, [])) :
    ∃ raw, splitRaw ext bytes = .ok (raw, []) ∧ decodeRaw ext raw = .ok i := by
  unfold decode at h
  split at h
  · cases h
  · rename_i raw rest hsplit
    split at h
    · cases h
    · rename_i hdec
      cases h
      exact ⟨raw, hsplit, hdec⟩

/-- The `n` bytes from `pc` on, as the decoder takes them. -/
def bytesAtPc (s : State) (n : Nat) : List Byte := (List.range n).map fun k => s.byteAt (s.pc + BitVec.ofNat 32 k)

theorem bytesAtPc_two (s : State) : bytesAtPc s 2 = [s.byteAt s.pc, s.byteAt (s.pc + 1#32)] := by
  simp [bytesAtPc, List.range_succ]

theorem bytesAtPc_four (s : State) : bytesAtPc s 4 =
    [s.byteAt s.pc, s.byteAt (s.pc + 1#32), s.byteAt (s.pc + 2#32), s.byteAt (s.pc + 3#32)] := by
  simp [bytesAtPc, List.range_succ]

/-- The fetch answers the raw instruction that the bytes at `pc` are. -/
theorem State.fetch_eq_of_splitRaw {s : State} {n : Nat} {raw : RawInstr} (h : Fetchable s s.pc n)
    (hsplit : splitRaw s.cfg.ext (bytesAtPc s n) = .ok (raw, [])) : s.fetch = .raw raw := by
  have hn : (bytesAtPc s n).length = n := by simp [bytesAtPc]
  rcases splitRaw_eq_all hsplit with ⟨b₀, b₁, e, hp, hshort, rfl⟩ | ⟨b₀, b₁, b₂, b₃, e, hlong, rfl⟩
  · obtain rfl : 2 = n := by simpa [e] using hn
    rw [bytesAtPc_two] at e
    cases e
    exact State.fetch_parcel hp h hshort
  · obtain rfl : 4 = n := by simpa [e] using hn
    rw [bytesAtPc_four] at e
    cases e
    exact State.fetch_word h hlong

/-- A step from an aligned `pc` decodes and executes what it fetches (R26). -/
theorem step_of_fetch {s : State} {raw : RawInstr} (htrap : s.trap = none) (hpc : InstrAligned s.cfg s.pc)
    (hfetch : s.fetch = .raw raw) : step s = decodeAndExecute raw s := by
  simp [step, cycle, htrap, (misalignedPc_iff _ _).2 hpc, hfetch]

/-- Settles O9: the bytes at `pc` are one raw instruction, the fetch answers it, and the cycle executes what it decodes to. -/
theorem stepRunsDecodedInstruction : Obligations.StepRunsDecodedInstruction := by
  intro s n i htrap hpc hbacked hclean hdecode
  obtain ⟨raw, hsplit, hraw⟩ := decode_eq_all hdecode
  have hfetch : s.fetch = .raw raw := State.fetch_eq_of_splitRaw ⟨hbacked, hclean⟩ hsplit
  rw [step_of_fetch htrap hpc hfetch, decodeAndExecute, hraw]

end Sys2Proof.Machine
end

section
/-! The registers an instruction names (R23): it writes no other, and its effect depends on no other. -/

namespace Sys2Proof.Machine

/-! ### What is left of the registers that are no destinations -/

theorem State.readReg_writeReg_of_ne {s : State} {r q : Reg} (v : Word) (h : q ≠ r) :
    (s.writeReg r v).readReg q = s.readReg q := by
  rw [State.readReg_writeReg, if_neg fun e => h e.1]

/-- A register outside a pair is neither of its two. -/
theorem ne_of_notMem_pairRegs {rd r : Reg} (h0 : rd ≠ 0#5) (h : r ∉ pairRegs rd) : r ≠ rd ∧ r ≠ pairHigh rd := by
  simpa [pairRegs, h0] using h

theorem State.readReg_writePair_of_notMem {s : State} {rd r : Reg} (v : Dword) (h : r ∉ pairRegs rd) :
    (s.writePair rd v).readReg r = s.readReg r := by
  unfold State.writePair
  split
  · rfl
  · rename_i h0
    obtain ⟨hlow, hhigh⟩ := ne_of_notMem_pairRegs h0 h
    rw [State.readReg_writeReg_of_ne _ hhigh, State.readReg_writeReg_of_ne _ hlow]

theorem State.readReg_halfAfterFault_of_ne {s : State} {r q : Reg} (base : Reg) (a : Word) (n : Nat) (h : q ≠ r) :
    (s.halfAfterFault base r a n).readReg q = s.readReg q :=
  (s.readReg_halfAfterFault base r q a n).resolve_right fun e => h e.1

theorem State.readReg_afterFaultingLoad_of_notMem {s : State} {rd r : Reg} (base : Reg) (a : Word)
    (h : r ∉ pairRegs rd) : (s.afterFaultingLoad rd base a).readReg r = s.readReg r := by
  unfold State.afterFaultingLoad
  split
  · rfl
  · rename_i h0
    obtain ⟨hlow, hhigh⟩ := ne_of_notMem_pairRegs h0 h
    rw [State.readReg_addDraws, State.readReg_halfAfterFault_of_ne _ _ _ hhigh,
      State.readReg_halfAfterFault_of_ne _ _ _ hlow]

theorem State.readReg_afterFaultingStore (s : State) (a : Word) (v : Dword) (r : Reg) :
    (s.afterFaultingStore a v).readReg r = s.readReg r :=
  State.readReg_congr (State.afterFaultingStore_regs s v a) r

/-- No effect of an instruction changes a register that is no destination of it. -/
theorem Effect.readReg_of_notMem {i : Instr} {s t : State} {r : Reg} (h : Effect i s t) (hr : r ∉ destinations i) :
    t.readReg r = s.readReg r := by
  cases h with
  | writes rd v hd => exact State.readReg_writeReg_of_ne v fun e => hr (e ▸ hd)
  | continues => rfl
  | jumps p _ => rfl
  | links rd p hd _ => exact State.readReg_writeReg_of_ne _ fun e => hr (e ▸ hd)
  | stores w a n v len _ _ _ _ => rfl
  | pairs rd v len hd _ _ => exact State.readReg_writePair_of_notMem v (hd ▸ hr)
  | traps c v => rfl
  | loadFault rd base a c hd _ _ => exact State.readReg_afterFaultingLoad_of_notMem base a (hd ▸ hr)
  | storeFault a v _ => exact s.readReg_afterFaultingStore a v r

/-- Settles O23: each effect of an instruction leaves the registers that are no destinations. -/
theorem onlyNamedRegistersWritten : Obligations.OnlyNamedRegistersWritten :=
  fun _ _ _ _ h hr => (exec_effect h).readReg_of_notMem hr

/-! ### Two states that differ in registers only -/

/-- The state with another register file. -/
def State.withRegs (s : State) (g : Vector Word 31) : State := { s with regs := g }

@[simp] theorem State.withRegs_mem (s : State) (g : Vector Word 31) : (s.withRegs g).mem = s.mem := rfl
@[simp] theorem State.withRegs_cfg (s : State) (g : Vector Word 31) : (s.withRegs g).cfg = s.cfg := rfl
@[simp] theorem State.withRegs_draws (s : State) (g : Vector Word 31) : (s.withRegs g).draws = s.draws := rfl

/-- `t₁` and `t₂` have gone the same way from `s₁` and `s₂`: they agree but in registers, and a register in which they
differ holds in both what it held before. -/
structure SameWay (s₁ s₂ t₁ t₂ : State) : Prop where
  rest : t₂ = t₁.withRegs t₂.regs
  regs : ∀ r : Reg, t₂.readReg r = t₁.readReg r ∨ (t₁.readReg r = s₁.readReg r ∧ t₂.readReg r = s₂.readReg r)

/-- Before anything has happened. -/
theorem SameWay.start (s : State) (g : Vector Word 31) : SameWay s (s.withRegs g) s (s.withRegs g) :=
  ⟨rfl, fun _ => .inr ⟨rfl, rfl⟩⟩

section
variable {s₁ s₂ t₁ t₂ : State}

/-- A register that is written on both sides with one value agrees from then on. -/
theorem SameWay.writeReg (h : SameWay s₁ s₂ t₁ t₂) (r : Reg) (v : Word) :
    SameWay s₁ s₂ (t₁.writeReg r v) (t₂.writeReg r v) where
  rest := by
    unfold State.writeReg
    split
    · exact h.rest
    · rw [h.rest]; rfl
  regs q := by
    rw [State.readReg_writeReg, State.readReg_writeReg]
    split
    · exact .inl rfl
    · exact h.regs q

/-- An update that neither reads nor writes registers. -/
theorem SameWay.map (h : SameWay s₁ s₂ t₁ t₂) (f : State → State) (hf : ∀ s g, f (s.withRegs g) = (f s).withRegs g) :
    SameWay s₁ s₂ (f t₁) (f t₂) := by
  have hregs (s : State) : (f s).regs = s.regs := (congrArg State.regs (hf s s.regs) :)
  refine ⟨?_, fun r => ?_⟩
  · rw [hregs, ← hf, ← h.rest]
  · rw [State.readReg_congr (hregs t₁), State.readReg_congr (hregs t₂)]
    exact h.regs r

theorem SameWay.setPc (h : SameWay s₁ s₂ t₁ t₂) (p : Word) : SameWay s₁ s₂ (t₁.setPc p) (t₂.setPc p) :=
  h.map (State.setPc · p) fun _ _ => rfl

theorem SameWay.advance (h : SameWay s₁ s₂ t₁ t₂) (n : Word) : SameWay s₁ s₂ (t₁.advance n) (t₂.advance n) :=
  h.map (State.advance · n) fun _ _ => rfl

theorem SameWay.endRun (h : SameWay s₁ s₂ t₁ t₂) (c : Cause) (v : Word) :
    SameWay s₁ s₂ (t₁.endRun c v) (t₂.endRun c v) :=
  h.map (State.endRun · c v) fun _ _ => rfl

theorem SameWay.addDraws (h : SameWay s₁ s₂ t₁ t₂) (n : Nat) : SameWay s₁ s₂ (t₁.addDraws n) (t₂.addDraws n) :=
  h.map (State.addDraws · n) fun _ _ => rfl

theorem SameWay.poke {w : Nat} (h : SameWay s₁ s₂ t₁ t₂) (a : Word) (n : Nat) (v : BitVec w) :
    SameWay s₁ s₂ (t₁.poke a n v) (t₂.poke a n v) :=
  h.map (State.poke · a n v) fun _ _ => rfl

/-- What a faulting store of a pair leaves depends on no register but by its operands. -/
theorem State.afterFaultingStore_withRegs (s : State) (g : Vector Word 31) (a : Word) (v : Dword) :
    (s.withRegs g).afterFaultingStore a v = (s.afterFaultingStore a v).withRegs g := by
  simp only [State.afterFaultingStore, apply_ite (State.withRegs · g), apply_ite (State.addDraws · 1)]
  rfl

theorem SameWay.afterFaultingStore (h : SameWay s₁ s₂ t₁ t₂) (a : Word) (v : Dword) :
    SameWay s₁ s₂ (t₁.afterFaultingStore a v) (t₂.afterFaultingStore a v) :=
  h.map (State.afterFaultingStore · a v) fun s g => s.afterFaultingStore_withRegs g a v

theorem SameWay.writePair (h : SameWay s₁ s₂ t₁ t₂) (rd : Reg) (v : Dword) :
    SameWay s₁ s₂ (t₁.writePair rd v) (t₂.writePair rd v) := by
  unfold State.writePair
  split
  · exact h
  · exact (h.writeReg _ _).writeReg _ _

theorem SameWay.halfAfterFault (h : SameWay s₁ s₂ t₁ t₂) (base r : Reg) (a : Word) (n : Nat) :
    SameWay s₁ s₂ (t₁.halfAfterFault base r a n) (t₂.halfAfterFault base r a n) := by
  have hcfg : t₂.cfg = t₁.cfg := by rw [h.rest, State.withRegs_cfg]
  have hmem : t₂.mem = t₁.mem := by rw [h.rest, State.withRegs_mem]
  unfold State.halfAfterFault
  rw [hcfg, hmem]
  split
  · exact h.writeReg _ _
  · exact h

/-- After a faulting load of a pair both sides have made the same draws (log 20). -/
theorem SameWay.afterFaultingLoad (h : SameWay s₁ s₂ t₁ t₂) (rd base : Reg) (a : Word) :
    SameWay s₁ s₂ (t₁.afterFaultingLoad rd base a) (t₂.afterFaultingLoad rd base a) := by
  have hdraws : t₂.draws = t₁.draws := by rw [h.rest, State.withRegs_draws]
  unfold State.afterFaultingLoad
  rw [hdraws]
  split
  · exact h
  · exact ((h.halfAfterFault _ _ _ _).halfAfterFault _ _ _ _).addDraws 2

end

/-! ### The operations on two such states -/

/-- An operation, here by its answers, has taken two states to next states, and the same way. -/
def AnswersSameWay (s₁ s₂ : State) (r₁ r₂ : Result) : Prop :=
  ∃ t₁ t₂, r₁ = .next t₁ ∧ r₂ = .next t₂ ∧ SameWay s₁ s₂ t₁ t₂

/-- The operation takes the state, and the state with the register file `g`, the same way. -/
abbrev GoesSameWay (f : State → Result) (s : State) (g : Vector Word 31) : Prop :=
  AnswersSameWay s (s.withRegs g) (f s) (f (s.withRegs g))

/-- A choice that both states make alike. -/
theorem AnswersSameWay.ite {s₁ s₂ : State} {c : Prop} [Decidable c] {a₁ a₂ b₁ b₂ : Result}
    (ha : AnswersSameWay s₁ s₂ a₁ a₂) (hb : AnswersSameWay s₁ s₂ b₁ b₂) :
    AnswersSameWay s₁ s₂ (if c then a₁ else b₁) (if c then a₂ else b₂) := by
  split
  · exact ha
  · exact hb

section
variable {s : State} {g : Vector Word 31}

theorem raise_goesSameWay (c : Cause) (v : Word) : GoesSameWay (raise c v) s g :=
  ⟨_, _, rfl, rfl, (SameWay.start s g).endRun c v⟩

theorem setOp_goesSameWay (rd : Reg) (v : Word) : GoesSameWay (setOp rd v) s g :=
  ⟨_, _, rfl, rfl, ((SameWay.start s g).writeReg rd v).advance 4#32⟩

theorem immOp_goesSameWay (f : Word → Word) (rd : Reg) {rs1 : Reg} (h : (s.withRegs g).readReg rs1 = s.readReg rs1) :
    GoesSameWay (immOp f rd rs1) s g := by
  refine ⟨_, _, rfl, rfl, ?_⟩
  rw [h]
  exact ((SameWay.start s g).writeReg rd _).advance 4#32

theorem regOp_goesSameWay (f : Word → Word → Word) (rd : Reg) {rs1 rs2 : Reg}
    (h1 : (s.withRegs g).readReg rs1 = s.readReg rs1) (h2 : (s.withRegs g).readReg rs2 = s.readReg rs2) :
    GoesSameWay (regOp f rd rs1 rs2) s g := by
  refine ⟨_, _, rfl, rfl, ?_⟩
  rw [h1, h2]
  exact ((SameWay.start s g).writeReg rd _).advance 4#32

theorem jumpTo_goesSameWay (p : Word) : GoesSameWay (jumpTo p) s g := by
  by_cases h : InstrAligned s.cfg p
  · exact ⟨_, _, jumpTo_of_aligned s p h, jumpTo_of_aligned (s.withRegs g) p h, (SameWay.start s g).setPc p⟩
  · exact ⟨_, _, jumpTo_of_misaligned s p h, jumpTo_of_misaligned (s.withRegs g) p h, (SameWay.start s g).endRun _ p⟩

theorem linkAndJump_goesSameWay (rd : Reg) (p : Word) : GoesSameWay (linkAndJump rd p) s g := by
  by_cases h : InstrAligned s.cfg p
  · exact ⟨_, _, linkAndJump_of_aligned s rd p h, linkAndJump_of_aligned (s.withRegs g) rd p h,
      ((SameWay.start s g).writeReg rd _).setPc p⟩
  · exact ⟨_, _, linkAndJump_of_misaligned s rd p h, linkAndJump_of_misaligned (s.withRegs g) rd p h,
      (SameWay.start s g).endRun _ p⟩

theorem branchOp_goesSameWay (cond : Word → Word → Bool) (offset : BitVec 13) {rs1 rs2 : Reg}
    (h1 : (s.withRegs g).readReg rs1 = s.readReg rs1) (h2 : (s.withRegs g).readReg rs2 = s.readReg rs2) :
    GoesSameWay (branchOp cond rs1 rs2 offset) s g := by
  unfold GoesSameWay branchOp
  rw [h1, h2]
  exact .ite (jumpTo_goesSameWay (s.pcRel offset)) ⟨_, _, rfl, rfl, (SameWay.start s g).advance 4#32⟩

theorem State.baseDisp_withRegs {rs1 : Reg} (h : (s.withRegs g).readReg rs1 = s.readReg rs1) (imm : BitVec 12) :
    (s.withRegs g).baseDisp rs1 imm = s.baseDisp rs1 imm := by
  rw [State.baseDisp, h]; rfl

theorem State.baseOffset_withRegs {k : Nat} {rs1 : Reg} (h : (s.withRegs g).readReg rs1 = s.readReg rs1)
    (offset : BitVec k) : (s.withRegs g).baseOffset rs1 offset = s.baseOffset rs1 offset := by
  rw [State.baseOffset, h]; rfl

theorem loadOp_goesSameWay (n : Nat) (ext : BitVec (8 * n) → Word) (rd : Reg) (offset : BitVec 12) {rs1 : Reg}
    (h : (s.withRegs g).readReg rs1 = s.readReg rs1) : GoesSameWay (loadOp n ext rd offset rs1) s g := by
  unfold GoesSameWay loadOp
  rw [State.baseDisp_withRegs h]
  by_cases hb : BackedSpan s.cfg (s.baseDisp rs1 offset) n
  · rw [State.memRead_eq_some s _ _ hb, State.memRead_eq_some (s.withRegs g) _ _ hb]
    exact ⟨_, _, rfl, rfl, ((SameWay.start s g).writeReg rd _).advance 4#32⟩
  · rw [State.memRead_eq_none s _ _ hb, State.memRead_eq_none (s.withRegs g) _ _ hb]
    exact raise_goesSameWay _ _

theorem storeOp_goesSameWay (n : Nat) (offset : BitVec 12) {rs1 rs2 : Reg}
    (h1 : (s.withRegs g).readReg rs1 = s.readReg rs1) (h2 : (s.withRegs g).readReg rs2 = s.readReg rs2) :
    GoesSameWay (storeOp n rs2 offset rs1) s g := by
  unfold GoesSameWay storeOp
  rw [State.baseDisp_withRegs h1, h2]
  by_cases hb : BackedSpan s.cfg (s.baseDisp rs1 offset) n
  · rw [State.memWrite_eq_some s _ _ _ hb, State.memWrite_eq_some (s.withRegs g) _ _ _ hb]
    exact ⟨_, _, rfl, rfl, ((SameWay.start s g).poke _ n _).advance 4#32⟩
  · rw [State.memWrite_eq_none s _ _ _ hb, State.memWrite_eq_none (s.withRegs g) _ _ _ hb]
    exact raise_goesSameWay _ _

theorem loadPair_goesSameWay (rd base : Reg) (a len : Word) : GoesSameWay (loadPair rd base a len) s g := by
  have hfault := (SameWay.start s g).afterFaultingLoad rd base a
  unfold GoesSameWay loadPair
  rw [State.withRegs_cfg]
  split
  · exact ⟨_, _, rfl, rfl, hfault.endRun _ a⟩
  · by_cases hb : BackedSpan s.cfg a 8
    · rw [State.memRead_eq_some s _ _ hb, State.memRead_eq_some (s.withRegs g) _ _ hb]
      exact ⟨_, _, rfl, rfl, ((SameWay.start s g).writePair rd _).advance len⟩
    · rw [State.memRead_eq_none s _ _ hb, State.memRead_eq_none (s.withRegs g) _ _ hb]
      exact ⟨_, _, rfl, rfl, hfault.endRun _ a⟩

theorem State.readPair_withRegs {rs2 : Reg} (h : ∀ r ∈ pairRegs rs2, (s.withRegs g).readReg r = s.readReg r) :
    (s.withRegs g).readPair rs2 = s.readPair rs2 := by
  unfold State.readPair
  split
  · rfl
  · rename_i h0
    rw [h rs2 (by simp [pairRegs, h0]), h (pairHigh rs2) (by simp [pairRegs, h0])]

theorem storePair_goesSameWay (a len : Word) {rs2 : Reg}
    (h : ∀ r ∈ pairRegs rs2, (s.withRegs g).readReg r = s.readReg r) :
    GoesSameWay (storePair rs2 a len) s g := by
  unfold GoesSameWay storePair
  rw [State.readPair_withRegs h, State.withRegs_cfg]
  split
  · exact raise_goesSameWay _ _
  · by_cases hb : BackedSpan s.cfg a 8
    · rw [State.memWrite_eq_some s _ _ _ hb, State.memWrite_eq_some (s.withRegs g) _ _ _ hb]
      exact ⟨_, _, rfl, rfl, ((SameWay.start s g).poke a 8 _).advance len⟩
    · rw [State.memWrite_eq_none s _ _ _ hb, State.memWrite_eq_none (s.withRegs g) _ _ _ hb]
      exact ⟨_, _, rfl, rfl, ((SameWay.start s g).afterFaultingStore a _).endRun _ a⟩

end

/-- Every instruction takes two states that differ in registers only, and agree in its sources, the same way. -/
theorem exec_goesSameWay (i : Instr) (s : State) (g : Vector Word 31)
    (h : ∀ r ∈ sources i, (s.withRegs g).readReg r = s.readReg r) : GoesSameWay (exec i) s g := by
  unfold GoesSameWay
  cases i with
  | sll rd _ _ | srl rd _ _ | sra rd _ _ | add rd _ _ | sub rd _ _ | xor rd _ _ | or rd _ _ | and rd _ _ | slt rd _ _
  | sltu rd _ _ =>
    simp only [exec, execSll, execSrl, execSra, execAdd, execSub, execXor, execOr, execAnd, execSlt, execSltu]
    exact regOp_goesSameWay _ rd (h _ (.head _)) (h _ (.tail _ (.head _)))
  | slli rd _ _ | srli rd _ _ | srai rd _ _ | addi rd _ _ | xori rd _ _ | ori rd _ _ | andi rd _ _ | slti rd _ _
  | sltiu rd _ _ =>
    simp only [exec, execSlli, execSrli, execSrai, execAddi, execXori, execOri, execAndi, execSlti, execSltiu]
    exact immOp_goesSameWay _ rd (h _ (.head _))
  | lw rd offset _ | lh rd offset _ | lb rd offset _ | lhu rd offset _ | lbu rd offset _ =>
    simp only [exec, execLw, execLh, execLb, execLhu, execLbu]
    exact loadOp_goesSameWay _ _ rd offset (h _ (.head _))
  | lui rd imm => exact setOp_goesSameWay rd (upper imm)
  | auipc rd imm => exact setOp_goesSameWay rd (s.pc + upper imm)
  | beq _ _ offset | bne _ _ offset | blt _ _ offset | bge _ _ offset | bltu _ _ offset | bgeu _ _ offset =>
    simp only [exec, execBeq, execBne, execBlt, execBge, execBltu, execBgeu]
    exact branchOp_goesSameWay _ offset (h _ (.head _)) (h _ (.tail _ (.head _)))
  | jal rd offset => exact linkAndJump_goesSameWay rd (s.pcRel offset)
  | jalr rd rs1 imm =>
    simp only [exec, execJalr, State.baseDisp_withRegs (h rs1 (.head _))]
    exact linkAndJump_goesSameWay rd _
  | sw _ offset _ | sh _ offset _ | sb _ offset _ =>
    simp only [exec, execSw, execSh, execSb]
    exact storeOp_goesSameWay _ offset (h _ (.head _)) (h _ (.tail _ (.head _)))
  | ebreak => exact raise_goesSameWay .breakpoint s.pc
  | ld rd _ rs1 =>
    simp only [exec, execLd, State.baseDisp_withRegs (h rs1 (.head _))]
    exact .ite (loadPair_goesSameWay rd rs1 _ _) (raise_goesSameWay _ _)
  | sd rs2 _ rs1 =>
    obtain ⟨hbase, hpair⟩ := List.forall_mem_cons.1 h
    simp only [exec, execSd, State.baseDisp_withRegs hbase]
    exact .ite (storePair_goesSameWay _ _ hpair) (raise_goesSameWay _ _)
  | cLdsp rd _ =>
    simp only [exec, execCLdsp, State.baseOffset_withRegs (h sp (.head _))]
    exact .ite (loadPair_goesSameWay rd sp _ _) (raise_goesSameWay _ _)
  | cSdsp rs2 _ =>
    obtain ⟨hbase, hpair⟩ := List.forall_mem_cons.1 h
    simp only [exec, execCSdsp, State.baseOffset_withRegs hbase]
    exact .ite (storePair_goesSameWay _ _ hpair) (raise_goesSameWay _ _)
  | cLd rd _ rs1 =>
    simp only [exec, execCLd, State.baseOffset_withRegs (h (cReg rs1) (.head _))]
    exact .ite (loadPair_goesSameWay (cReg rd) (cReg rs1) _ _) (raise_goesSameWay _ _)
  | cSd rs2 _ rs1 =>
    obtain ⟨hbase, hpair⟩ := List.forall_mem_cons.1 h
    simp only [exec, execCSd, State.baseOffset_withRegs hbase]
    exact .ite (storePair_goesSameWay _ _ hpair) (raise_goesSameWay _ _)

/-- Settles O24: the two states go the same way under every instruction. -/
theorem onlyNamedRegistersRead : Obligations.OnlyNamedRegistersRead := by
  rintro i s₁ _ regs rfl h
  obtain ⟨t₁, t₂, h₁, h₂, hsame⟩ := exec_goesSameWay i s₁ regs h
  exact ⟨t₁, t₂, h₁, h₂, hsame.rest, hsame.regs⟩

end Sys2Proof.Machine
end

section
/-! What `MemRead` and `MemWrite` return and change (R42 to R46, R59), and what a read sees of a store of another width (R43). -/

namespace Sys2Proof.Machine

/-! ### Addresses and spans -/

/-- Byte `k` of an access stands at `(a + k) mod 2^32` (R59). -/
theorem ofNat_toNat_add_mod (a : Word) (k : Nat) : BitVec.ofNat 32 ((a.toNat + k) % 2 ^ 32) = a + BitVec.ofNat 32 k := by
  apply BitVec.eq_of_toNat_eq
  simp

/-- Two backed spans, one after the other, are one. -/
theorem BackedSpan.append {c : Config} {a : Word} {m n : Nat} (hm : BackedSpan c a m)
    (hn : BackedSpan c (a + BitVec.ofNat 32 m) n) : BackedSpan c a (m + n) := by
  intro k hk
  by_cases hkm : k < m
  · exact hm k hkm
  · have e : a + BitVec.ofNat 32 k = a + BitVec.ofNat 32 m + BitVec.ofNat 32 (k - m) := by
      rw [BitVec.add_assoc, ← BitVec.ofNat_add, Nat.add_sub_cancel' (by omega)]
    rw [e]
    exact hn (k - m) (by omega)

/-! ### When a read and a write answer -/

theorem State.memRead_eq_some_iff (s : State) (a : Word) (n : Nat) (v : BitVec (8 * n)) :
    s.memRead a n = some v ↔ BackedSpan s.cfg a n ∧ loadBytes s.mem a n = v := by
  by_cases h : BackedSpan s.cfg a n
  · simp [s.memRead_eq_some a n h, h]
  · simp [s.memRead_eq_none a n h, h]

theorem State.memRead_isSome_iff (s : State) (a : Word) (n : Nat) :
    (s.memRead a n).isSome = true ↔ BackedSpan s.cfg a n := by
  simp [Option.isSome_iff_exists, State.memRead_eq_some_iff]

theorem State.memWrite_eq_some_iff {w : Nat} (s t : State) (a : Word) (n : Nat) (v : BitVec w) :
    s.memWrite a n v = some t ↔ BackedSpan s.cfg a n ∧ s.poke a n v = t := by
  by_cases h : BackedSpan s.cfg a n
  · simp [s.memWrite_eq_some a n v h, h]
  · simp [s.memWrite_eq_none a n v h, h]

/-- Settles O27: `MemRead` answers on a backed span, with the bytes that `loadBytes` collects. -/
theorem memReadReturnsBytes : Obligations.MemReadReturnsBytes := by
  intro s a n
  simp only [ofNat_toNat_add_mod]
  refine ⟨s.memRead_isSome_iff a n, fun v hv k hk => ?_⟩
  obtain ⟨-, rfl⟩ := (s.memRead_eq_some_iff a n v).1 hv
  exact loadBytes_byte s.mem a n k hk

/-- Settles O29: off a backed span `MemWrite` answers nothing; on one its state is `poke`, which touches memory and `Dirty`
only. -/
theorem memWriteStoresBytes : Obligations.MemWriteStoresBytes := by
  intro s a v n hn
  by_cases h : BackedSpan s.cfg a n
  · exact .inr ⟨s.poke a n v, s.memWrite_eq_some a n v h, h, s.poke_storesAt a n v (by omega), s.readReg_poke a n v, rfl,
      rfl, rfl, rfl⟩
  · exact .inl ⟨s.memWrite_eq_none a n v h, h⟩

/-! ### Accesses of different widths (R43) -/

theorem byteOf_eq_extract {w : Nat} (v : BitVec w) (k : Nat) : byteOf v k = v.extractLsb' (8 * k) 8 := by
  rw [byteOf, BitVec.extractLsb', Nat.shiftRight_eq_div_pow]

/-- A value of whole bytes is its bytes. -/
theorem eq_of_bytes_eq {n : Nat} {x y : BitVec (8 * n)}
    (h : ∀ k, k < n → x.extractLsb' (8 * k) 8 = y.extractLsb' (8 * k) 8) : x = y := by
  apply BitVec.eq_of_getLsbD_eq
  intro i hi
  have hbit := congrArg (BitVec.getLsbD · (i % 8)) (h (i / 8) (by omega))
  simpa [Nat.mod_lt i (show 8 > 0 by omega), Nat.div_add_mod] using hbit

/-- A read inside a store sees the stored value's bytes from its own offset on (R43). -/
theorem loadBytes_storeBytes {w : Nat} (mem : Memory) (a : Word) (v : BitVec w) {m n j : Nat} (hm : m ≤ 2 ^ 32)
    (hj : j + n ≤ m) :
    loadBytes (storeBytes mem a m v) (a + BitVec.ofNat 32 j) n = v.extractLsb' (8 * j) (8 * n) := by
  refine eq_of_bytes_eq fun k hk => ?_
  have hoff : (a + BitVec.ofNat 32 j + BitVec.ofNat 32 k - a).toNat = j + k := by bv_omega
  rw [loadBytes_byte _ _ _ _ hk, byte_storeBytes mem a _ m v hm, hoff, if_pos (by omega), ← byteOf_eq,
    byteOf_eq_extract, extract_extract _ _ _ _ _ (by omega), ← Nat.mul_add]

/-- `MemRead` inside what `MemWrite` has just written. -/
theorem State.memRead_of_memWrite {w : Nat} {s t : State} {a : Word} {v : BitVec w} {m : Nat}
    (h : s.memWrite a m v = some t) (hm : m ≤ 2 ^ 32) (j n : Nat) (hj : j + n ≤ m) :
    t.memRead (a + BitVec.ofNat 32 j) n = some (v.extractLsb' (8 * j) (8 * n)) := by
  obtain ⟨hb, rfl⟩ := (s.memWrite_eq_some_iff t a m v).1 h
  exact (State.memRead_eq_some_iff _ _ _ _).2 ⟨hb.part j n hj, loadBytes_storeBytes s.mem a v hm hj⟩

/-- What a store of one byte leaves at each address. -/
theorem State.byteAt_poke_one {w : Nat} (s : State) (a x : Word) (v : BitVec w) :
    (s.poke a 1 v).byteAt x = if x = a then byteOf v 0 else s.byteAt x := by
  obtain ⟨hbytes, -⟩ := s.poke_storesAt a 1 v (by omega)
  rw [hbytes x]
  by_cases h : x = a
  · simp [h]
  · have hne : (x - a).toNat ≠ 0 := by bv_omega
    rw [if_neg (by omega), if_neg h]

/-- Four bytes written one after another are read as one word. -/
theorem memRead_of_byteWrites {s s₁ s₂ s₃ s₄ : State} {a b₀ b₁ b₂ b₃ : Word} (h₀ : s.memWrite a 1 b₀ = some s₁)
    (h₁ : s₁.memWrite (a + 1#32) 1 b₁ = some s₂) (h₂ : s₂.memWrite (a + 2#32) 1 b₂ = some s₃)
    (h₃ : s₃.memWrite (a + 3#32) 1 b₃ = some s₄) :
    s₄.memRead a 4 = some (byteOf b₃ 0 ++ byteOf b₂ 0 ++ byteOf b₁ 0 ++ byteOf b₀ 0) := by
  obtain ⟨hb₀, rfl⟩ := (State.memWrite_eq_some_iff _ _ _ _ _).1 h₀
  obtain ⟨hb₁, rfl⟩ := (State.memWrite_eq_some_iff _ _ _ _ _).1 h₁
  obtain ⟨hb₂, rfl⟩ := (State.memWrite_eq_some_iff _ _ _ _ _).1 h₂
  obtain ⟨hb₃, rfl⟩ := (State.memWrite_eq_some_iff _ _ _ _ _).1 h₃
  refine (State.memRead_eq_some_iff _ _ _ _).2 ⟨((hb₀.append hb₁).append hb₂).append hb₃, ?_⟩
  rw [loadBytes_four]
  simp [State.byteAt_poke_one]

/-- Settles O28: a read of part of a store is `memRead_of_memWrite` at its offset and width; separate stores of bytes are
`memRead_of_byteWrites`. -/
theorem mixedWidthAccess : Obligations.MixedWidthAccess := by
  refine ⟨fun s t a v h => ⟨fun k hk => ?_, fun k hk => ?_, ?_⟩, fun s s₁ s₂ s₃ s₄ a b₀ b₁ b₂ b₃ => memRead_of_byteWrites⟩
  · exact State.memRead_of_memWrite h (by omega) k 1 (by omega)
  · have hread := State.memRead_of_memWrite h (by omega) (2 * k) 2 (by omega)
    rwa [← Nat.mul_assoc] at hread
  · simpa using State.memRead_of_memWrite h (by omega) 0 4 (by omega)

end Sys2Proof.Machine
end

section
/-! `FETCH_SEES_STORES` (R57): what a fetch of stored-to bytes answers under each value, and that nothing else of a step depends
on it. -/

namespace Sys2Proof.Machine

/-! ### The fetch of stored-to bytes -/

/-- Where some byte of a span has been stored to, the fetch finds it in `Dirty`. -/
theorem anyDirty_of_not_clean {s : State} {a : Word} {n : Nat} (h : ¬ CleanSpan s a n) : s.anyDirty a n = true := by
  unfold CleanSpan at h
  push Not at h
  obtain ⟨k, hk, hdirty⟩ := h
  refine List.any_eq_true.2 ⟨_, (mem_byteAddrs a _ n).2 ⟨k, hk, rfl⟩, ?_⟩
  simpa using hdirty

/-- With the parameter off a backed span that was stored to is refused. -/
theorem State.fetchBytes_eq_stored {s : State} {a : Word} {n : Nat} (hoff : s.cfg.fetchSeesStores = false)
    (hb : BackedSpan s.cfg a n) (hd : ¬ CleanSpan s a n) (k : BitVec (8 * n) → Fetched) :
    s.fetchBytes a n k = .stored := by
  simp [State.fetchBytes, (backedSpan_iff _ _ _).1 hb, hoff, anyDirty_of_not_clean hd]

/-- The fetch of a word, where instructions are words, is refused if one of its bytes was stored to. -/
theorem State.fetch_word_eq_stored {s : State} (hp : s.cfg.ext.parcels = false) (hoff : s.cfg.fetchSeesStores = false)
    (hb : BackedSpan s.cfg s.pc 4) (hd : ¬ CleanSpan s s.pc 4) : s.fetch = .stored := by
  rw [State.fetch, if_neg (by simp [hp]), State.fetchBytes_eq_stored hoff hb hd]

/-- The fetch of a parcel is refused if one of its bytes was stored to. -/
theorem State.fetch_first_eq_stored {s : State} (hp : s.cfg.ext.parcels = true) (hoff : s.cfg.fetchSeesStores = false)
    (hb : BackedSpan s.cfg s.pc 2) (hd : ¬ CleanSpan s s.pc 2) : s.fetch = .stored := by
  rw [State.fetch, if_pos hp, State.fetchBytes_eq_stored hoff hb hd]

/-- The fetch of a word in two parcels is refused if only its second was stored to (log 11). -/
theorem State.fetch_second_eq_stored {s : State} (hp : s.cfg.ext.parcels = true) (hoff : s.cfg.fetchSeesStores = false)
    (hfirst : Fetchable s s.pc 2) (hlong : isLong (s.byteAt (s.pc + 1#32) ++ s.byteAt s.pc) = true)
    (hb : BackedSpan s.cfg (s.pc + 2#32) 2) (hd : ¬ CleanSpan s (s.pc + 2#32) 2) : s.fetch = .stored := by
  rw [State.fetch, if_pos hp, State.fetchBytes_of_fetchable hfirst, loadBytes_two, if_pos hlong,
    State.fetchBytes_eq_stored hoff hb hd]

/-- A step whose fetch finds a stored-to byte is refused (R57, R315). -/
theorem step_of_fetch_stored {s : State} (htrap : s.trap = none) (hpc : InstrAligned s.cfg s.pc)
    (hfetch : s.fetch = .stored) : step s = .refused (.storedCodeFetched s.pc) := by
  simp [step, cycle, htrap, (misalignedPc_iff _ _).2 hpc, hfetch]

/-- Settles O12: a refused fetch is one of the three `…_eq_stored`; with the parameter on every backed span is fetchable. -/
theorem fetchOfStoredBytes : Obligations.FetchOfStoredBytes := by
  intro s htrap hpc
  refine ⟨fun hp hb => ⟨fun hoff hd => ?_, fun hon => ?_⟩,
    fun hp hb => ⟨fun hoff hd => ?_, fun hon hshort => ?_, fun hlong hb' => ⟨fun hoff hc hd => ?_, fun hon => ?_⟩⟩⟩
  · exact step_of_fetch_stored htrap hpc (State.fetch_word_eq_stored hp hoff hb hd)
  · exact State.fetch_word ⟨hb, .inl hon⟩ (by simp [hp])
  · exact step_of_fetch_stored htrap hpc (State.fetch_first_eq_stored hp hoff hb hd)
  · exact State.fetch_parcel hp ⟨hb, .inl hon⟩ hshort
  · exact step_of_fetch_stored htrap hpc (State.fetch_second_eq_stored hp hoff ⟨hb, .inr hc⟩ hlong hb' hd)
  · exact State.fetch_word ⟨hb.append hb', .inl hon⟩ fun _ => hlong

/-! ### The parameter and the operations of the machine -/

/-- The state with a value of the parameter `FETCH_SEES_STORES`. -/
def State.withSeesStores (s : State) (b : Bool) : State := { s with cfg := { s.cfg with fetchSeesStores := b } }

/-- An answer with a value of the parameter in the next state. -/
def resultWithSeesStores (b : Bool) : Result → Result
  | .next t => .next (t.withSeesStores b)
  | .fault f => .fault f
  | .refused r => .refused r

/-- The operation does the same under this value of the parameter. -/
abbrev IgnoresSeesStores (f : State → Result) (s : State) (b : Bool) : Prop :=
  f (s.withSeesStores b) = resultWithSeesStores b (f s)

section
variable (s : State) (b : Bool)

@[simp] theorem State.withSeesStores_pc : (s.withSeesStores b).pc = s.pc := rfl
@[simp] theorem State.withSeesStores_mem : (s.withSeesStores b).mem = s.mem := rfl
@[simp] theorem State.withSeesStores_trap : (s.withSeesStores b).trap = s.trap := rfl
@[simp] theorem State.withSeesStores_draws : (s.withSeesStores b).draws = s.draws := rfl
@[simp] theorem State.withSeesStores_ext : (s.withSeesStores b).cfg.ext = s.cfg.ext := rfl
@[simp] theorem State.withSeesStores_seesStores : (s.withSeesStores b).cfg.fetchSeesStores = b := rfl

@[simp] theorem State.readReg_withSeesStores (r : Reg) : (s.withSeesStores b).readReg r = s.readReg r := rfl
@[simp] theorem misalignedPc_withSeesStores (p : Word) :
    misalignedPc (s.withSeesStores b).cfg p = misalignedPc s.cfg p := rfl
@[simp] theorem zilsdMisalignedTrap_withSeesStores (a : Word) :
    zilsdMisalignedTrap (s.withSeesStores b).cfg a = zilsdMisalignedTrap s.cfg a := rfl
@[simp] theorem allBacked_withSeesStores (a : Word) (n : Nat) :
    allBacked (s.withSeesStores b).cfg a n = allBacked s.cfg a n := rfl
@[simp] theorem State.memRead_withSeesStores (a : Word) (n : Nat) : (s.withSeesStores b).memRead a n = s.memRead a n := rfl

@[simp] theorem State.addDraws_withSeesStores (n : Nat) :
    (s.withSeesStores b).addDraws n = (s.addDraws n).withSeesStores b := rfl

@[simp] theorem State.writeReg_withSeesStores (r : Reg) (v : Word) :
    (s.withSeesStores b).writeReg r v = (s.writeReg r v).withSeesStores b := by
  unfold State.writeReg
  split <;> rfl

theorem State.writePair_withSeesStores (r : Reg) (v : Dword) :
    (s.withSeesStores b).writePair r v = (s.writePair r v).withSeesStores b := by
  unfold State.writePair
  split
  · rfl
  · simp

theorem State.halfAfterFault_withSeesStores (base r : Reg) (a : Word) (n : Nat) :
    (s.withSeesStores b).halfAfterFault base r a n = (s.halfAfterFault base r a n).withSeesStores b := by
  unfold State.halfAfterFault
  rw [allBacked_withSeesStores]
  split
  · simp
  · rfl

/-- Under both values a faulting load of a pair makes the same draws, from equal counters (log 20). -/
theorem State.afterFaultingLoad_withSeesStores (rd base : Reg) (a : Word) :
    (s.withSeesStores b).afterFaultingLoad rd base a = (s.afterFaultingLoad rd base a).withSeesStores b := by
  unfold State.afterFaultingLoad
  split
  · rfl
  · simp [State.halfAfterFault_withSeesStores]

/-- Under both values a faulting store of a pair makes the same draw, from equal counters (log 20). -/
theorem State.afterFaultingStore_withSeesStores (a : Word) (v : Dword) :
    (s.withSeesStores b).afterFaultingStore a v = (s.afterFaultingStore a v).withSeesStores b := by
  simp only [State.afterFaultingStore, apply_ite (State.withSeesStores · b), apply_ite (State.addDraws · 1)]
  rfl

/-! ### The parameter and what an instruction does -/

variable {s b}

/-- A choice whose condition does not depend on the parameter. -/
theorem resultWithSeesStores_ite {c : Prop} [Decidable c] {r₁ r₂ q₁ q₂ : Result} (h₁ : q₁ = resultWithSeesStores b r₁)
    (h₂ : q₂ = resultWithSeesStores b r₂) :
    (if c then q₁ else q₂) = resultWithSeesStores b (if c then r₁ else r₂) := by
  split
  · exact h₁
  · exact h₂

theorem setOp_ignoresSeesStores (rd : Reg) (v : Word) : IgnoresSeesStores (setOp rd v) s b := by
  unfold IgnoresSeesStores setOp
  rw [State.writeReg_withSeesStores]
  rfl

theorem jumpTo_ignoresSeesStores (p : Word) : IgnoresSeesStores (jumpTo p) s b :=
  resultWithSeesStores_ite rfl rfl

theorem linkAndJump_ignoresSeesStores (rd : Reg) (p : Word) : IgnoresSeesStores (linkAndJump rd p) s b := by
  refine resultWithSeesStores_ite rfl ?_
  rw [State.writeReg_withSeesStores]
  rfl

theorem branchOp_ignoresSeesStores (cond : Word → Word → Bool) (rs1 rs2 : Reg) (offset : BitVec 13) :
    IgnoresSeesStores (branchOp cond rs1 rs2 offset) s b :=
  resultWithSeesStores_ite (jumpTo_ignoresSeesStores _) rfl

theorem loadOp_ignoresSeesStores (n : Nat) (ext : BitVec (8 * n) → Word) (rd : Reg) (offset : BitVec 12) (rs1 : Reg) :
    IgnoresSeesStores (loadOp n ext rd offset rs1) s b := by
  have haddr : (s.withSeesStores b).baseDisp rs1 offset = s.baseDisp rs1 offset := rfl
  unfold IgnoresSeesStores loadOp
  rw [haddr, State.memRead_withSeesStores]
  split
  · rfl
  · rw [State.writeReg_withSeesStores]
    rfl

theorem storeOp_ignoresSeesStores (n : Nat) (rs2 : Reg) (offset : BitVec 12) (rs1 : Reg) :
    IgnoresSeesStores (storeOp n rs2 offset rs1) s b := by
  have haddr : (s.withSeesStores b).baseDisp rs1 offset = s.baseDisp rs1 offset := rfl
  unfold IgnoresSeesStores storeOp
  rw [haddr, State.readReg_withSeesStores]
  by_cases hb : BackedSpan s.cfg (s.baseDisp rs1 offset) n
  · rw [State.memWrite_eq_some s _ _ _ hb, State.memWrite_eq_some (s.withSeesStores b) _ _ _ hb]
    rfl
  · rw [State.memWrite_eq_none s _ _ _ hb, State.memWrite_eq_none (s.withSeesStores b) _ _ _ hb]
    rfl

theorem loadPair_ignoresSeesStores (rd base : Reg) (a len : Word) :
    IgnoresSeesStores (loadPair rd base a len) s b := by
  unfold IgnoresSeesStores loadPair
  rw [zilsdMisalignedTrap_withSeesStores, State.afterFaultingLoad_withSeesStores, State.memRead_withSeesStores]
  refine resultWithSeesStores_ite rfl ?_
  split
  · rfl
  · rw [State.writePair_withSeesStores]
    rfl

theorem storePair_ignoresSeesStores (rs2 : Reg) (a len : Word) : IgnoresSeesStores (storePair rs2 a len) s b := by
  have hpair : (s.withSeesStores b).readPair rs2 = s.readPair rs2 := rfl
  unfold IgnoresSeesStores storePair
  rw [hpair, zilsdMisalignedTrap_withSeesStores, State.afterFaultingStore_withSeesStores]
  refine resultWithSeesStores_ite rfl ?_
  by_cases hb : BackedSpan s.cfg a 8
  · rw [State.memWrite_eq_some s _ _ _ hb, State.memWrite_eq_some (s.withSeesStores b) _ _ _ hb]
    rfl
  · rw [State.memWrite_eq_none s _ _ _ hb, State.memWrite_eq_none (s.withSeesStores b) _ _ _ hb]
    rfl

end

/-- No instruction reads the parameter: only the fetch does (R57). -/
theorem exec_ignoresSeesStores (i : Instr) (s : State) (b : Bool) : IgnoresSeesStores (exec i) s b := by
  cases i with
  | sll rd _ _ | srl rd _ _ | sra rd _ _ | add rd _ _ | sub rd _ _ | xor rd _ _ | or rd _ _ | and rd _ _ | slt rd _ _
  | sltu rd _ _ => exact setOp_ignoresSeesStores rd _
  | slli rd _ _ | srli rd _ _ | srai rd _ _ | addi rd _ _ | xori rd _ _ | ori rd _ _ | andi rd _ _ | slti rd _ _
  | sltiu rd _ _ => exact setOp_ignoresSeesStores rd _
  | lui rd _ | auipc rd _ => exact setOp_ignoresSeesStores rd _
  | lw rd offset rs1 | lh rd offset rs1 | lb rd offset rs1 | lhu rd offset rs1 | lbu rd offset rs1 =>
    exact loadOp_ignoresSeesStores _ _ rd offset rs1
  | bne rs1 rs2 offset => exact branchOp_ignoresSeesStores (fun x y => !eqW x y) rs1 rs2 offset
  | beq rs1 rs2 offset | blt rs1 rs2 offset | bge rs1 rs2 offset | bltu rs1 rs2 offset | bgeu rs1 rs2 offset =>
    exact branchOp_ignoresSeesStores _ rs1 rs2 offset
  | jal rd _ | jalr rd _ _ => exact linkAndJump_ignoresSeesStores rd _
  | sw rs2 offset rs1 | sh rs2 offset rs1 | sb rs2 offset rs1 => exact storeOp_ignoresSeesStores _ rs2 offset rs1
  | ebreak => rfl
  | ld _ _ _ | cLdsp _ _ | cLd _ _ _ => exact resultWithSeesStores_ite (loadPair_ignoresSeesStores _ _ _ _) rfl
  | sd _ _ _ | cSdsp _ _ | cSd _ _ _ => exact resultWithSeesStores_ite (storePair_ignoresSeesStores _ _ _) rfl

/-! ### The parameter and a step -/

/-- A fetch of bytes that is not refused is the fetch with the parameter on, if what follows it is. -/
theorem State.fetchBytes_withSeesStores {s : State} {a : Word} {n : Nat} {k k' : BitVec (8 * n) → Fetched}
    (h : s.fetchBytes a n k ≠ .stored) (hk : ∀ v, k v ≠ .stored → k' v = k v) :
    (s.withSeesStores true).fetchBytes a n k' = s.fetchBytes a n k := by
  unfold State.fetchBytes at h ⊢
  rw [allBacked_withSeesStores, State.withSeesStores_seesStores]
  split
  · rfl
  · rename_i hb
    rw [if_neg hb] at h
    split at h
    · exact absurd rfl h
    · rename_i hs
      rw [if_neg hs]
      exact hk _ h

/-- A fetch that is not refused is the fetch with the parameter on. -/
theorem State.fetch_withSeesStores {s : State} (h : s.fetch ≠ .stored) : (s.withSeesStores true).fetch = s.fetch := by
  unfold State.fetch at h ⊢
  rw [State.withSeesStores_ext]
  split
  · rename_i hp
    rw [if_pos hp] at h
    refine State.fetchBytes_withSeesStores h fun lo hlo => ?_
    split
    · rename_i hlong
      rw [if_pos hlong] at hlo
      exact State.fetchBytes_withSeesStores hlo fun _ _ => rfl
    · rfl
  · rename_i hp
    rw [if_neg hp] at h
    exact State.fetchBytes_withSeesStores h fun _ _ => rfl

theorem decodeAndExecute_ignoresSeesStores (raw : RawInstr) (s : State) (b : Bool) :
    IgnoresSeesStores (decodeAndExecute raw) s b := by
  unfold IgnoresSeesStores decodeAndExecute
  rw [State.withSeesStores_ext]
  split
  · rfl
  · exact exec_ignoresSeesStores _ s b

/-- A step that has not met a stored-to byte in its fetch is the step with the parameter on. -/
theorem step_withSeesStores {s : State} (h : InstrAligned s.cfg s.pc → s.fetch ≠ .stored) :
    IgnoresSeesStores step s true := by
  unfold IgnoresSeesStores step cycle
  rw [State.withSeesStores_trap, State.withSeesStores_pc, misalignedPc_withSeesStores]
  split
  · rfl
  · by_cases hpc : misalignedPc s.cfg s.pc = true
    · rw [if_pos hpc, if_pos hpc]
      rfl
    · rw [if_neg hpc, if_neg hpc,
        State.fetch_withSeesStores (h ((misalignedPc_iff _ _).1 (Bool.eq_false_of_not_eq_true hpc)))]
      split
      · rfl
      · rfl
      · exact decodeAndExecute_ignoresSeesStores _ s true

/-- A step that gives a next state has not met a stored-to byte that it may not fetch. -/
theorem fetch_ne_stored_of_step {s t : State} (h : step s = .next t) (hpc : InstrAligned s.cfg s.pc) :
    s.fetch ≠ .stored := by
  intro hstored
  obtain ⟨htrap, -⟩ := step_next_cases h
  rw [step_of_fetch_stored htrap hpc hstored] at h
  cases h

/-- Settles O13: a step that gives a next state was not refused at its fetch, so it is the step with the parameter on. -/
theorem unwrittenCodeSameUnderBoth : Obligations.UnwrittenCodeSameUnderBoth :=
  fun _ _ _ h => (step_withSeesStores (fetch_ne_stored_of_step h)).trans (congrArg (resultWithSeesStores true) h)

end Sys2Proof.Machine
end

section
/-! The decoder, said once: the group that each major opcode selects (R82), and for every row of the opcode table the
instruction that the words under its mask and pattern decode to (R83 to R94). -/

namespace Sys2Proof.Machine

/-! ### The group that a major opcode selects (R82) -/

section
variable {ext : Extensions} {w : Word}

theorem decodeWord_lui (h : fOpcode w = 0b0110111#7) : decodeWord ext w = .ok (.lui (fRd w) (immU w)) := by
  simp only [decodeWord, h]

theorem decodeWord_auipc (h : fOpcode w = 0b0010111#7) : decodeWord ext w = .ok (.auipc (fRd w) (immU w)) := by
  simp only [decodeWord, h]

theorem decodeWord_jal (h : fOpcode w = 0b1101111#7) : decodeWord ext w = .ok (.jal (fRd w) (immJ w)) := by
  simp only [decodeWord, h]

theorem decodeWord_jalr (h : fOpcode w = 0b1100111#7) (h3 : fFunct3 w = 0b000#3) :
    decodeWord ext w = .ok (.jalr (fRd w) (fRs1 w) (immI w)) := by
  simp only [decodeWord, h, h3, if_true]

theorem decodeWord_branch (h : fOpcode w = 0b1100011#7) : decodeWord ext w = decodeBranch w := by
  simp only [decodeWord, h]

theorem decodeWord_load (h : fOpcode w = 0b0000011#7) : decodeWord ext w = decodeLoad ext w := by
  simp only [decodeWord, h]

theorem decodeWord_store (h : fOpcode w = 0b0100011#7) : decodeWord ext w = decodeStore ext w := by
  simp only [decodeWord, h]

theorem decodeWord_opImm (h : fOpcode w = 0b0010011#7) : decodeWord ext w = decodeOpImm w := by
  simp only [decodeWord, h]

theorem decodeWord_op (h : fOpcode w = 0b0110011#7) : decodeWord ext w = decodeOp w := by
  simp only [decodeWord, h]

theorem decodeWord_system (h : fOpcode w = 0b1110011#7) :
    decodeWord ext w = if w = 0x00100073#32 then .ok .ebreak else .error .reservedSystem := by
  simp only [decodeWord, h]

end

/-! ### The shift-immediates (R97) -/

/-- Where the upper bits decide: an OP-IMM word with `funct3 = 001` (R97). -/
theorem decodeWord_shiftLeft {w : Word} (ext : Extensions) (hop : fOpcode w = 0b0010011#7) (h3 : fFunct3 w = 0b001#3) :
    decodeWord ext w =
      if fFunct7 w = 0b0000000#7 then .ok (.slli (fRd w) (fRs1 w) (shamtI w)) else .error .reservedShift := by
  split_ifs with h7
  · rw [decodeWord_opImm hop, decodeOpImm, h3, h7]
    rfl
  · simp [decodeWord_opImm hop, decodeOpImm, h3]

/-- Where the upper bits decide: an OP-IMM word with `funct3 = 101` (R97). -/
theorem decodeWord_shiftRight {w : Word} (ext : Extensions) (hop : fOpcode w = 0b0010011#7) (h3 : fFunct3 w = 0b101#3) :
    decodeWord ext w =
      if fFunct7 w = 0b0000000#7 then .ok (.srli (fRd w) (fRs1 w) (shamtI w))
      else if fFunct7 w = 0b0100000#7 then .ok (.srai (fRd w) (fRs1 w) (shamtI w))
      else .error .reservedShift := by
  split_ifs with hl ha
  · rw [decodeWord_opImm hop, decodeOpImm, h3, hl]
    rfl
  · rw [decodeWord_opImm hop, decodeOpImm, h3, ha]
    rfl
  · simp [decodeWord_opImm hop, decodeOpImm, h3]

/-! ### The base instruction of each row (R94) -/

section
variable {pat : Word} {i : Word → Instr}

/-- A row that fixes the opcode only. -/
theorem encodedBy_opcode (h : ∀ ext w, fOpcode w = fOpcode pat → decodeWord ext w = .ok (i w)) :
    EncodedBy 0x0000007f#32 pat i :=
  fun ext w hw => h ext w (field_of_mask 0 7 hw rfl)

/-- A row that fixes the opcode and `funct3`. -/
theorem encodedBy_funct3
    (h : ∀ ext w, fOpcode w = fOpcode pat → fFunct3 w = fFunct3 pat → decodeWord ext w = .ok (i w)) :
    EncodedBy 0x0000707f#32 pat i :=
  fun ext w hw => h ext w (field_of_mask 0 7 hw rfl) (field_of_mask 12 3 hw rfl)

/-- A row that fixes the opcode, `funct3` and `funct7`. -/
theorem encodedBy_funct7
    (h : ∀ ext w, fOpcode w = fOpcode pat → fFunct3 w = fFunct3 pat → fFunct7 w = fFunct7 pat →
      decodeWord ext w = .ok (i w)) :
    EncodedBy 0xfe00707f#32 pat i :=
  fun ext w hw => h ext w (field_of_mask 0 7 hw rfl) (field_of_mask 12 3 hw rfl) (field_of_mask 25 7 hw rfl)

end

theorem encodedBy_sll : EncodedBy 0xfe00707f#32 0x00001033#32 fun w => .sll (fRd w) (fRs1 w) (fRs2 w) :=
  encodedBy_funct7 fun _ w hop h3 h7 => by rw [decodeWord_op hop, decodeOp, h3, h7]; rfl

theorem encodedBy_srl : EncodedBy 0xfe00707f#32 0x00005033#32 fun w => .srl (fRd w) (fRs1 w) (fRs2 w) :=
  encodedBy_funct7 fun _ w hop h3 h7 => by rw [decodeWord_op hop, decodeOp, h3, h7]; rfl

theorem encodedBy_sra : EncodedBy 0xfe00707f#32 0x40005033#32 fun w => .sra (fRd w) (fRs1 w) (fRs2 w) :=
  encodedBy_funct7 fun _ w hop h3 h7 => by rw [decodeWord_op hop, decodeOp, h3, h7]; rfl

theorem encodedBy_add : EncodedBy 0xfe00707f#32 0x00000033#32 fun w => .add (fRd w) (fRs1 w) (fRs2 w) :=
  encodedBy_funct7 fun _ w hop h3 h7 => by rw [decodeWord_op hop, decodeOp, h3, h7]; rfl

theorem encodedBy_sub : EncodedBy 0xfe00707f#32 0x40000033#32 fun w => .sub (fRd w) (fRs1 w) (fRs2 w) :=
  encodedBy_funct7 fun _ w hop h3 h7 => by rw [decodeWord_op hop, decodeOp, h3, h7]; rfl

theorem encodedBy_xor : EncodedBy 0xfe00707f#32 0x00004033#32 fun w => .xor (fRd w) (fRs1 w) (fRs2 w) :=
  encodedBy_funct7 fun _ w hop h3 h7 => by rw [decodeWord_op hop, decodeOp, h3, h7]; rfl

theorem encodedBy_or : EncodedBy 0xfe00707f#32 0x00006033#32 fun w => .or (fRd w) (fRs1 w) (fRs2 w) :=
  encodedBy_funct7 fun _ w hop h3 h7 => by rw [decodeWord_op hop, decodeOp, h3, h7]; rfl

theorem encodedBy_and : EncodedBy 0xfe00707f#32 0x00007033#32 fun w => .and (fRd w) (fRs1 w) (fRs2 w) :=
  encodedBy_funct7 fun _ w hop h3 h7 => by rw [decodeWord_op hop, decodeOp, h3, h7]; rfl

theorem encodedBy_slt : EncodedBy 0xfe00707f#32 0x00002033#32 fun w => .slt (fRd w) (fRs1 w) (fRs2 w) :=
  encodedBy_funct7 fun _ w hop h3 h7 => by rw [decodeWord_op hop, decodeOp, h3, h7]; rfl

theorem encodedBy_sltu : EncodedBy 0xfe00707f#32 0x00003033#32 fun w => .sltu (fRd w) (fRs1 w) (fRs2 w) :=
  encodedBy_funct7 fun _ w hop h3 h7 => by rw [decodeWord_op hop, decodeOp, h3, h7]; rfl

theorem encodedBy_slli : EncodedBy 0xfe00707f#32 0x00001013#32 fun w => .slli (fRd w) (fRs1 w) (shamtI w) :=
  encodedBy_funct7 fun ext _ hop h3 h7 => (decodeWord_shiftLeft ext hop h3).trans (if_pos h7)

theorem encodedBy_srli : EncodedBy 0xfe00707f#32 0x00005013#32 fun w => .srli (fRd w) (fRs1 w) (shamtI w) :=
  encodedBy_funct7 fun ext _ hop h3 h7 => (decodeWord_shiftRight ext hop h3).trans (if_pos h7)

theorem encodedBy_srai : EncodedBy 0xfe00707f#32 0x40005013#32 fun w => .srai (fRd w) (fRs1 w) (shamtI w) :=
  encodedBy_funct7 fun ext _ hop h3 h7 => by rw [decodeWord_shiftRight ext hop h3, h7]; rfl

theorem encodedBy_addi : EncodedBy 0x0000707f#32 0x00000013#32 fun w => .addi (fRd w) (fRs1 w) (immI w) :=
  encodedBy_funct3 fun _ w hop h3 => by rw [decodeWord_opImm hop, decodeOpImm, h3]; rfl

theorem encodedBy_xori : EncodedBy 0x0000707f#32 0x00004013#32 fun w => .xori (fRd w) (fRs1 w) (immI w) :=
  encodedBy_funct3 fun _ w hop h3 => by rw [decodeWord_opImm hop, decodeOpImm, h3]; rfl

theorem encodedBy_ori : EncodedBy 0x0000707f#32 0x00006013#32 fun w => .ori (fRd w) (fRs1 w) (immI w) :=
  encodedBy_funct3 fun _ w hop h3 => by rw [decodeWord_opImm hop, decodeOpImm, h3]; rfl

theorem encodedBy_andi : EncodedBy 0x0000707f#32 0x00007013#32 fun w => .andi (fRd w) (fRs1 w) (immI w) :=
  encodedBy_funct3 fun _ w hop h3 => by rw [decodeWord_opImm hop, decodeOpImm, h3]; rfl

theorem encodedBy_slti : EncodedBy 0x0000707f#32 0x00002013#32 fun w => .slti (fRd w) (fRs1 w) (immI w) :=
  encodedBy_funct3 fun _ w hop h3 => by rw [decodeWord_opImm hop, decodeOpImm, h3]; rfl

theorem encodedBy_sltiu : EncodedBy 0x0000707f#32 0x00003013#32 fun w => .sltiu (fRd w) (fRs1 w) (immI w) :=
  encodedBy_funct3 fun _ w hop h3 => by rw [decodeWord_opImm hop, decodeOpImm, h3]; rfl

theorem encodedBy_lw : EncodedBy 0x0000707f#32 0x00002003#32 fun w => .lw (fRd w) (immI w) (fRs1 w) :=
  encodedBy_funct3 fun _ w hop h3 => by rw [decodeWord_load hop, decodeLoad, h3]; rfl

theorem encodedBy_lh : EncodedBy 0x0000707f#32 0x00001003#32 fun w => .lh (fRd w) (immI w) (fRs1 w) :=
  encodedBy_funct3 fun _ w hop h3 => by rw [decodeWord_load hop, decodeLoad, h3]; rfl

theorem encodedBy_lb : EncodedBy 0x0000707f#32 0x00000003#32 fun w => .lb (fRd w) (immI w) (fRs1 w) :=
  encodedBy_funct3 fun _ w hop h3 => by rw [decodeWord_load hop, decodeLoad, h3]; rfl

theorem encodedBy_lhu : EncodedBy 0x0000707f#32 0x00005003#32 fun w => .lhu (fRd w) (immI w) (fRs1 w) :=
  encodedBy_funct3 fun _ w hop h3 => by rw [decodeWord_load hop, decodeLoad, h3]; rfl

theorem encodedBy_lbu : EncodedBy 0x0000707f#32 0x00004003#32 fun w => .lbu (fRd w) (immI w) (fRs1 w) :=
  encodedBy_funct3 fun _ w hop h3 => by rw [decodeWord_load hop, decodeLoad, h3]; rfl

theorem encodedBy_lui : EncodedBy 0x0000007f#32 0x00000037#32 fun w => .lui (fRd w) (immU w) :=
  encodedBy_opcode fun _ _ hop => decodeWord_lui hop

theorem encodedBy_auipc : EncodedBy 0x0000007f#32 0x00000017#32 fun w => .auipc (fRd w) (immU w) :=
  encodedBy_opcode fun _ _ hop => decodeWord_auipc hop

theorem encodedBy_beq : EncodedBy 0x0000707f#32 0x00000063#32 fun w => .beq (fRs1 w) (fRs2 w) (immB w) :=
  encodedBy_funct3 fun _ w hop h3 => by rw [decodeWord_branch hop, decodeBranch, h3]; rfl

theorem encodedBy_bne : EncodedBy 0x0000707f#32 0x00001063#32 fun w => .bne (fRs1 w) (fRs2 w) (immB w) :=
  encodedBy_funct3 fun _ w hop h3 => by rw [decodeWord_branch hop, decodeBranch, h3]; rfl

theorem encodedBy_blt : EncodedBy 0x0000707f#32 0x00004063#32 fun w => .blt (fRs1 w) (fRs2 w) (immB w) :=
  encodedBy_funct3 fun _ w hop h3 => by rw [decodeWord_branch hop, decodeBranch, h3]; rfl

theorem encodedBy_bge : EncodedBy 0x0000707f#32 0x00005063#32 fun w => .bge (fRs1 w) (fRs2 w) (immB w) :=
  encodedBy_funct3 fun _ w hop h3 => by rw [decodeWord_branch hop, decodeBranch, h3]; rfl

theorem encodedBy_bltu : EncodedBy 0x0000707f#32 0x00006063#32 fun w => .bltu (fRs1 w) (fRs2 w) (immB w) :=
  encodedBy_funct3 fun _ w hop h3 => by rw [decodeWord_branch hop, decodeBranch, h3]; rfl

theorem encodedBy_bgeu : EncodedBy 0x0000707f#32 0x00007063#32 fun w => .bgeu (fRs1 w) (fRs2 w) (immB w) :=
  encodedBy_funct3 fun _ w hop h3 => by rw [decodeWord_branch hop, decodeBranch, h3]; rfl

theorem encodedBy_jal : EncodedBy 0x0000007f#32 0x0000006f#32 fun w => .jal (fRd w) (immJ w) :=
  encodedBy_opcode fun _ _ hop => decodeWord_jal hop

theorem encodedBy_jalr : EncodedBy 0x0000707f#32 0x00000067#32 fun w => .jalr (fRd w) (fRs1 w) (immI w) :=
  encodedBy_funct3 fun _ _ hop h3 => decodeWord_jalr hop h3

theorem encodedBy_sw : EncodedBy 0x0000707f#32 0x00002023#32 fun w => .sw (fRs2 w) (immS w) (fRs1 w) :=
  encodedBy_funct3 fun _ w hop h3 => by rw [decodeWord_store hop, decodeStore, h3]; rfl

theorem encodedBy_sh : EncodedBy 0x0000707f#32 0x00001023#32 fun w => .sh (fRs2 w) (immS w) (fRs1 w) :=
  encodedBy_funct3 fun _ w hop h3 => by rw [decodeWord_store hop, decodeStore, h3]; rfl

theorem encodedBy_sb : EncodedBy 0x0000707f#32 0x00000023#32 fun w => .sb (fRs2 w) (immS w) (fRs1 w) :=
  encodedBy_funct3 fun _ w hop h3 => by rw [decodeWord_store hop, decodeStore, h3]; rfl

/-- The row of `ebreak` fixes the whole word (R91). -/
theorem encodedBy_ebreak : EncodedBy 0xffffffff#32 0x00100073#32 fun _ => .ebreak := by
  intro ext w hw
  have hall : 0xffffffff#32 = BitVec.allOnes 32 := rfl
  rw [hall, BitVec.and_allOnes] at hw
  subst hw
  rfl

/-! ### The pair instructions (R262, R263, R269, R273 to R277) -/

/-- A word with the opcode and `funct3` of `ld`. -/
theorem decodeWord_ld {w : Word} (ext : Extensions) (hop : fOpcode w = 0b0000011#7) (h3 : fFunct3 w = 0b011#3) :
    decodeWord ext w =
      if ext.zilsd then (if evenReg (fRd w) then .ok (.ld (fRd w) (immI w) (fRs1 w)) else .error .oddPair)
      else .error .zilsdOff := by
  rw [decodeWord_load hop, decodeLoad, h3]; rfl

/-- A word with the opcode and `funct3` of `sd`. -/
theorem decodeWord_sd {w : Word} (ext : Extensions) (hop : fOpcode w = 0b0100011#7) (h3 : fFunct3 w = 0b011#3) :
    decodeWord ext w =
      if ext.zilsd then (if evenReg (fRs2 w) then .ok (.sd (fRs2 w) (immS w) (fRs1 w)) else .error .oddPair)
      else .error .zilsdOff := by
  rw [decodeWord_store hop, decodeStore, h3]; rfl

section
variable {h : Half}

/-- A parcel with the `funct3` and quadrant of `c.ldsp`. -/
theorem decodeParcel_cLdsp (h3 : h.extractLsb' 13 3 = 0b011#3) (h2 : h.extractLsb' 0 2 = 0b10#2) :
    decodeParcel h =
      if h.extractLsb' 7 5 = 0#5 then .error .zeroDestination
      else if evenReg (h.extractLsb' 7 5) then .ok (.cLdsp (h.extractLsb' 7 5) (immCLdsp h)) else .error .oddPair := by
  rw [decodeParcel, h3, h2]; rfl

/-- A parcel with the `funct3` and quadrant of `c.sdsp`. -/
theorem decodeParcel_cSdsp (h3 : h.extractLsb' 13 3 = 0b111#3) (h2 : h.extractLsb' 0 2 = 0b10#2) :
    decodeParcel h =
      if evenReg (h.extractLsb' 2 5) then .ok (.cSdsp (h.extractLsb' 2 5) (immCSdsp h)) else .error .oddPair := by
  rw [decodeParcel, h3, h2]; rfl

/-- A parcel with the `funct3` and quadrant of `c.ld`. -/
theorem decodeParcel_cLd (h3 : h.extractLsb' 13 3 = 0b011#3) (h2 : h.extractLsb' 0 2 = 0b00#2) :
    decodeParcel h =
      if evenReg (h.extractLsb' 2 3) then .ok (.cLd (h.extractLsb' 2 3) (immCPair h) (h.extractLsb' 7 3))
      else .error .oddPair := by
  rw [decodeParcel, h3, h2]; rfl

/-- A parcel with the `funct3` and quadrant of `c.sd`. -/
theorem decodeParcel_cSd (h3 : h.extractLsb' 13 3 = 0b111#3) (h2 : h.extractLsb' 0 2 = 0b00#2) :
    decodeParcel h =
      if evenReg (h.extractLsb' 2 3) then .ok (.cSd (h.extractLsb' 2 3) (immCPair h) (h.extractLsb' 7 3))
      else .error .oddPair := by
  rw [decodeParcel, h3, h2]; rfl

end

end Sys2Proof.Machine
end

section
/-! The round trip of R95: every well-formed instruction's bits decode to it, and what decodes has the bits decoded. -/

namespace Sys2Proof.Machine

/-- The machine has the extensions that an instruction needs. -/
abbrev HasExt (ext needs : Extensions) : Prop :=
  (needs.zilsd = true → ext.zilsd = true) ∧ (needs.zclsd = true → ext.zclsd = true)

/-! ### The low bits of what decodes (R100, R271) -/

/-- Every major opcode of R82 ends in `11`. -/
theorem decodeWord_of_low_ne_three {w : Word} (ext : Extensions) (h : w.extractLsb' 0 2 ≠ 0b11#2) :
    decodeWord ext w = .error .unassignedOpcode := by
  have hlow : (fOpcode w).extractLsb' 0 2 ≠ 0b11#2 := by rwa [extract_extract _ _ _ _ _ (by decide)]
  unfold decodeWord
  split
  case h_11 => rfl
  all_goals
    rename_i hop
    rw [hop] at hlow
    exact absurd rfl hlow

theorem decodeWord_low {ext : Extensions} {w : Word} {i : Instr} (h : decodeWord ext w = .ok i) :
    w.extractLsb' 0 2 = 0b11#2 := by
  by_contra hlow
  rw [decodeWord_of_low_ne_three ext hlow] at h
  cases h

/-! ### Encoding, then decoding: words -/

section
variable {ext : Extensions} {op f7 : BitVec 7} {f3 : BitVec 3} (rd rs1 rs2 : Reg)

theorem decodeWord_rWord {i : Reg → Reg → Reg → Instr}
    (h : EncodedBy 0xfe00707f#32 (f7 ++ 0#5 ++ 0#5 ++ f3 ++ 0#5 ++ op) fun w => i (fRd w) (fRs1 w) (fRs2 w)) :
    decodeWord ext (rWord f7 rs2 rs1 f3 rd op) = .ok (i rd rs1 rs2) := by
  simp only [h ext _ (rWord_mask ..), rWord_rd, rWord_rs1, rWord_rs2]

theorem decodeWord_iWord {i : Reg → Reg → BitVec 12 → Instr} (imm : BitVec 12)
    (h : EncodedBy 0x0000707f#32 (0#12 ++ 0#5 ++ f3 ++ 0#5 ++ op) fun w => i (fRd w) (fRs1 w) (immI w)) :
    decodeWord ext (iWord imm rs1 f3 rd op) = .ok (i rd rs1 imm) := by
  simp only [h ext _ (iWord_mask ..), iWord_rd, iWord_rs1, iWord_imm]

theorem decodeWord_sWord {i : Reg → Reg → BitVec 12 → Instr} (imm : BitVec 12)
    (h : EncodedBy 0x0000707f#32 (0#7 ++ 0#5 ++ 0#5 ++ f3 ++ 0#5 ++ op) fun w => i (fRs2 w) (fRs1 w) (immS w)) :
    decodeWord ext (sWord imm rs2 rs1 f3 op) = .ok (i rs2 rs1 imm) := by
  simp only [h ext _ (sWord_mask ..), sWord_rs2, sWord_rs1, sWord_imm]

theorem decodeWord_bWord {i : Reg → Reg → BitVec 13 → Instr} (imm : BitVec 13) (he : evenOffset imm = true)
    (h : EncodedBy 0x0000707f#32 (0#1 ++ 0#6 ++ 0#5 ++ 0#5 ++ f3 ++ 0#4 ++ 0#1 ++ op) fun w =>
      i (fRs1 w) (fRs2 w) (immB w)) :
    decodeWord ext (bWord imm rs2 rs1 f3 op) = .ok (i rs1 rs2 imm) := by
  simp only [h ext _ (bWord_mask ..), bWord_rs1, bWord_rs2, bWord_imm _ _ _ _ _ he]

theorem decodeWord_uWord {i : Reg → BitVec 20 → Instr} (imm : BitVec 20)
    (h : EncodedBy 0x0000007f#32 (0#20 ++ 0#5 ++ op) fun w => i (fRd w) (immU w)) :
    decodeWord ext (uWord imm rd op) = .ok (i rd imm) := by
  simp only [h ext _ (uWord_mask ..), uWord_rd, uWord_imm]

theorem decodeWord_jWord {i : Reg → BitVec 21 → Instr} (imm : BitVec 21) (he : evenOffset imm = true)
    (h : EncodedBy 0x0000007f#32 (0#1 ++ 0#10 ++ 0#1 ++ 0#8 ++ 0#5 ++ op) fun w => i (fRd w) (immJ w)) :
    decodeWord ext (jWord imm rd op) = .ok (i rd imm) := by
  simp only [h ext _ (jWord_mask ..), jWord_rd, jWord_imm _ _ _ he]

end

/-! ### Encoding, then decoding: every instruction -/

/-- The bits of a well-formed instruction decode to it where the machine has its extensions (R95). -/
theorem decodeRaw_encodeRaw {ext : Extensions} {i : Instr} (hwf : i.wf = true) (hext : HasExt ext i.needs) :
    decodeRaw ext (encodeRaw i) = .ok i := by
  cases i with
  | sll rd rs1 rs2 => exact decodeWord_rWord rd rs1 rs2 encodedBy_sll
  | srl rd rs1 rs2 => exact decodeWord_rWord rd rs1 rs2 encodedBy_srl
  | sra rd rs1 rs2 => exact decodeWord_rWord rd rs1 rs2 encodedBy_sra
  | add rd rs1 rs2 => exact decodeWord_rWord rd rs1 rs2 encodedBy_add
  | sub rd rs1 rs2 => exact decodeWord_rWord rd rs1 rs2 encodedBy_sub
  | xor rd rs1 rs2 => exact decodeWord_rWord rd rs1 rs2 encodedBy_xor
  | or rd rs1 rs2 => exact decodeWord_rWord rd rs1 rs2 encodedBy_or
  | and rd rs1 rs2 => exact decodeWord_rWord rd rs1 rs2 encodedBy_and
  | slt rd rs1 rs2 => exact decodeWord_rWord rd rs1 rs2 encodedBy_slt
  | sltu rd rs1 rs2 => exact decodeWord_rWord rd rs1 rs2 encodedBy_sltu
  | slli rd rs1 shamt => exact decodeWord_rWord rd rs1 shamt encodedBy_slli
  | srli rd rs1 shamt => exact decodeWord_rWord rd rs1 shamt encodedBy_srli
  | srai rd rs1 shamt => exact decodeWord_rWord rd rs1 shamt encodedBy_srai
  | addi rd rs1 imm => exact decodeWord_iWord rd rs1 imm encodedBy_addi
  | xori rd rs1 imm => exact decodeWord_iWord rd rs1 imm encodedBy_xori
  | ori rd rs1 imm => exact decodeWord_iWord rd rs1 imm encodedBy_ori
  | andi rd rs1 imm => exact decodeWord_iWord rd rs1 imm encodedBy_andi
  | slti rd rs1 imm => exact decodeWord_iWord rd rs1 imm encodedBy_slti
  | sltiu rd rs1 imm => exact decodeWord_iWord rd rs1 imm encodedBy_sltiu
  | lw rd offset rs1 => exact decodeWord_iWord (i := fun rd rs1 imm => .lw rd imm rs1) rd rs1 offset encodedBy_lw
  | lh rd offset rs1 => exact decodeWord_iWord (i := fun rd rs1 imm => .lh rd imm rs1) rd rs1 offset encodedBy_lh
  | lb rd offset rs1 => exact decodeWord_iWord (i := fun rd rs1 imm => .lb rd imm rs1) rd rs1 offset encodedBy_lb
  | lhu rd offset rs1 => exact decodeWord_iWord (i := fun rd rs1 imm => .lhu rd imm rs1) rd rs1 offset encodedBy_lhu
  | lbu rd offset rs1 => exact decodeWord_iWord (i := fun rd rs1 imm => .lbu rd imm rs1) rd rs1 offset encodedBy_lbu
  | lui rd imm => exact decodeWord_uWord rd imm encodedBy_lui
  | auipc rd imm => exact decodeWord_uWord rd imm encodedBy_auipc
  | beq rs1 rs2 offset => exact decodeWord_bWord rs1 rs2 offset hwf encodedBy_beq
  | bne rs1 rs2 offset => exact decodeWord_bWord rs1 rs2 offset hwf encodedBy_bne
  | blt rs1 rs2 offset => exact decodeWord_bWord rs1 rs2 offset hwf encodedBy_blt
  | bge rs1 rs2 offset => exact decodeWord_bWord rs1 rs2 offset hwf encodedBy_bge
  | bltu rs1 rs2 offset => exact decodeWord_bWord rs1 rs2 offset hwf encodedBy_bltu
  | bgeu rs1 rs2 offset => exact decodeWord_bWord rs1 rs2 offset hwf encodedBy_bgeu
  | jal rd offset => exact decodeWord_jWord rd offset hwf encodedBy_jal
  | jalr rd rs1 imm => exact decodeWord_iWord rd rs1 imm encodedBy_jalr
  | sw rs2 offset rs1 => exact decodeWord_sWord (i := fun rs2 rs1 imm => .sw rs2 imm rs1) rs1 rs2 offset encodedBy_sw
  | sh rs2 offset rs1 => exact decodeWord_sWord (i := fun rs2 rs1 imm => .sh rs2 imm rs1) rs1 rs2 offset encodedBy_sh
  | sb rs2 offset rs1 => exact decodeWord_sWord (i := fun rs2 rs1 imm => .sb rs2 imm rs1) rs1 rs2 offset encodedBy_sb
  | ebreak => rfl
  | ld rd offset rs1 =>
    have heven : evenReg rd = true := hwf
    have hdec := decodeWord_ld ext (iWord_opcode 0b0000011#7 rd rs1 0b011#3 offset) (iWord_funct3 ..)
    rw [iWord_rd, iWord_imm, iWord_rs1, if_pos (hext.1 rfl), if_pos heven] at hdec
    exact hdec
  | sd rs2 offset rs1 =>
    have heven : evenReg rs2 = true := hwf
    have hdec := decodeWord_sd ext (sWord_opcode 0b0100011#7 rs1 rs2 0b011#3 offset) (sWord_funct3 ..)
    rw [sWord_rs2, sWord_imm, sWord_rs1, if_pos (hext.1 rfl), if_pos heven] at hdec
    exact hdec
  | cLdsp rd offset =>
    simp only [Instr.wf, Bool.and_eq_true, bne_iff_ne] at hwf
    obtain ⟨⟨heven, hne⟩, hmul⟩ := hwf
    have hdec := decodeParcel_cLdsp (cLdspHalf_funct3 offset rd) (cLdspHalf_quadrant offset rd)
    rw [cLdspHalf_rd, cLdspHalf_imm _ _ hmul, if_neg hne, if_pos heven] at hdec
    exact hdec
  | cSdsp rs2 offset =>
    simp only [Instr.wf, Bool.and_eq_true] at hwf
    obtain ⟨heven, hmul⟩ := hwf
    have hdec := decodeParcel_cSdsp (cSdspHalf_funct3 offset rs2) (cSdspHalf_quadrant offset rs2)
    rw [cSdspHalf_rs2, cSdspHalf_imm _ _ hmul, if_pos heven] at hdec
    exact hdec
  | cLd rd offset rs1 =>
    simp only [Instr.wf, Bool.and_eq_true] at hwf
    obtain ⟨heven, hmul⟩ := hwf
    have hdec := decodeParcel_cLd (cPairHalf_funct3 offset rd rs1 0b011#3) (cPairHalf_quadrant ..)
    rw [cPairHalf_r, cPairHalf_imm _ _ _ _ hmul, cPairHalf_rs1, if_pos heven] at hdec
    exact hdec
  | cSd rs2 offset rs1 =>
    simp only [Instr.wf, Bool.and_eq_true] at hwf
    obtain ⟨heven, hmul⟩ := hwf
    have hdec := decodeParcel_cSd (cPairHalf_funct3 offset rs2 rs1 0b111#3) (cPairHalf_quadrant ..)
    rw [cPairHalf_r, cPairHalf_imm _ _ _ _ hmul, cPairHalf_rs1, if_pos heven] at hdec
    exact hdec

/-! ### Decoding, then encoding -/

/-- The bits are the encoding of the instruction, which is well-formed. -/
abbrev Encodes (i : Instr) (raw : RawInstr) : Prop := encodeRaw i = raw ∧ i.wf = true

section
variable {w : Word} {i : Instr} {op f7 : BitVec 7} {f3 : BitVec 3}

/-- A word is put together from its operands and the values of its opcode, `funct3` and `funct7`. -/
theorem rWord_of_fields (h7 : fFunct7 w = f7) (h3 : fFunct3 w = f3) (hop : fOpcode w = op) :
    rWord f7 (fRs2 w) (fRs1 w) f3 (fRd w) op = w := by
  subst h7 h3 hop
  exact rWord_eq w

theorem iWord_of_fields (h3 : fFunct3 w = f3) (hop : fOpcode w = op) : iWord (immI w) (fRs1 w) f3 (fRd w) op = w := by
  subst h3 hop
  exact iWord_eq w

theorem sWord_of_fields (h3 : fFunct3 w = f3) (hop : fOpcode w = op) : sWord (immS w) (fRs2 w) (fRs1 w) f3 op = w := by
  subst h3 hop
  exact sWord_eq w

theorem bWord_of_fields (h3 : fFunct3 w = f3) (hop : fOpcode w = op) : bWord (immB w) (fRs2 w) (fRs1 w) f3 op = w := by
  subst h3 hop
  exact bWord_eq w

theorem uWord_of_fields (hop : fOpcode w = op) : uWord (immU w) (fRd w) op = w := by
  subst hop
  exact uWord_eq w

theorem jWord_of_fields (hop : fOpcode w = op) : jWord (immJ w) (fRd w) op = w := by
  subst hop
  exact jWord_eq w

theorem encodes_of_decodeOp (hop : fOpcode w = 0b0110011#7) (h : decodeOp w = .ok i) : Encodes i (.word w) := by
  unfold decodeOp at h
  split at h
  case h_11 => cases h
  all_goals
    rename_i h7 h3
    cases h
    exact ⟨congrArg RawInstr.word (rWord_of_fields h7 h3 hop), rfl⟩

/-- `funct3 = 101` is the one value that the other OP-IMM rows leave (R84). -/
theorem funct3_eq_five {f : BitVec 3} (h0 : f ≠ 0b000#3) (h2 : f ≠ 0b010#3) (h3 : f ≠ 0b011#3) (h4 : f ≠ 0b100#3)
    (h6 : f ≠ 0b110#3) (h7 : f ≠ 0b111#3) (h1 : f ≠ 0b001#3) : f = 0b101#3 := by
  bv_omega

theorem encodes_of_decodeOpImm (hop : fOpcode w = 0b0010011#7) (h : decodeOpImm w = .ok i) : Encodes i (.word w) := by
  unfold decodeOpImm at h
  split at h
  case h_7 =>
    rename_i h3
    split at h
    · rename_i h7
      cases h
      exact ⟨congrArg RawInstr.word (rWord_of_fields h7 h3 hop), rfl⟩
    · cases h
  case h_8 h0 h2 h3 h4 h6 h7 h1 =>
    have hf : fFunct3 w = 0b101#3 := funct3_eq_five h0 h2 h3 h4 h6 h7 h1
    split at h
    · rename_i h7
      cases h
      exact ⟨congrArg RawInstr.word (rWord_of_fields h7 hf hop), rfl⟩
    · rename_i h7
      cases h
      exact ⟨congrArg RawInstr.word (rWord_of_fields h7 hf hop), rfl⟩
    · cases h
  all_goals
    rename_i h3
    cases h
    exact ⟨congrArg RawInstr.word (iWord_of_fields h3 hop), rfl⟩

theorem encodes_of_decodeLoad {ext : Extensions} (hop : fOpcode w = 0b0000011#7) (h : decodeLoad ext w = .ok i) :
    Encodes i (.word w) := by
  unfold decodeLoad at h
  split at h
  case h_6 =>
    rename_i h3
    dsimp only at h
    split_ifs at h with _ heven
    cases h
    exact ⟨congrArg RawInstr.word (iWord_of_fields h3 hop), heven⟩
  case h_7 => cases h
  all_goals
    rename_i h3
    cases h
    exact ⟨congrArg RawInstr.word (iWord_of_fields h3 hop), rfl⟩

theorem encodes_of_decodeStore {ext : Extensions} (hop : fOpcode w = 0b0100011#7) (h : decodeStore ext w = .ok i) :
    Encodes i (.word w) := by
  unfold decodeStore at h
  split at h
  case h_4 =>
    rename_i h3
    dsimp only at h
    split_ifs at h with _ heven
    cases h
    exact ⟨congrArg RawInstr.word (sWord_of_fields h3 hop), heven⟩
  case h_5 => cases h
  all_goals
    rename_i h3
    cases h
    exact ⟨congrArg RawInstr.word (sWord_of_fields h3 hop), rfl⟩

theorem encodes_of_decodeBranch (hop : fOpcode w = 0b1100011#7) (h : decodeBranch w = .ok i) : Encodes i (.word w) := by
  unfold decodeBranch at h
  split at h
  case h_7 => cases h
  all_goals
    rename_i h3
    cases h
    exact ⟨congrArg RawInstr.word (bWord_of_fields h3 hop), evenOffset_append _⟩

/-- A word is the encoding of the instruction that it decodes to (R95). -/
theorem encodes_of_decodeWord {ext : Extensions} (h : decodeWord ext w = .ok i) : Encodes i (.word w) := by
  unfold decodeWord at h
  split at h
  case h_1 hop =>
    cases h
    exact ⟨congrArg RawInstr.word (uWord_of_fields hop), rfl⟩
  case h_2 hop =>
    cases h
    exact ⟨congrArg RawInstr.word (uWord_of_fields hop), rfl⟩
  case h_3 hop =>
    cases h
    exact ⟨congrArg RawInstr.word (jWord_of_fields hop), evenOffset_append _⟩
  case h_4 hop =>
    split_ifs at h with h3
    cases h
    exact ⟨congrArg RawInstr.word (iWord_of_fields h3 hop), rfl⟩
  case h_5 hop => exact encodes_of_decodeBranch hop h
  case h_6 hop => exact encodes_of_decodeLoad hop h
  case h_7 hop => exact encodes_of_decodeStore hop h
  case h_8 hop => exact encodes_of_decodeOpImm hop h
  case h_9 hop => exact encodes_of_decodeOp hop h
  case h_10 =>
    split_ifs at h with hw
    cases h
    exact ⟨congrArg RawInstr.word hw.symm, rfl⟩
  case h_11 => cases h

end

/-! The offsets of the 16-bit forms are scaled by 8 (R273 to R276). -/

theorem multipleOf8_immCLdsp (h : Half) : multipleOf8 (immCLdsp h) = true := multipleOf8_append _

theorem multipleOf8_immCSdsp (h : Half) : multipleOf8 (immCSdsp h) = true := multipleOf8_append _

theorem multipleOf8_immCPair (h : Half) : multipleOf8 (immCPair h) = true := multipleOf8_append _

theorem cPairHalf_of_fields {h : Half} {f3 : BitVec 3} (h3 : h.extractLsb' 13 3 = f3) (h2 : h.extractLsb' 0 2 = 0b00#2) :
    cPairHalf f3 (immCPair h) (h.extractLsb' 7 3) (h.extractLsb' 2 3) = h := by
  subst h3
  exact cPairHalf_eq h h2

/-- A parcel is the encoding of the instruction that it decodes to (R95). -/
theorem encodes_of_decodeParcel {h : Half} {i : Instr} (hdec : decodeParcel h = .ok i) : Encodes i (.parcel h) := by
  unfold decodeParcel at hdec
  split at hdec
  case h_1 h3 h2 =>
    dsimp only at hdec
    split_ifs at hdec with hne heven
    cases hdec
    exact ⟨congrArg RawInstr.parcel (cLdspHalf_eq h h3 h2), by simp [Instr.wf, hne, heven, multipleOf8_immCLdsp h]⟩
  case h_2 h3 h2 =>
    dsimp only at hdec
    split_ifs at hdec with heven
    cases hdec
    exact ⟨congrArg RawInstr.parcel (cSdspHalf_eq h h3 h2), by simp [Instr.wf, heven, multipleOf8_immCSdsp h]⟩
  case h_3 h3 h2 =>
    dsimp only at hdec
    split_ifs at hdec with heven
    cases hdec
    exact ⟨congrArg RawInstr.parcel (cPairHalf_of_fields h3 h2), by simp [Instr.wf, heven, multipleOf8_immCPair h]⟩
  case h_4 h3 h2 =>
    dsimp only at hdec
    split_ifs at hdec with heven
    cases hdec
    exact ⟨congrArg RawInstr.parcel (cPairHalf_of_fields h3 h2), by simp [Instr.wf, heven, multipleOf8_immCPair h]⟩
  case h_5 => cases hdec

/-- Bits are the encoding of the instruction that they decode to (R95). -/
theorem encodes_of_decodeRaw {ext : Extensions} {raw : RawInstr} {i : Instr} (h : decodeRaw ext raw = .ok i) :
    Encodes i raw := by
  cases raw with
  | word w => exact encodes_of_decodeWord h
  | parcel p => exact encodes_of_decodeParcel h

/-- Settles O2: a word or a parcel is put together again from the fields that its group reads. -/
theorem decodeThenEncode : Obligations.DecodeThenEncode :=
  fun _ _ _ => encodes_of_decodeRaw

end Sys2Proof.Machine
end

section
/-! The bytes of the round trip (R48, R95, R271): the bytes of an instruction that decodes are its raw instruction, whatever
bytes stand after them. -/

namespace Sys2Proof.Machine

/-- No parcel that decodes is the first half of a word (R270, R271). -/
theorem isLong_of_decodeParcel {h : Half} {i : Instr} (hdec : decodeParcel h = .ok i) : isLong h = false := by
  unfold decodeParcel at hdec
  split at hdec
  case h_5 => cases hdec
  all_goals
    rename_i h2
    rw [isLong, h2]
    rfl

/-- A parcel is one of the 16-bit forms (R270). -/
theorem decodeParcel_needs {h : Half} {i : Instr} (hdec : decodeParcel h = .ok i) : i.needs = Extensions.all := by
  obtain ⟨henc, -⟩ := encodes_of_decodeParcel hdec
  cases i with
  | cLdsp | cSdsp | cLd | cSd => rfl
  | _ => cases henc

/-- The first two bytes of a word say whether it is one (R271). -/
theorem isLong_first_bytes (w : Word) :
    isLong (w.extractLsb' 8 8 ++ w.extractLsb' 0 8) = (w.extractLsb' 0 2 == 0b11#2) := by
  rw [isLong, extract_low _ _ _ _ (by decide), extract_extract _ _ _ _ _ (by decide)]

theorem append_wordBytes (w : Word) :
    (w.extractLsb' 24 8 ++ w.extractLsb' 16 8 ++ w.extractLsb' 8 8 ++ w.extractLsb' 0 8 : Word) = w := by
  repeat rw [BitVec.extractLsb'_append_extractLsb'_eq_extractLsb' (by decide)]
  exact BitVec.extractLsb'_eq_self

theorem append_halfBytes (h : Half) : (h.extractLsb' 8 8 ++ h.extractLsb' 0 8 : Half) = h := by
  rw [BitVec.extractLsb'_append_extractLsb'_eq_extractLsb' (by decide)]
  exact BitVec.extractLsb'_eq_self

/-- A word's bytes are taken as a word: its low bits are `11` (R271). -/
theorem splitRaw_wordBytes {w : Word} (ext : Extensions) (rest : List Byte) (hlow : w.extractLsb' 0 2 = 0b11#2) :
    splitRaw ext (wordBytes w ++ rest) = .ok (.word w, rest) := by
  have hlong : isLong (w.extractLsb' 8 8 ++ w.extractLsb' 0 8) = true := by rw [isLong_first_bytes, hlow]; rfl
  simp [wordBytes, splitRaw, hlong, append_wordBytes]

/-- A parcel's bytes are taken as a parcel, where the machine has parcels and the low bits are not `11` (R271). -/
theorem splitRaw_halfBytes {h : Half} {ext : Extensions} (rest : List Byte) (hp : ext.parcels = true)
    (hshort : isLong h = false) : splitRaw ext (halfBytes h ++ rest) = .ok (.parcel h, rest) := by
  simp [halfBytes, splitRaw, append_halfBytes, hp, hshort]

/-- The bytes of bits that decode are these bits (R48, R271). -/
theorem splitRaw_bytes {ext : Extensions} {raw : RawInstr} {i : Instr} (rest : List Byte)
    (hdec : decodeRaw ext raw = .ok i) (hext : HasExt ext i.needs) :
    splitRaw ext (raw.bytes ++ rest) = .ok (raw, rest) := by
  cases raw with
  | word w => exact splitRaw_wordBytes ext rest (decodeWord_low hdec)
  | parcel h =>
    rw [decodeParcel_needs hdec] at hext
    have hp : ext.parcels = true := by simp [Extensions.parcels, hext.1 rfl, hext.2 rfl]
    exact splitRaw_halfBytes rest hp (isLong_of_decodeParcel hdec)

/-- Settles O1: the encoder's bits decode to the instruction, and its bytes are these bits. -/
theorem encodeThenDecode : Obligations.EncodeThenDecode := by
  intro ext i rest hwf hzilsd hzclsd
  have hdec : decodeRaw ext (encodeRaw i) = .ok i := decodeRaw_encodeRaw hwf ⟨hzilsd, hzclsd⟩
  rw [decode, encode, splitRaw_bytes rest hdec ⟨hzilsd, hzclsd⟩]
  simp only [hdec]

end Sys2Proof.Machine
end

section
/-! The decoder against the opcode table (R93, R94): the rows match disjoint sets of bits, and decoding is matching a row whose
extensions are on. -/

namespace Sys2Proof.Machine

/-! ### Matching a row -/

theorem hits_word_iff {row : OpcodeRow} {w : Word} :
    row.hits (.word w) = true ↔ row.format ≠ .c16 ∧ w &&& row.mask = row.pattern := by
  simp [OpcodeRow.hits]

theorem hits_parcel_iff {row : OpcodeRow} {h : Half} :
    row.hits (.parcel h) = true ↔ row.format = .c16 ∧ h.setWidth 32 &&& row.mask = row.pattern := by
  simp [OpcodeRow.hits]

/-! ### No two rows match the same bits (R93) -/

/-- No bits match both rows: one takes parcels and the other words, or they fix a common bit differently. -/
def RowsApart (r₁ r₂ : OpcodeRow) : Prop :=
  (r₁.format == .c16) ≠ (r₂.format == .c16) ∨ r₁.pattern &&& r₂.mask ≠ r₂.pattern &&& r₁.mask

theorem RowsApart.symm {r₁ r₂ : OpcodeRow} (h : RowsApart r₁ r₂) : RowsApart r₂ r₁ :=
  h.imp Ne.symm Ne.symm

theorem opcodeTable_apart : opcodeTable.Pairwise RowsApart := by
  unfold RowsApart
  decide

/-- Two patterns of the same bits agree where both masks look. -/
theorem patterns_agree {x m₁ m₂ p₁ p₂ : Word} (h₁ : x &&& m₁ = p₁) (h₂ : x &&& m₂ = p₂) : p₁ &&& m₂ = p₂ &&& m₁ := by
  rw [← h₁, ← h₂, BitVec.and_assoc, BitVec.and_comm m₁, BitVec.and_assoc]

/-- Rows that match the same bits are not apart. -/
theorem not_rowsApart_of_hits {r₁ r₂ : OpcodeRow} {raw : RawInstr} (h₁ : r₁.hits raw = true) (h₂ : r₂.hits raw = true) :
    ¬ RowsApart r₁ r₂ := by
  cases raw with
  | word w =>
    obtain ⟨hf₁, hw₁⟩ := hits_word_iff.1 h₁
    obtain ⟨hf₂, hw₂⟩ := hits_word_iff.1 h₂
    simp [RowsApart, hf₁, hf₂, patterns_agree hw₁ hw₂]
  | parcel h =>
    obtain ⟨hf₁, hw₁⟩ := hits_parcel_iff.1 h₁
    obtain ⟨hf₂, hw₂⟩ := hits_parcel_iff.1 h₂
    simp [RowsApart, hf₁, hf₂, patterns_agree hw₁ hw₂]

/-- Settles O4: any two rows of the table are apart. -/
theorem opcodeRowsAreDisjoint : Obligations.OpcodeRowsAreDisjoint := by
  intro raw r₁ r₂ hr₁ hr₂ h₁ h₂
  have : Std.Symm RowsApart := ⟨fun _ _ => RowsApart.symm⟩
  by_contra hne
  exact not_rowsApart_of_hits h₁ h₂ (opcodeTable_apart.forall hr₁ hr₂ hne)

/-! ### What decodes has its extensions on (R102, R270) -/

theorem decodeLoad_needs_zilsd {ext : Extensions} {w : Word} {i : Instr} (h : decodeLoad ext w = .ok i)
    (hi : i.needs.zilsd = true) : ext.zilsd = true := by
  unfold decodeLoad at h
  split at h
  case h_6 =>
    split at h
    · assumption
    · cases h
  case h_7 => cases h
  all_goals
    cases h
    cases hi

theorem decodeStore_needs_zilsd {ext : Extensions} {w : Word} {i : Instr} (h : decodeStore ext w = .ok i)
    (hi : i.needs.zilsd = true) : ext.zilsd = true := by
  unfold decodeStore at h
  split at h
  case h_4 =>
    split at h
    · assumption
    · cases h
  case h_5 => cases h
  all_goals
    cases h
    cases hi

/-- A word decodes to an instruction of Zilsd only where Zilsd is on (R102). -/
theorem decodeWord_needs_zilsd {ext : Extensions} {w : Word} {i : Instr} (h : decodeWord ext w = .ok i)
    (hi : i.needs.zilsd = true) : ext.zilsd = true := by
  have hbase (hb : i.needs = Extensions.base) : ext.zilsd = true := by
    rw [hb] at hi
    cases hi
  unfold decodeWord at h
  split at h
  case h_4 | h_10 =>
    split at h <;> cases h
    exact hbase rfl
  case h_5 => exact hbase (decodeBranch_needs h)
  case h_6 => exact decodeLoad_needs_zilsd h hi
  case h_7 => exact decodeStore_needs_zilsd h hi
  case h_8 => exact hbase (decodeOpImm_needs h)
  case h_9 => exact hbase (decodeOp_needs h)
  case h_11 => cases h
  all_goals
    cases h
    exact hbase rfl

/-- Bytes decode to an instruction by way of the raw instruction at their front. -/
theorem decode_eq_ok {ext : Extensions} {bytes rest : List Byte} {i : Instr} (h : decode ext bytes = .ok (i, rest)) :
    ∃ raw, splitRaw ext bytes = .ok (raw, rest) ∧ decodeRaw ext raw = .ok i := by
  unfold decode at h
  split at h
  · cases h
  · rename_i raw rest' hsplit
    split at h
    · cases h
    · rename_i hdec
      cases h
      exact ⟨raw, hsplit, hdec⟩

/-- Only a machine with parcels takes two bytes as a parcel (R271). -/
theorem parcels_of_splitRaw {ext : Extensions} {bytes rest : List Byte} {h : Half}
    (hsplit : splitRaw ext bytes = .ok (.parcel h, rest)) : ext.parcels = true := by
  unfold splitRaw at hsplit
  split at hsplit
  · split at hsplit
    · rename_i hshort
      exact (Bool.and_eq_true_iff.1 hshort).1
    · split at hsplit <;> cases hsplit
  · cases hsplit

/-- Bytes decode only to an instruction whose extensions are on (R102, R270). -/
theorem hasExt_of_decode {ext : Extensions} {bytes rest : List Byte} {i : Instr} (h : decode ext bytes = .ok (i, rest)) :
    HasExt ext i.needs := by
  obtain ⟨raw, hsplit, hdec⟩ := decode_eq_ok h
  cases raw with
  | word w =>
    have hz : i.needs.zclsd = false := decodeWord_needs_zclsd hdec
    exact ⟨decodeWord_needs_zilsd hdec, fun hi => by simp [hz] at hi⟩
  | parcel p =>
    obtain ⟨hzilsd, hzclsd⟩ := Bool.and_eq_true_iff.1 (parcels_of_splitRaw hsplit)
    exact ⟨fun _ => hzilsd, fun _ => hzclsd⟩

/-! ### What decodes matches its own row -/

/-- Every instruction's bits match the row of its mnemonic (R94). -/
theorem rowOf (i : Instr) : Laws.RowOf.Statement i := by
  cases i with
  | sll => exact Laws.RowOf.sll ..
  | srl => exact Laws.RowOf.srl ..
  | sra => exact Laws.RowOf.sra ..
  | add => exact Laws.RowOf.add ..
  | sub => exact Laws.RowOf.sub ..
  | xor => exact Laws.RowOf.xor ..
  | or => exact Laws.RowOf.or ..
  | and => exact Laws.RowOf.and ..
  | slt => exact Laws.RowOf.slt ..
  | sltu => exact Laws.RowOf.sltu ..
  | slli => exact Laws.RowOf.slli ..
  | srli => exact Laws.RowOf.srli ..
  | srai => exact Laws.RowOf.srai ..
  | addi => exact Laws.RowOf.addi ..
  | xori => exact Laws.RowOf.xori ..
  | ori => exact Laws.RowOf.ori ..
  | andi => exact Laws.RowOf.andi ..
  | slti => exact Laws.RowOf.slti ..
  | sltiu => exact Laws.RowOf.sltiu ..
  | lw => exact Laws.RowOf.lw ..
  | lh => exact Laws.RowOf.lh ..
  | lb => exact Laws.RowOf.lb ..
  | lhu => exact Laws.RowOf.lhu ..
  | lbu => exact Laws.RowOf.lbu ..
  | lui => exact Laws.RowOf.lui ..
  | auipc => exact Laws.RowOf.auipc ..
  | beq => exact Laws.RowOf.beq ..
  | bne => exact Laws.RowOf.bne ..
  | blt => exact Laws.RowOf.blt ..
  | bge => exact Laws.RowOf.bge ..
  | bltu => exact Laws.RowOf.bltu ..
  | bgeu => exact Laws.RowOf.bgeu ..
  | jal => exact Laws.RowOf.jal ..
  | jalr => exact Laws.RowOf.jalr ..
  | sw => exact Laws.RowOf.sw ..
  | sh => exact Laws.RowOf.sh ..
  | sb => exact Laws.RowOf.sb ..
  | ebreak => exact Laws.RowOf.ebreak
  | ld => exact Laws.RowOf.ld ..
  | sd => exact Laws.RowOf.sd ..
  | cLdsp => exact Laws.RowOf.cLdsp ..
  | cSdsp => exact Laws.RowOf.cSdsp ..
  | cLd => exact Laws.RowOf.cLd ..
  | cSd => exact Laws.RowOf.cSd ..

/-- Bits match the row of the instruction that they decode to, which on a word has its extension on. -/
theorem row_of_decodeRaw {ext : Extensions} {raw : RawInstr} {i : Instr} (h : decodeRaw ext raw = .ok i) :
    ∃ row ∈ opcodeTable, row.mnemonic = i.mnemonic ∧ row.hits raw = true ∧
      (∀ w, raw = .word w → row.needs.zilsd = true → ext.zilsd = true) := by
  obtain ⟨row, hrow, hm, hneeds, hhit⟩ := rowOf i
  obtain ⟨henc, -⟩ := encodes_of_decodeRaw h
  rw [henc] at hhit
  refine ⟨row, hrow, hm, hhit, fun w hw hz => ?_⟩
  subst hw
  rw [hneeds] at hz
  exact decodeWord_needs_zilsd h hz

/-! ### What matches a row decodes -/

/-- Bits that match the row decode to an instruction of its mnemonic where its extension is on, but for the reserved code
points of the pair instructions (R94, R269, R277). -/
def RowDecodes (row : OpcodeRow) : Prop :=
  ∀ (ext : Extensions) (raw : RawInstr), row.hits raw = true → (row.needs.zilsd = true → ext.zilsd = true) →
    (∃ i, decodeRaw ext raw = .ok i ∧ i.mnemonic = row.mnemonic) ∨
    (row.needs.zilsd = true ∧ (decodeRaw ext raw = .error .oddPair ∨ decodeRaw ext raw = .error .zeroDestination))

/-- A row of words none of which is reserved. -/
theorem rowDecodes_of_encodedBy {m : String} {f : Format} {mask pat : Word} {needs : Extensions} {i : Word → Instr}
    (h : EncodedBy mask pat i) (hf : f ≠ .c16 := by decide) (hm : ∀ w, (i w).mnemonic = m := by exact fun _ => rfl) :
    RowDecodes ⟨m, f, mask, pat, needs⟩ := by
  intro ext raw hhit _
  cases raw with
  | word w => exact .inl ⟨i w, h ext w (hits_word_iff.1 hhit).2, hm w⟩
  | parcel p => exact absurd (hits_parcel_iff.1 hhit).1 hf

theorem integerRows_decode : ∀ row ∈ integerRows, RowDecodes row := by
  simp only [integerRows, List.forall_mem_cons]
  exact ⟨rowDecodes_of_encodedBy encodedBy_sll,
    rowDecodes_of_encodedBy encodedBy_srl,
    rowDecodes_of_encodedBy encodedBy_sra,
    rowDecodes_of_encodedBy encodedBy_add,
    rowDecodes_of_encodedBy encodedBy_sub,
    rowDecodes_of_encodedBy encodedBy_xor,
    rowDecodes_of_encodedBy encodedBy_or,
    rowDecodes_of_encodedBy encodedBy_and,
    rowDecodes_of_encodedBy encodedBy_slt,
    rowDecodes_of_encodedBy encodedBy_sltu,
    rowDecodes_of_encodedBy encodedBy_slli,
    rowDecodes_of_encodedBy encodedBy_srli,
    rowDecodes_of_encodedBy encodedBy_srai,
    rowDecodes_of_encodedBy encodedBy_addi,
    rowDecodes_of_encodedBy encodedBy_xori,
    rowDecodes_of_encodedBy encodedBy_ori,
    rowDecodes_of_encodedBy encodedBy_andi,
    rowDecodes_of_encodedBy encodedBy_slti,
    rowDecodes_of_encodedBy encodedBy_sltiu,
    List.forall_mem_nil _⟩

theorem memoryAndControlRows_decode : ∀ row ∈ memoryAndControlRows, RowDecodes row := by
  simp only [memoryAndControlRows, List.forall_mem_cons]
  exact ⟨rowDecodes_of_encodedBy encodedBy_lw,
    rowDecodes_of_encodedBy encodedBy_lh,
    rowDecodes_of_encodedBy encodedBy_lb,
    rowDecodes_of_encodedBy encodedBy_lhu,
    rowDecodes_of_encodedBy encodedBy_lbu,
    rowDecodes_of_encodedBy encodedBy_lui,
    rowDecodes_of_encodedBy encodedBy_auipc,
    rowDecodes_of_encodedBy encodedBy_beq,
    rowDecodes_of_encodedBy encodedBy_bne,
    rowDecodes_of_encodedBy encodedBy_blt,
    rowDecodes_of_encodedBy encodedBy_bge,
    rowDecodes_of_encodedBy encodedBy_bltu,
    rowDecodes_of_encodedBy encodedBy_bgeu,
    rowDecodes_of_encodedBy encodedBy_jal,
    rowDecodes_of_encodedBy encodedBy_jalr,
    rowDecodes_of_encodedBy encodedBy_sw,
    rowDecodes_of_encodedBy encodedBy_sh,
    rowDecodes_of_encodedBy encodedBy_sb,
    rowDecodes_of_encodedBy encodedBy_ebreak,
    List.forall_mem_nil _⟩

/-- The field of a parcel under a mask that covers it is the pattern's field. -/
theorem field_of_parcel_mask {h : Half} {mask pat : Word} (s l : Nat) (hh : h.setWidth 32 &&& mask = pat)
    (hm : mask.extractLsb' s l = BitVec.allOnes l) (hl : s + l ≤ 32) : h.extractLsb' s l = pat.extractLsb' s l := by
  rw [← field_of_mask s l hh hm]
  apply BitVec.eq_of_getLsbD_eq
  intro k hk
  simp [hk]
  omega

theorem parcel_funct3 {h : Half} {pat : Word} {f3 : BitVec 3} (hh : h.setWidth 32 &&& 0xe003#32 = pat)
    (hf : pat.extractLsb' 13 3 = f3) : h.extractLsb' 13 3 = f3 :=
  (field_of_parcel_mask 13 3 hh rfl (by decide)).trans hf

theorem parcel_quadrant {h : Half} {pat : Word} {q : BitVec 2} (hh : h.setWidth 32 &&& 0xe003#32 = pat)
    (hq : pat.extractLsb' 0 2 = q) : h.extractLsb' 0 2 = q :=
  (field_of_parcel_mask 0 2 hh rfl (by decide)).trans hq

/-- What decodes to an instruction of pairs where a register is even is reserved where it is odd (R269, R277). -/
theorem ok_or_oddPair {r : Except Illegal Instr} {c : Prop} [Decidable c] {i : Instr}
    (h : r = if c then .ok i else .error .oddPair) : r = .ok i ∨ r = .error .oddPair := by
  subst h
  split
  · exact .inl rfl
  · exact .inr rfl

/-- A row of words that are reserved where a register is odd (R269). -/
theorem rowDecodes_of_pairWord {m : String} {f : Format} {mask pat : Word} {needs : Extensions} {even : Word → Bool}
    {i : Word → Instr} (hneeds : needs.zilsd = true) (hf : f ≠ .c16) (hm : ∀ w, (i w).mnemonic = m)
    (h : ∀ ext w, w &&& mask = pat → ext.zilsd = true →
      decodeWord ext w = if even w then .ok (i w) else .error .oddPair) :
    RowDecodes ⟨m, f, mask, pat, needs⟩ := by
  intro ext raw hhit hext
  cases raw with
  | word w =>
    have hdec := h ext w (hits_word_iff.1 hhit).2 (hext hneeds)
    exact (ok_or_oddPair hdec).imp (fun e => ⟨i w, e, hm w⟩) fun e => ⟨hneeds, .inl e⟩
  | parcel p => exact absurd (hits_parcel_iff.1 hhit).1 hf

/-- A row of parcels that are reserved where a register is odd or x0 is named as the destination (R277). -/
theorem rowDecodes_of_parcel {m : String} {mask pat : Word} {even : Half → Bool} {i : Half → Instr}
    (hm : ∀ p, (i p).mnemonic = m)
    (h : ∀ p : Half, p.setWidth 32 &&& mask = pat → decodeParcel p = .error .zeroDestination ∨
      decodeParcel p = if even p then .ok (i p) else .error .oddPair) :
    RowDecodes ⟨m, .c16, mask, pat, Extensions.all⟩ := by
  intro ext raw hhit _
  cases raw with
  | word w => exact absurd rfl (hits_word_iff.1 hhit).1
  | parcel p =>
    rcases h p (hits_parcel_iff.1 hhit).2 with hzero | hdec
    · exact .inr ⟨rfl, .inr hzero⟩
    · exact (ok_or_oddPair hdec).imp (fun e => ⟨i p, e, hm p⟩) fun e => ⟨rfl, .inl e⟩

theorem pairRows_decode : ∀ row ∈ pairRows, RowDecodes row := by
  simp only [pairRows, List.forall_mem_cons]
  refine ⟨?ld, ?sd, ?cLdsp, ?cSdsp, ?cLd, ?cSd, List.forall_mem_nil _⟩
  case ld =>
    exact rowDecodes_of_pairWord rfl (by decide) (fun _ => rfl) fun ext w hw hz =>
      (decodeWord_ld ext (field_of_mask 0 7 hw rfl) (field_of_mask 12 3 hw rfl)).trans (if_pos hz)
  case sd =>
    exact rowDecodes_of_pairWord rfl (by decide) (fun _ => rfl) fun ext w hw hz =>
      (decodeWord_sd ext (field_of_mask 0 7 hw rfl) (field_of_mask 12 3 hw rfl)).trans (if_pos hz)
  case cLdsp =>
    refine rowDecodes_of_parcel (even := fun p => evenReg (p.extractLsb' 7 5))
      (i := fun p => .cLdsp (p.extractLsb' 7 5) (immCLdsp p)) (fun _ => rfl) fun p hp => ?_
    rw [decodeParcel_cLdsp (parcel_funct3 hp rfl) (parcel_quadrant hp rfl)]
    split
    · exact .inl rfl
    · exact .inr rfl
  case cSdsp =>
    exact rowDecodes_of_parcel (fun _ => rfl) fun p hp =>
      .inr (decodeParcel_cSdsp (parcel_funct3 hp rfl) (parcel_quadrant hp rfl))
  case cLd =>
    exact rowDecodes_of_parcel (fun _ => rfl) fun p hp =>
      .inr (decodeParcel_cLd (parcel_funct3 hp rfl) (parcel_quadrant hp rfl))
  case cSd =>
    exact rowDecodes_of_parcel (fun _ => rfl) fun p hp =>
      .inr (decodeParcel_cSd (parcel_funct3 hp rfl) (parcel_quadrant hp rfl))

theorem opcodeTable_decodes : ∀ row ∈ opcodeTable, RowDecodes row := by
  intro row hrow
  rw [opcodeTable, List.mem_append, List.mem_append] at hrow
  obtain (hrow | hrow) | hrow := hrow
  · exact integerRows_decode row hrow
  · exact memoryAndControlRows_decode row hrow
  · exact pairRows_decode row hrow

/-- Settles O3: what decodes is put together again into bits of its own row, and each row decodes by its own equation. -/
theorem decoderAgreesWithOpcodeTable : Obligations.DecoderAgreesWithOpcodeTable :=
  ⟨fun _ _ _ _ => hasExt_of_decode,
    fun ext raw => ⟨fun _ => row_of_decodeRaw, fun row hrow => opcodeTable_decodes row hrow ext raw⟩⟩

end Sys2Proof.Machine
end

section
/-! Words that the groups decode to nothing (R91, R97, R101, R102), and the bits that the formats share (R81). -/

namespace Sys2Proof.Machine

/-! ### Illegal words -/

/-- Settles O7: each shift has its own upper bits, and every other value of them is reserved. -/
theorem shiftImmediateUpperBits : Obligations.ShiftImmediateUpperBits := by
  refine fun ext w hop => ⟨fun h3 => ?_, fun h3 => ?_⟩
  · rw [decodeWord_shiftLeft ext hop h3]
    exact ⟨fun h7 => if_pos h7, fun h7 => if_neg h7⟩
  · rw [decodeWord_shiftRight ext hop h3]
    exact ⟨fun hl => if_pos hl, fun ha => by simp [ha], fun hl ha => by rw [if_neg hl, if_neg ha]⟩

/-- Settles O8: the low bits of every major opcode, the two words by evaluation, and the extension that `ld` and `sd` need. -/
theorem illegalWords : Obligations.IllegalWords := by
  refine ⟨fun ext w => decodeWord_of_low_ne_three ext, fun ext => ⟨rfl, rfl⟩, fun ext w hoff h3 hop => ?_⟩
  rcases hop with hop | hop
  · simp [decodeWord_ld ext hop h3, hoff]
  · simp [decodeWord_sd ext hop h3, hoff]

/-- Settles O48: of the SYSTEM words one is `ebreak`, whose whole meaning is to take the exception. -/
theorem ebreakTakesBreakpoint : Obligations.EbreakTakesBreakpoint := by
  refine ⟨rfl, fun ext w hop => ⟨fun hw => ?_, fun hw => ?_⟩, fun s => ⟨_, rfl, s.endRun_traps _ _⟩⟩
  · rw [decodeWord_system hop, if_pos hw]
  · rw [decodeWord_system hop, if_neg hw]

/-! ### Where the formats keep the same immediate bits (R81) -/

/-- The top bit of a concatenation is the top bit of its first part. -/
theorem msb_append_of_pos {m n : Nat} (x : BitVec m) (y : BitVec n) (h : 0 < m) : (x ++ y).msb = x.msb := by
  rw [BitVec.msb_append, if_neg (by omega)]

/-- The top bit of an upper part is the top bit of the whole. -/
theorem msb_extract_of_top {n : Nat} (x : BitVec n) (s l : Nat) (hl : 0 < l) (h : s + l = n) :
    (x.extractLsb' s l).msb = x.msb := by
  have hbit : s + (l - 1) = n - 1 := by omega
  rw [BitVec.msb_eq_getLsbD_last, BitVec.msb_eq_getLsbD_last, BitVec.getLsbD_extractLsb', hbit]
  simp; omega

/-- Settles O6: the sign bit is the first part of every signed format, and each other field is a part of one field of the
word. -/
theorem immediatePlacement : Obligations.ImmediatePlacement := by
  intro w
  have hsign : (immI w).msb = w.msb ∧ (immS w).msb = w.msb ∧ (immB w).msb = w.msb ∧ (immJ w).msb = w.msb := by
    simp (disch := decide) only [immI, immS, immB, immJ, msb_append_of_pos, msb_extract_of_top, and_self]
  refine ⟨hsign, ?_⟩
  simp (disch := decide) only [immI, immS, immB, immU, immJ, extract_low, extract_high, extract_extract, and_self]

end Sys2Proof.Machine
end

section
/-! The register-register instructions (40_integer_register.md, R110 to R120): what each one's bits are, the value it writes, and
that it changes nothing else. -/

namespace Sys2Proof.Machine

/-! ### Writing a result and going on -/

/-- An instruction that writes a value to `rd` and moves past its 4 bytes changes nothing else. -/
theorem completes_of_exec {i : Instr} {s : State} {rd : Reg} {v : Word}
    (h : exec i s = .next ((s.writeReg rd v).advance 4#32)) : Completes i s rd v :=
  ⟨_, h, s.writeReg_setsReg rd v, by simp, ⟨fun _ => by simp, fun _ => by simp⟩, by simp, by simp, by simp⟩

/-! ### The values, as numbers (R5 to R8) -/

/-- A distance in a register is read modulo 32: bits 31:5 are ignored (R111). -/
theorem shiftAmount_eq (v : Word) : shiftAmount v = v.toNat % 32 := by
  simp [shiftAmount]

/-- A left shift multiplies by a power of 2, modulo `2^w`. -/
theorem shiftLeft_eq_ofNat {w : Nat} (x : BitVec w) (n : Nat) : x <<< n = BitVec.ofNat w (x.toNat * 2 ^ n) :=
  BitVec.eq_of_toNat_eq (by simp [Nat.shiftLeft_eq])

/-- An unsigned right shift divides by a power of 2. -/
theorem ushiftRight_eq_ofNat {w : Nat} (x : BitVec w) (n : Nat) : x >>> n = BitVec.ofNat w (x.toNat / 2 ^ n) := by
  rw [← Nat.shiftRight_eq_div_pow, ← BitVec.toNat_ushiftRight, BitVec.ofNat_toNat, BitVec.setWidth_eq]

/-- A signed right shift divides by a power of 2 and rounds toward minus infinity. -/
theorem sshiftRight_eq_ofInt {w : Nat} (x : BitVec w) (n : Nat) : x.sshiftRight n = BitVec.ofInt w (x.toInt / 2 ^ n) := by
  rw [BitVec.sshiftRight, Int.shiftRight_eq_div_pow]
  norm_cast

/-- The difference of two numbers modulo `2^w` is the difference of their words. -/
theorem ofInt_sub_eq {w : Nat} (i j : Int) : BitVec.ofInt w (i - j) = BitVec.ofInt w i - BitVec.ofInt w j := by
  rw [Int.sub_eq_add_neg, BitVec.ofInt_add, BitVec.ofInt_neg, BitVec.sub_eq_add_neg]

/-- A comparison's result is 1 where it holds and 0 elsewhere (R8). -/
theorem boolToWord_decide (p : Prop) [Decidable p] : boolToWord (decide p) = if p then 1#32 else 0#32 := by
  simp [boolToWord]

/-! ### The instructions -/

/-- Settles O30: the distance is read modulo 32, and each shift is the multiplication or the division by its power of 2. -/
theorem shiftRegisterResults : Obligations.ShiftRegisterResults := by
  refine ⟨encodedBy_sll, encodedBy_srl, encodedBy_sra, fun rd rs1 rs2 s => ?_⟩
  rw [← shiftAmount_eq, ← shiftLeft_eq_ofNat, ← ushiftRight_eq_ofNat, ← sshiftRight_eq_ofInt]
  exact ⟨completes_of_exec rfl, completes_of_exec rfl, completes_of_exec rfl⟩

/-- Settles O31: reading a number modulo 2^32 commutes with the sum and the difference, whichever way the words are read. -/
theorem addSubResults : Obligations.AddSubResults := by
  refine ⟨encodedBy_add, encodedBy_sub, fun rd rs1 rs2 s => ?_⟩
  have hadd : Completes (.add rd rs1 rs2) s rd (s.readReg rs1 + s.readReg rs2) := completes_of_exec rfl
  have hsub : Completes (.sub rd rs1 rs2) s rd (s.readReg rs1 - s.readReg rs2) := completes_of_exec rfl
  simp only [← BitVec.add_def, BitVec.ofInt_add, ofInt_sub_eq, BitVec.ofInt_toInt, BitVec.ofInt_natCast, BitVec.ofNat_toNat,
    BitVec.setWidth_eq]
  exact ⟨hadd, hadd, hsub, hsub⟩

/-- Settles O32: the value written is the word operation on the sources, read bit by bit. -/
theorem bitwiseRegisterResults : Obligations.BitwiseRegisterResults :=
  ⟨encodedBy_xor, encodedBy_or, encodedBy_and, fun _ _ _ _ =>
    ⟨⟨_, completes_of_exec rfl, fun _ => BitVec.getLsbD_xor⟩,
      ⟨_, completes_of_exec rfl, fun _ => BitVec.getLsbD_or⟩,
      ⟨_, completes_of_exec rfl, fun _ => BitVec.getLsbD_and⟩⟩⟩

/-- Settles O33: both comparisons decide the order of the numbers that the sources are read as. -/
theorem compareRegisterResults : Obligations.CompareRegisterResults := by
  refine ⟨encodedBy_slt, encodedBy_sltu, fun rd rs1 rs2 s => ?_⟩
  rw [← boolToWord_decide, ← boolToWord_decide]
  exact ⟨completes_of_exec rfl, completes_of_exec rfl⟩

end Sys2Proof.Machine
end

section
/-! The register-immediate instructions (41_integer_immediate.md, R130 to R139): what each one's bits are, the value it writes, and
that it changes nothing else. -/

namespace Sys2Proof.Machine

/-! ### The sign-extended value, as a number and bit by bit (R7) -/

/-- Sign extension keeps the signed number: it is that number, modulo 2^32. -/
theorem sext_eq_ofInt {k : Nat} (v : BitVec k) : sext v = BitVec.ofInt 32 v.toInt :=
  rfl

/-- The signed reading of a sign-extended value is the value's own. -/
theorem toInt_sext {k : Nat} (v : BitVec k) (hk : k ≤ 32) : (sext v).toInt = v.toInt :=
  BitVec.toInt_signExtend_of_le hk

/-- The unsigned reading of a sign-extended value is its signed number modulo 2^32. -/
theorem toNat_sext {k : Nat} (v : BitVec k) : ((sext v).toNat : Int) = v.toInt % 2 ^ 32 := by
  rw [sext_eq_ofInt, BitVec.toNat_ofInt, Int.toNat_of_nonneg (Int.emod_nonneg _ (by decide))]
  rfl

/-- The sign bit stands for every bit above it. -/
theorem getLsbD_sext {k n : Nat} (v : BitVec k) (hn : n < 32) : (sext v).getLsbD n = v.getLsbD (min n (k - 1)) := by
  rw [sext, BitVec.getLsbD_signExtend, decide_eq_true hn, Bool.true_and]
  split
  case isTrue hlow => rw [Nat.min_eq_left (by omega)]
  case isFalse hhigh => rw [Nat.min_eq_right (by omega), BitVec.msb_eq_getLsbD_last]

/-! ### The instructions -/

/-- Settles O34: each shift by a constant is the multiplication or the division by its power of 2. -/
theorem shiftImmediateResults : Obligations.ShiftImmediateResults := by
  refine ⟨encodedBy_slli, encodedBy_srli, encodedBy_srai, fun rd rs1 shamt s => ?_⟩
  rw [← shiftLeft_eq_ofNat, ← ushiftRight_eq_ofNat, ← sshiftRight_eq_ofInt]
  exact ⟨completes_of_exec rfl, completes_of_exec rfl, completes_of_exec rfl⟩

/-- Settles O35: reading a number modulo 2^32 commutes with the sum, and the sign-extended immediate is its signed number. -/
theorem addImmediateResult : Obligations.AddImmediateResult := by
  refine ⟨encodedBy_addi, fun rd rs1 imm s => ?_⟩
  rw [BitVec.ofInt_add, BitVec.ofInt_toInt, ← sext_eq_ofInt]
  exact completes_of_exec rfl

/-- Settles O36: the value written is the word operation on the source and the sign-extended immediate, read bit by bit. -/
theorem bitwiseImmediateResults : Obligations.BitwiseImmediateResults := by
  refine ⟨encodedBy_xori, encodedBy_ori, encodedBy_andi, fun rd rs1 imm s => ⟨?xori, ?ori, ?andi⟩⟩
  case xori => exact ⟨_, completes_of_exec rfl, fun k hk => by rw [BitVec.getLsbD_xor, getLsbD_sext imm hk]⟩
  case ori => exact ⟨_, completes_of_exec rfl, fun k hk => by rw [BitVec.getLsbD_or, getLsbD_sext imm hk]⟩
  case andi => exact ⟨_, completes_of_exec rfl, fun k hk => by rw [BitVec.getLsbD_and, getLsbD_sext imm hk]⟩

/-- Settles O37: the order decided is that of the sign-extended immediate's signed number, and of that number modulo 2^32. -/
theorem compareImmediateResults : Obligations.CompareImmediateResults := by
  refine ⟨encodedBy_slti, encodedBy_sltiu, fun rd rs1 imm s => ⟨?slti, ?sltiu⟩⟩
  case slti =>
    rw [← toInt_sext imm (by decide), ← boolToWord_decide]
    exact completes_of_exec rfl
  case sltiu =>
    simp only [← toNat_sext, Nat.cast_lt, ← boolToWord_decide]
    exact completes_of_exec rfl

end Sys2Proof.Machine
end

section
/-! The loads (42_loads.md, R150 to R155): what each one's bits are, the value it writes at any alignment, and the fault where a
byte of the access is not backed. -/

namespace Sys2Proof.Machine

/-! ### The operation of the loads (R150) -/

section
variable {i : Instr} {s : State} {n : Nat} {ext : BitVec (8 * n) → Word} {rd rs1 : Reg} {offset : BitVec 12} {a : Word}

/-- An instruction that loads from a backed span writes the extended bytes and changes nothing else. -/
theorem completes_of_loadOp (hexec : exec i s = loadOp n ext rd offset rs1 s) (ha : a = s.baseDisp rs1 offset)
    (hb : BackedSpan s.cfg a n) : Completes i s rd (ext (loadBytes s.mem a n)) := by
  subst ha
  apply completes_of_exec
  rw [hexec, loadOp, s.memRead_eq_some _ n hb]

/-- Off a backed span it takes the access fault with its effective address, and changes nothing else (R306). -/
theorem takesException_of_loadOp (hexec : exec i s = loadOp n ext rd offset rs1 s) (ha : a = s.baseDisp rs1 offset)
    (hb : ¬ BackedSpan s.cfg a n) : TakesException i s .loadAccessFault a := by
  subst ha
  refine ⟨s.endRun .loadAccessFault (s.baseDisp rs1 offset), ?_, s.endRun_traps _ _⟩
  rw [hexec, loadOp, s.memRead_eq_none _ n hb]
  rfl

end

/-- Zero extension keeps the unsigned number. -/
theorem zext_eq_ofNat {k : Nat} (v : BitVec k) : zext v = BitVec.ofNat 32 v.toNat :=
  (BitVec.ofNat_toNat 32 v).symm

/-! ### The instructions -/

/-- Settles O38: the word read is its four bytes, as it stands. -/
theorem loadWordResult : Obligations.LoadWordResult := by
  refine ⟨encodedBy_lw, fun rd rs1 offset s a ha => ⟨fun hb => ?_, takesException_of_loadOp rfl ha⟩⟩
  rw [← loadBytes_four]
  exact completes_of_loadOp (n := 4) (ext := fun v => v) rfl ha hb

/-- Settles O39: the halfword read is its two bytes, extended as the signed or the unsigned number that they are. -/
theorem loadHalfResults : Obligations.LoadHalfResults := by
  refine ⟨encodedBy_lh, encodedBy_lhu, fun rd rs1 offset s a ha => ⟨fun hb => ?_, fun hb => ?_⟩⟩
  · rw [← loadBytes_two, ← sext_eq_ofInt, ← zext_eq_ofNat]
    exact ⟨completes_of_loadOp rfl ha hb, completes_of_loadOp rfl ha hb⟩
  · exact ⟨takesException_of_loadOp rfl ha hb, takesException_of_loadOp rfl ha hb⟩

/-- Settles O40: the byte read is extended as the signed or the unsigned number that it is. -/
theorem loadByteResults : Obligations.LoadByteResults := by
  refine ⟨encodedBy_lb, encodedBy_lbu, fun rd rs1 offset s a ha => ⟨fun hb => ?_, fun hb => ?_⟩⟩
  · rw [State.byteAt, ← loadBytes_one, ← sext_eq_ofInt, ← zext_eq_ofNat]
    exact ⟨completes_of_loadOp rfl ha hb, completes_of_loadOp rfl ha hb⟩
  · exact ⟨takesException_of_loadOp rfl ha hb, takesException_of_loadOp rfl ha hb⟩

end Sys2Proof.Machine
end

section
/-! The upper-immediate instructions (43_upper_immediate.md, R165 to R167): what each one's bits are, the value it writes, and that it
changes nothing else. -/

namespace Sys2Proof.Machine

/-- The operand of the U format is its field times 2^12 (R79, R165). -/
theorem upper_eq_ofNat (v : BitVec 20) : upper v = BitVec.ofNat 32 (v.toNat * 2 ^ 12) := by
  apply BitVec.eq_of_toNat_eq
  have hfits : v.toNat * 2 ^ 12 < 2 ^ 32 := by omega
  rw [BitVec.toNat_ofNat, Nat.mod_eq_of_lt hfits, upper, BitVec.toNat_append, ← Nat.shiftLeft_eq]
  exact Nat.or_zero _

/-- Settles O41: `lui` writes the operand as it stands, and reading a number modulo 2^32 commutes with adding it to the `pc`. -/
theorem upperImmediateResults : Obligations.UpperImmediateResults := by
  refine ⟨encodedBy_lui, encodedBy_auipc, fun rd imm s => ⟨?lui, ?auipc⟩⟩
  case lui =>
    rw [← upper_eq_ofNat]
    exact completes_of_exec rfl
  case auipc =>
    rw [BitVec.ofNat_add, ← upper_eq_ofNat, BitVec.ofNat_toNat, BitVec.setWidth_eq]
    exact completes_of_exec rfl

end Sys2Proof.Machine
end

section
/-! The conditional branches (44_branches.md, R175 to R182): what each one's bits are, where control goes, and that they change
nothing else. -/

namespace Sys2Proof.Machine

/-! ### Going somewhere and taking an exception -/

/-- An instruction whose effect is on the `pc` alone changes nothing else. -/
theorem goesTo_of_exec {i : Instr} {s : State} {p : Word} (h : exec i s = .next (s.setPc p)) : GoesTo i s p :=
  ⟨_, h, fun _ => rfl, rfl, ⟨fun _ => rfl, fun _ => Iff.rfl⟩, rfl, rfl, rfl⟩

/-- An instruction whose effect is to raise an exception changes nothing else (R311). -/
theorem takesException_of_exec {i : Instr} {s : State} {cause : Cause} {tval : Word}
    (h : exec i s = raise cause tval s) : TakesException i s cause tval :=
  ⟨_, h, s.endRun_traps cause tval⟩

/-! ### The operation of the branches (R175, R176) -/

/-- A pc-relative target is the `pc` plus the signed offset, modulo 2^32 (R25). -/
theorem State.pcRel_eq {k : Nat} (s : State) (offset : BitVec k) : s.pcRel offset = s.pc + BitVec.ofInt 32 offset.toInt := by
  rw [State.pcRel, sext_eq_ofInt]

section
variable {cond : Word → Word → Bool} {rs1 rs2 : Reg} {s : State}

/-- Where its condition holds a branch is a jump to its target. -/
theorem branchOp_of_taken (offset : BitVec 13) (h : cond (s.readReg rs1) (s.readReg rs2) = true) :
    branchOp cond rs1 rs2 offset s = jumpTo (s.pcRel offset) s :=
  if_pos h

/-- Where its condition does not hold a branch goes on, whatever its offset. -/
theorem branchOp_of_not_taken (offset : BitVec 13) (h : ¬ cond (s.readReg rs1) (s.readReg rs2) = true) :
    branchOp cond rs1 rs2 offset s = .next (s.advance 4#32) :=
  if_neg h

/-- An instruction that is the family's operation branches on the proposition that its condition decides. -/
theorem branchesIf_of_branchOp {i : Instr} {offset : BitVec 13} {p : Prop}
    (hexec : exec i s = branchOp cond rs1 rs2 offset s) (hcond : cond (s.readReg rs1) (s.readReg rs2) = true ↔ p) :
    BranchesIf i s p (s.pc + BitVec.ofInt 32 offset.toInt) := by
  rw [← State.pcRel_eq, ← hcond]
  refine ⟨fun hnot => ?next, fun htaken haligned => ?target, fun htaken hmisaligned => ?trap⟩
  case next => exact goesTo_of_exec (hexec.trans (branchOp_of_not_taken offset hnot))
  case target =>
    apply goesTo_of_exec
    rw [hexec, branchOp_of_taken offset htaken, jumpTo_of_aligned s _ haligned]
  case trap =>
    apply takesException_of_exec
    rw [hexec, branchOp_of_taken offset htaken, jumpTo_of_misaligned s _ hmisaligned]

end

/-! ### What the conditions decide (R8) -/

theorem eqW_iff (a b : Word) : eqW a b = true ↔ a = b := beq_iff_eq

theorem not_eqW_iff (a b : Word) : (!eqW a b) = true ↔ a ≠ b := bne_iff_ne

theorem ltS_iff (a b : Word) : ltS a b = true ↔ a.toInt < b.toInt := decide_eq_true_iff

theorem geS_iff (a b : Word) : geS a b = true ↔ a.toInt ≥ b.toInt := decide_eq_true_iff

theorem ltU_iff (a b : Word) : ltU a b = true ↔ a.toNat < b.toNat := decide_eq_true_iff

theorem geU_iff (a b : Word) : geU a b = true ↔ a.toNat ≥ b.toNat := decide_eq_true_iff

/-! ### The instructions -/

/-- Settles O42: the conditions decide whether all 32 bits are equal. -/
theorem equalityBranches : Obligations.EqualityBranches :=
  ⟨encodedBy_beq, encodedBy_bne, fun _ _ _ _ =>
    ⟨branchesIf_of_branchOp rfl (eqW_iff _ _),
      branchesIf_of_branchOp (cond := fun a b => !eqW a b) rfl (not_eqW_iff _ _)⟩⟩

/-- Settles O43: the conditions decide the order of the signed numbers. -/
theorem signedBranches : Obligations.SignedBranches :=
  ⟨encodedBy_blt, encodedBy_bge, fun _ _ _ _ =>
    ⟨branchesIf_of_branchOp rfl (ltS_iff _ _), branchesIf_of_branchOp rfl (geS_iff _ _)⟩⟩

/-- Settles O44: the conditions decide the order of the unsigned numbers. -/
theorem unsignedBranches : Obligations.UnsignedBranches :=
  ⟨encodedBy_bltu, encodedBy_bgeu, fun _ _ _ _ =>
    ⟨branchesIf_of_branchOp rfl (ltU_iff _ _), branchesIf_of_branchOp rfl (geU_iff _ _)⟩⟩

end Sys2Proof.Machine
end

section
/-! The jumps (45_jumps.md, R190 to R192): what each one's bits are, where control goes with what link value, and that a jump to
an address where no instruction can stand changes nothing else. -/

namespace Sys2Proof.Machine

/-! ### The operation of the jumps (R190) -/

section
variable {i : Instr} {s : State} {rd : Reg} {p : Word}

/-- Where an instruction can stand at its target, a jump links and goes there, and changes nothing else. -/
theorem linksTo_of_linkAndJump (hexec : exec i s = linkAndJump rd p s) (ha : InstrAligned s.cfg p) : LinksTo i s rd p :=
  ⟨_, hexec.trans (linkAndJump_of_aligned s rd p ha), s.writeReg_setsReg rd _, rfl,
    ⟨fun _ => by simp, fun _ => by simp⟩, by simp, by simp, by simp⟩

/-- Where none can, it takes the exception with that target, and neither `rd` nor the `pc` changes. -/
theorem takesException_of_linkAndJump (hexec : exec i s = linkAndJump rd p s) (hm : ¬ InstrAligned s.cfg p) :
    TakesException i s .instructionAddressMisaligned p :=
  takesException_of_exec (hexec.trans (linkAndJump_of_misaligned s rd p hm))

end

/-! ### The target of `jalr` (R192) -/

/-- Clearing bit 0 of a word rounds it down to a multiple of 2. -/
theorem clearBit0_eq_ofNat (x : Word) : x &&& 0xfffffffe#32 = BitVec.ofNat 32 (x.toNat / 2 * 2) := by
  have hmask : 0xfffffffe#32 = BitVec.allOnes 32 <<< 1 := rfl
  calc x &&& 0xfffffffe#32
      = x >>> 1 <<< 1 := by rw [hmask, BitVec.shiftLeft_ushiftRight]
    _ = BitVec.ofNat 32 ((x >>> 1).toNat * 2 ^ 1) := shiftLeft_eq_ofNat _ 1
    _ = BitVec.ofNat 32 (x.toNat / 2 * 2) := by rw [BitVec.toNat_ushiftRight, Nat.shiftRight_eq_div_pow, Nat.pow_one]

/-! ### The instructions -/

/-- Settles O45: the target is the pc-relative one, whose signed offset is added modulo 2^32. -/
theorem jumpAndLinkResult : Obligations.JumpAndLinkResult := by
  refine ⟨encodedBy_jal, fun rd offset s target htarget => ?_⟩
  have hexec : exec (.jal rd offset) s = linkAndJump rd target s := by
    rw [htarget, ← State.pcRel_eq]
    rfl
  exact ⟨linksTo_of_linkAndJump hexec, takesException_of_linkAndJump hexec⟩

/-- Settles O46: the target is computed from the registers as they are before the link is written, and masking it clears bit 0. -/
theorem jumpAndLinkRegisterResult : Obligations.JumpAndLinkRegisterResult := by
  refine ⟨encodedBy_jalr, fun rd rs1 imm s target htarget => ?_⟩
  have hexec : exec (.jalr rd rs1 imm) s = linkAndJump rd target s := by
    rw [htarget, ← clearBit0_eq_ofNat, ← sext_eq_ofInt]
    rfl
  exact ⟨linksTo_of_linkAndJump hexec, takesException_of_linkAndJump hexec⟩

end Sys2Proof.Machine
end

section
/-! The stores (46_stores.md, R200 to R203): what each one's bits are, the bytes it writes at any alignment, and the fault where a
byte of the access is not backed. -/

namespace Sys2Proof.Machine

/-! ### What a store leaves -/

/-- An instruction whose effect is a write of memory and going on changes the bytes, `Dirty` and the `pc` alone (R45). -/
theorem stores_of_exec {w : Nat} {i : Instr} {s : State} {a len : Word} {n : Nat} {v : BitVec w} (hn : n ≤ 2 ^ 32)
    (h : exec i s = .next ((s.poke a n v).advance len)) : Stores i s a n v len :=
  ⟨_, h, s.poke_storesAt a n v hn, s.readReg_poke a n v, rfl, rfl, rfl, rfl⟩

/-! ### The operation of the stores (R200) -/

section
variable {i : Instr} {s : State} {n : Nat} {rs2 rs1 : Reg} {offset : BitVec 12} {a : Word}

/-- An instruction that stores to a backed span writes the low bytes of `x[rs2]` there and changes nothing else. -/
theorem stores_of_storeOp (hexec : exec i s = storeOp n rs2 offset rs1 s) (hn : n ≤ 2 ^ 32)
    (ha : a = s.baseDisp rs1 offset) (hb : BackedSpan s.cfg a n) : Stores i s a n (s.readReg rs2) 4#32 := by
  subst ha
  apply stores_of_exec hn
  rw [hexec, storeOp, s.memWrite_eq_some _ n _ hb]

/-- Off a backed span it takes the access fault with its effective address, and writes nothing (R307). -/
theorem takesException_of_storeOp (hexec : exec i s = storeOp n rs2 offset rs1 s) (ha : a = s.baseDisp rs1 offset)
    (hb : ¬ BackedSpan s.cfg a n) : TakesException i s .storeAccessFault a := by
  subst ha
  apply takesException_of_exec
  rw [hexec, storeOp, s.memWrite_eq_none _ n _ hb]

end

/-! ### The instructions -/

/-- Settles O47: the three are the one operation at widths 4, 2 and 1, at the base plus the signed offset modulo 2^32. -/
theorem storeResults : Obligations.StoreResults := by
  refine ⟨encodedBy_sw, encodedBy_sh, encodedBy_sb, fun rs2 rs1 offset s a haddr => ?_⟩
  have ha : a = s.baseDisp rs1 offset := by rw [haddr, State.baseDisp, sext_eq_ofInt]
  exact ⟨stores_of_storeOp rfl (by decide) ha, stores_of_storeOp rfl (by decide) ha, stores_of_storeOp rfl (by decide) ha,
    takesException_of_storeOp rfl ha, takesException_of_storeOp rfl ha, takesException_of_storeOp rfl ha⟩

end Sys2Proof.Machine
end

section
/-! The outcomes of a step and of a run (R300, R310, R315): an instruction always has a next state, and a step only stops where
the run has ended or where the fetch is refused. -/

namespace Sys2Proof.Machine

/-! ### Instructions -/

section
variable (s : State)

theorem jumpTo_next (p : Word) : ∃ t, jumpTo p s = .next t := by
  unfold jumpTo
  split <;> exact ⟨_, rfl⟩

theorem linkAndJump_next (rd : Reg) (p : Word) : ∃ t, linkAndJump rd p s = .next t := by
  unfold linkAndJump
  split <;> exact ⟨_, rfl⟩

theorem branchOp_next (cond : Word → Word → Bool) (rs1 rs2 : Reg) (offset : BitVec 13) :
    ∃ t, branchOp cond rs1 rs2 offset s = .next t := by
  unfold branchOp
  split
  · exact jumpTo_next s _
  · exact ⟨_, rfl⟩

theorem loadOp_next (n : Nat) (ext : BitVec (8 * n) → Word) (rd rs1 : Reg) (offset : BitVec 12) :
    ∃ t, loadOp n ext rd offset rs1 s = .next t := by
  unfold loadOp
  split <;> exact ⟨_, rfl⟩

theorem storeOp_next (n : Nat) (rs2 rs1 : Reg) (offset : BitVec 12) : ∃ t, storeOp n rs2 offset rs1 s = .next t := by
  unfold storeOp
  split <;> exact ⟨_, rfl⟩

/-- A load of a pair, or the reserved form of its term. -/
theorem loadPair_or_reserved_next (even : Bool) (rd base : Reg) (a len : Word) (i : Instr) :
    ∃ t, (if even then loadPair rd base a len s else reserved i s) = .next t := by
  unfold loadPair
  repeat' split
  all_goals exact ⟨_, rfl⟩

/-- A store of a pair, or the reserved form of its term. -/
theorem storePair_or_reserved_next (even : Bool) (rs2 : Reg) (a len : Word) (i : Instr) :
    ∃ t, (if even then storePair rs2 a len s else reserved i s) = .next t := by
  unfold storePair
  repeat' split
  all_goals exact ⟨_, rfl⟩

end

/-- Settles O22: each family's operation answers a next state on every path. -/
theorem execAlwaysAnswersNext : Obligations.ExecAlwaysAnswersNext := by
  intro i s
  cases i with
  | sll _ _ _ | srl _ _ _ | sra _ _ _ | add _ _ _ | sub _ _ _ | xor _ _ _ | or _ _ _ | and _ _ _ | slt _ _ _
  | sltu _ _ _ => exact ⟨_, rfl⟩
  | slli _ _ _ | srli _ _ _ | srai _ _ _ | addi _ _ _ | xori _ _ _ | ori _ _ _ | andi _ _ _ | slti _ _ _
  | sltiu _ _ _ => exact ⟨_, rfl⟩
  | lui _ _ | auipc _ _ | ebreak => exact ⟨_, rfl⟩
  | lw _ _ _ | lh _ _ _ | lb _ _ _ | lhu _ _ _ | lbu _ _ _ => exact loadOp_next s ..
  | bne _ _ _ => exact branchOp_next s (fun a b => !eqW a b) ..
  | beq _ _ _ | blt _ _ _ | bge _ _ _ | bltu _ _ _ | bgeu _ _ _ => exact branchOp_next s ..
  | jal _ _ | jalr _ _ _ => exact linkAndJump_next s ..
  | sw _ _ _ | sh _ _ _ | sb _ _ _ => exact storeOp_next s ..
  | ld _ _ _ | cLdsp _ _ | cLd _ _ _ => exact loadPair_or_reserved_next s ..
  | sd _ _ _ | cSdsp _ _ | cSd _ _ _ => exact storePair_or_reserved_next s ..

/-! ### Steps -/

/-- Once an exception has ended the run a step is the fault that says so (R300). -/
theorem step_of_trap {s : State} {r : TrapRecord} (h : s.trap = some r) : step s = .fault (.runEnded r) := by
  simp [step, cycle, h]

/-- From an address where no instruction can stand a step takes the exception, whatever the bytes are (R310). -/
theorem step_of_misaligned {s : State} (htrap : s.trap = none) (hpc : ¬ InstrAligned s.cfg s.pc) :
    step s = raise .instructionAddressMisaligned s.pc s := by
  have hmis : misalignedPc s.cfg s.pc = true := by rwa [← misalignedPc_iff, Bool.not_eq_false] at hpc
  simp [step, cycle, htrap, hmis]

/-- A step whose fetch finds an unbacked byte takes the access fault (R305). -/
theorem step_of_fetch_unbacked {s : State} (htrap : s.trap = none) (hpc : InstrAligned s.cfg s.pc)
    (hfetch : s.fetch = .unbacked) : step s = raise .instructionAccessFault s.pc s := by
  simp [step, cycle, htrap, (misalignedPc_iff _ _).2 hpc, hfetch]

/-- Decoding and executing answers a next state: an illegal instruction takes its exception (R304), the others have one. -/
theorem decodeAndExecute_next (raw : RawInstr) (s : State) : ∃ t, decodeAndExecute raw s = .next t := by
  unfold decodeAndExecute
  split
  · exact ⟨_, rfl⟩
  · exact execAlwaysAnswersNext _ s

/-- Before the run has ended a step has a next state, or its fetch was refused. -/
theorem step_next_or_stored {s : State} (htrap : s.trap = none) :
    (∃ t, step s = .next t) ∨ (s.fetch = .stored ∧ step s = .refused (.storedCodeFetched s.pc)) := by
  by_cases hpc : InstrAligned s.cfg s.pc
  · cases hfetch : s.fetch with
    | raw r => exact .inl (step_of_fetch htrap hpc hfetch ▸ decodeAndExecute_next r s)
    | unbacked => exact .inl ⟨_, step_of_fetch_unbacked htrap hpc hfetch⟩
    | stored => exact .inr ⟨rfl, step_of_fetch_stored htrap hpc hfetch⟩
  · exact .inl ⟨_, step_of_misaligned htrap hpc⟩

/-- A fetch of bytes that may see stores is not refused, where the fetch that follows it is not. -/
theorem State.fetchBytes_ne_stored {s : State} (hon : s.cfg.fetchSeesStores = true) {a : Word} {n : Nat}
    {k : BitVec (8 * n) → Fetched} (hk : ∀ v, k v ≠ .stored) : s.fetchBytes a n k ≠ .stored := by
  unfold State.fetchBytes
  split
  · exact nofun
  · simpa [hon] using hk _

/-- With `FETCH_SEES_STORES` on no fetch is refused (R57). -/
theorem State.fetch_ne_stored {s : State} (hon : s.cfg.fetchSeesStores = true) : s.fetch ≠ .stored := by
  unfold State.fetch
  split
  · refine State.fetchBytes_ne_stored hon fun lo => ?_
    split
    · exact State.fetchBytes_ne_stored hon nofun
    · exact nofun
  · exact State.fetchBytes_ne_stored hon nofun

/-- Settles O14: the three outcomes of the cycle, and the one that needs a fetch of stored-to bytes. -/
theorem stepOutcomes : Obligations.StepOutcomes := by
  refine fun s => ⟨fun r => step_of_trap, fun htrap => ?_, fun htrap hon => ?_⟩
  · exact (step_next_or_stored htrap).imp_right And.right
  · exact (step_next_or_stored htrap).resolve_right fun h => State.fetch_ne_stored hon h.1

/-! ### Exceptions of the fetch and of the decoder (R304, R305, R310) -/

/-- An exception that a step raises before it executes changes nothing else. -/
theorem traps_of_step {s : State} {cause : Cause} {tval : Word} (h : step s = raise cause tval s) :
    ∃ t, step s = .next t ∧ Traps s t cause tval :=
  ⟨_, h, s.endRun_traps cause tval⟩

/-- Settles O10: the fetch answers the raw instruction at `pc`, and what decodes to nothing raises with its bits. -/
theorem stepTakesIllegalInstruction : Obligations.StepTakesIllegalInstruction := by
  refine ⟨rfl, fun s n raw e htrap hpc hbacked hclean hsplit hdec => traps_of_step ?_⟩
  have hfetch : s.fetch = .raw raw := State.fetch_eq_of_splitRaw ⟨hbacked, hclean⟩ hsplit
  rw [step_of_fetch htrap hpc hfetch, decodeAndExecute, hdec]

/-- A fetch of bytes that are not all backed finds that first (log 11). -/
theorem State.fetchBytes_eq_unbacked {s : State} {a : Word} {n : Nat} (hb : ¬ BackedSpan s.cfg a n)
    (k : BitVec (8 * n) → Fetched) : s.fetchBytes a n k = .unbacked := by
  rw [backedSpan_iff, Bool.not_eq_true] at hb
  simp [State.fetchBytes, hb]

/-- Settles O11: each clause says what the fetch answers, if it comes to the fetch. -/
theorem fetchExceptions : Obligations.FetchExceptions := by
  refine fun s htrap => ⟨fun hpc => ?misaligned, fun hpc hp hb => ?word, fun hpc hp hb => ?first,
    fun hpc hp hb hclean hlong hb' => ?second⟩
  case misaligned => exact traps_of_step (step_of_misaligned htrap hpc)
  all_goals refine traps_of_step (step_of_fetch_unbacked htrap hpc ?_)
  case word => rw [State.fetch, if_neg (by simp [hp]), State.fetchBytes_eq_unbacked hb]
  case first => rw [State.fetch, if_pos hp, State.fetchBytes_eq_unbacked hb]
  case second =>
    rw [State.fetch, if_pos hp, State.fetchBytes_of_fetchable ⟨hb, hclean⟩, loadBytes_two, if_pos hlong,
      State.fetchBytes_eq_unbacked hb']

/-! ### Runs (R315) -/

theorem after_succ_of_next {s t : State} (n : Nat) (h : step s = .next t) : after (n + 1) s = after n t := by
  simp [after, h]

/-- A run cannot be followed past a state from which there is no step. -/
theorem after_succ_of_not_next {s : State} (n : Nat) (h : ∀ t, step s ≠ .next t) : after (n + 1) s = none := by
  unfold after
  split
  · exact absurd ‹_› (h _)
  · rfl
  · rfl

/-- A run of `m + n` steps is a run of `m` steps and one of `n`. -/
theorem after_add (m n : Nat) (s : State) : after (m + n) s = (after m s).bind (after n) := by
  induction m generalizing s with
  | zero => simp [after]
  | succ m ih =>
    rw [Nat.add_right_comm]
    cases hstep : step s with
    | next t => rw [after_succ_of_next _ hstep, after_succ_of_next _ hstep, ih]
    | fault _ | refused _ =>
      rw [after_succ_of_not_next _ (by simp [hstep]), after_succ_of_not_next _ (by simp [hstep])]
      rfl

/-- There is no step from `t`: the run there has ended or is refused. -/
def Stuck (t : State) : Prop := ∀ u, step t ≠ .next u

theorem stuck_of_trap {t : State} {r : TrapRecord} (h : t.trap = some r) : Stuck t := by
  simp [Stuck, step_of_trap h]

theorem stuck_of_refused {t : State} {r : Refusal} (h : step t = .refused r) : Stuck t := by
  simp [Stuck, h]

/-- Nothing comes after a state from which there is no step. -/
theorem after_eq_none_of_stuck {s t : State} {m n : Nat} (h : after m s = some t) (ht : Stuck t) (hn : m < n) :
    after n s = none := by
  obtain ⟨k, rfl⟩ := Nat.exists_eq_add_of_lt hn
  rw [Nat.add_assoc, after_add, h]
  exact after_succ_of_not_next k ht

/-- A run comes to at most one state from which there is no step. -/
theorem stuck_unique {s t t' : State} {m n : Nat} (h : after m s = some t) (ht : Stuck t) (h' : after n s = some t')
    (ht' : Stuck t') : t = t' := by
  rcases Nat.lt_trichotomy m n with hlt | rfl | hlt
  · rw [after_eq_none_of_stuck h ht hlt] at h'; cases h'
  · rw [h] at h'; cases h'; rfl
  · rw [after_eq_none_of_stuck h' ht' hlt] at h; cases h

/-- A run that goes on for ever comes to no state from which there is no step. -/
theorem not_neverEnds_of_stuck {s t : State} {n : Nat} (h : after n s = some t) (ht : Stuck t) : ¬ NeverEnds s := by
  intro hnever
  obtain ⟨u, hu, -⟩ := hnever (n + 1)
  rw [after_eq_none_of_stuck h ht n.lt_succ_self] at hu
  cases hu

/-- A run that neither ends nor is refused can be followed for one more step, whatever its length. -/
theorem neverEnds_of_not_stopped {s : State} (htrap : s.trap = none) (hend : ¬ ∃ t r, EndsIn s t r)
    (href : ¬ IsRefused s) : NeverEnds s := by
  intro n
  induction n with
  | zero => exact ⟨s, rfl, htrap⟩
  | succ n ih =>
    obtain ⟨t, ht, hnone⟩ := ih
    rcases step_next_or_stored hnone with ⟨u, hu⟩ | ⟨-, hstored⟩
    · have hafter : after (n + 1) s = some u := by
        rw [after_add, ht, Option.bind_some, after_succ_of_next 0 hu]
        rfl
      refine ⟨u, hafter, Option.eq_none_iff_forall_ne_some.2 fun r hr => ?_⟩
      exact hend ⟨u, r, n + 1, hafter, hr⟩
    · exact absurd ⟨n, t, ht, hnone, hstored⟩ href

/-- Settles O15: a run stops at one state at most, ended or refused, and goes on for ever if there is none. -/
theorem runHasOneOutcome : Obligations.RunHasOneOutcome := by
  refine fun s htrap => ⟨?one, ?unique, ?endsNever, ?endsRefused, ?neverRefused⟩
  case one =>
    by_contra hnone
    obtain ⟨hend, hnever, href⟩ := by simpa only [not_or] using hnone
    exact hnever (neverEnds_of_not_stopped htrap hend href)
  case unique =>
    rintro t r t' r' ⟨m, hm, hr⟩ ⟨n, hn, hr'⟩
    obtain rfl := stuck_unique hm (stuck_of_trap hr) hn (stuck_of_trap hr')
    exact ⟨rfl, Option.some.inj (hr.symm.trans hr')⟩
  case endsNever =>
    rintro ⟨⟨t, r, n, hn, hr⟩, hnever⟩
    exact not_neverEnds_of_stuck hn (stuck_of_trap hr) hnever
  case endsRefused =>
    rintro ⟨⟨t, r, m, hm, hr⟩, n, u, hn, hnone, hu⟩
    obtain rfl := stuck_unique hm (stuck_of_trap hr) hn (stuck_of_refused hu)
    simp [hnone] at hr
  case neverRefused =>
    rintro ⟨hnever, n, t, hn, -, ht⟩
    exact not_neverEnds_of_stuck hn (stuck_of_refused ht) hnever

end Sys2Proof.Machine
end

section
/-! The pair instructions (49_zilsd_zclsd_optional.md, R260 to R277): what each one loads or stores, what it leaves where it takes
an exception, and the code points that are reserved. -/

namespace Sys2Proof.Machine

/-! ### The operation of each instruction, and of its reserved terms (R262, R263, R269, R273 to R277) -/

section
variable {s : State} {r rs1 : Reg} {k k1 : CReg} {imm : BitVec 12} {offset : BitVec 9} {offset' : BitVec 8}

theorem exec_ld_of_even (h : evenReg r = true) : exec (.ld r imm rs1) s = loadPair r rs1 (s.baseDisp rs1 imm) 4#32 s :=
  if_pos h

theorem exec_sd_of_even (h : evenReg r = true) : exec (.sd r imm rs1) s = storePair r (s.baseDisp rs1 imm) 4#32 s :=
  if_pos h

theorem exec_cLdsp_of_even (h : evenReg r = true) (h0 : r ≠ 0#5) :
    exec (.cLdsp r offset) s = loadPair r sp (s.baseOffset sp offset) 2#32 s :=
  if_pos (Bool.and_eq_true_iff.2 ⟨h, bne_iff_ne.2 h0⟩)

theorem exec_cSdsp_of_even (h : evenReg r = true) :
    exec (.cSdsp r offset) s = storePair r (s.baseOffset sp offset) 2#32 s :=
  if_pos h

theorem exec_cLd_of_even (h : evenReg k = true) :
    exec (.cLd k offset' k1) s = loadPair (cReg k) (cReg k1) (s.baseOffset (cReg k1) offset') 2#32 s :=
  if_pos h

theorem exec_cSd_of_even (h : evenReg k = true) :
    exec (.cSd k offset' k1) s = storePair (cReg k) (s.baseOffset (cReg k1) offset') 2#32 s :=
  if_pos h

end

/-- A register number is even exactly where its low bit is 0 (R261). -/
theorem evenReg_iff {w : Nat} (r : BitVec w) : evenReg r = true ↔ r.toNat % 2 = 0 := by
  simp [evenReg, BitVec.getLsbD, Nat.testBit_zero]

/-- The register that a compressed field names is the field's number plus 8 (R272). -/
theorem cReg_eq_ofNat (k : CReg) : cReg k = BitVec.ofNat 5 (8 + k.toNat) := by
  revert k; decide

theorem State.baseDisp_eq (s : State) (rs1 : Reg) (imm : BitVec 12) :
    s.baseDisp rs1 imm = s.readReg rs1 + BitVec.ofInt 32 imm.toInt := by
  rw [State.baseDisp, sext_eq_ofInt]

theorem State.baseOffset_eq {k : Nat} (s : State) (rs1 : Reg) (offset : BitVec k) :
    s.baseOffset rs1 offset = s.readReg rs1 + BitVec.ofNat 32 offset.toNat := by
  rw [State.baseOffset, zext_eq_ofNat]

/-- From `s` the instruction is the operation of R262 on the even pair `rd`, with the address `a` and `len` bytes long. -/
def IsPairLoad (i : Instr) (s : State) (rd base : Reg) (a len : Word) : Prop :=
  exec i s = loadPair rd base a len s ∧ evenReg rd = true

/-- From `s` the instruction is the operation of R263 on the pair `rs2`, with the address `a` and `len` bytes long. -/
def IsPairStore (i : Instr) (s : State) (rs2 : Reg) (a len : Word) : Prop :=
  exec i s = storePair rs2 a len s

/-- What holds of every load of a pair holds of the three instructions, each at its own address, base and length. -/
theorem forall_pairLoads {s : State} {Ok : Word → Prop} {Claim : Instr → Reg → Reg → Word → Word → Prop}
    (h : ∀ i rd base a len, IsPairLoad i s rd base a len → Ok a → Claim i rd base a len) :
    (∀ (rd rs1 : Reg) (offset : BitVec 12) (a : Word), a = s.readReg rs1 + BitVec.ofInt 32 offset.toInt →
      rd.toNat % 2 = 0 → Ok a → Claim (.ld rd offset rs1) rd rs1 a 4#32) ∧
    (∀ (rd : Reg) (offset : BitVec 9) (a : Word), a = s.readReg 2#5 + BitVec.ofNat 32 offset.toNat →
      rd.toNat % 2 = 0 → rd ≠ 0#5 → Ok a → Claim (.cLdsp rd offset) rd 2#5 a 2#32) ∧
    (∀ (rd rs1 : CReg) (offset : BitVec 8) (a : Word),
      a = s.readReg (BitVec.ofNat 5 (8 + rs1.toNat)) + BitVec.ofNat 32 offset.toNat → rd.toNat % 2 = 0 → Ok a →
      Claim (.cLd rd offset rs1) (BitVec.ofNat 5 (8 + rd.toNat)) (BitVec.ofNat 5 (8 + rs1.toNat)) a 2#32) := by
  simp only [← evenReg_iff, ← State.baseDisp_eq, ← State.baseOffset_eq, ← cReg_eq_ofNat]
  refine ⟨?ld, ?cLdsp, ?cLd⟩
  case ld =>
    rintro rd rs1 offset _ rfl heven
    exact h _ _ _ _ _ ⟨exec_ld_of_even heven, heven⟩
  case cLdsp =>
    rintro rd offset _ rfl heven h0
    exact h _ _ _ _ _ ⟨exec_cLdsp_of_even heven h0, heven⟩
  case cLd =>
    rintro rd rs1 offset _ rfl heven
    exact h _ _ _ _ _ ⟨exec_cLd_of_even heven, evenReg_cReg heven⟩

/-- What holds of every store of a pair holds of the three instructions, each at its own address and length. -/
theorem forall_pairStores {s : State} {Ok : Word → Prop} {Claim : Instr → Reg → Word → Word → Prop}
    (h : ∀ i rs2 a len, IsPairStore i s rs2 a len → Ok a → Claim i rs2 a len) :
    (∀ (rs2 rs1 : Reg) (offset : BitVec 12) (a : Word), a = s.readReg rs1 + BitVec.ofInt 32 offset.toInt →
      rs2.toNat % 2 = 0 → Ok a → Claim (.sd rs2 offset rs1) rs2 a 4#32) ∧
    (∀ (rs2 : Reg) (offset : BitVec 9) (a : Word), a = s.readReg 2#5 + BitVec.ofNat 32 offset.toNat →
      rs2.toNat % 2 = 0 → Ok a → Claim (.cSdsp rs2 offset) rs2 a 2#32) ∧
    (∀ (rs2 rs1 : CReg) (offset : BitVec 8) (a : Word),
      a = s.readReg (BitVec.ofNat 5 (8 + rs1.toNat)) + BitVec.ofNat 32 offset.toNat → rs2.toNat % 2 = 0 → Ok a →
      Claim (.cSd rs2 offset rs1) (BitVec.ofNat 5 (8 + rs2.toNat)) a 2#32) := by
  simp only [← evenReg_iff, ← State.baseDisp_eq, ← State.baseOffset_eq, ← cReg_eq_ofNat]
  refine ⟨?sd, ?cSdsp, ?cSd⟩
  case sd =>
    rintro rs2 rs1 offset _ rfl heven
    exact h _ _ _ _ (exec_sd_of_even heven)
  case cSdsp =>
    rintro rs2 offset _ rfl heven
    exact h _ _ _ _ (exec_cSdsp_of_even heven)
  case cSd =>
    rintro rs2 rs1 offset _ rfl heven
    exact h _ _ _ _ (exec_cSd_of_even heven)

/-! ### The two halves of a pair's data (R42, R261) -/

theorem loadBytes_four_eq_wordAt (s : State) (a : Word) : loadBytes s.mem a 4 = wordAt s a :=
  loadBytes_four s a

/-- A part of a load, of whole bytes, is the load of that part. -/
theorem extract_loadBytes (m : Memory) (a : Word) {n j l : Nat} (h : j + l ≤ n) :
    (loadBytes m a n).extractLsb' (8 * j) (8 * l) = loadBytes m (a + BitVec.ofNat 32 j) l := by
  refine eq_of_bytes_eq fun k hk => ?_
  rw [extract_extract _ _ _ _ _ (by omega), ← Nat.mul_add, loadBytes_byte m a n _ (by omega),
    loadBytes_byte m _ l k hk, BitVec.add_assoc, ← BitVec.ofNat_add]

theorem lowHalf_loadBytes (s : State) (a : Word) :
    (loadBytes s.mem a 8 : Dword).extractLsb' 0 32 = wordAt s a := by
  rw [← loadBytes_four_eq_wordAt]
  simpa using extract_loadBytes s.mem a (n := 8) (j := 0) (l := 4) (by decide)

theorem highHalf_loadBytes (s : State) (a : Word) :
    (loadBytes s.mem a 8 : Dword).extractLsb' 32 32 = wordAt s (a + 4#32) := by
  rw [← loadBytes_four_eq_wordAt]
  exact extract_loadBytes s.mem a (n := 8) (j := 4) (l := 4) (by decide)

/-- Two words side by side are the upper one times 2^32 plus the lower one. -/
theorem append_eq_ofNat (hi lo : Word) : hi ++ lo = BitVec.ofNat 64 (hi.toNat * 2 ^ 32 + lo.toNat) := by
  apply BitVec.eq_of_toNat_eq
  rw [BitVec.toNat_append, ← Nat.shiftLeft_add_eq_or_of_lt lo.isLt, Nat.shiftLeft_eq, BitVec.toNat_ofNat,
    Nat.mod_eq_of_lt (by omega)]

/-- The operand of a pair, as the number that its two registers make. -/
theorem State.readPair_eq_pairValue (s : State) (r : Reg) : s.readPair r = pairValue s r := by
  unfold State.readPair pairValue pairHigh
  rw [append_eq_ofNat]

/-! ### Loads and stores of a pair that complete (R262, R263) -/

section
variable {i : Instr} {s : State} {r base : Reg} {a len : Word}

/-- Where the bytes are backed and no misaligned trap is chosen, a load of a pair brings both halves. -/
theorem IsPairLoad.loadsPair (h : IsPairLoad i s r base a len)
    (hok : BackedSpan s.cfg a 8 ∧ zilsdMisalignedTrap s.cfg a = false) :
    LoadsPair i s r (wordAt s a) (wordAt s (a + 4#32)) len := by
  obtain ⟨hexec, heven⟩ := h
  obtain ⟨hb, hmis⟩ := hok
  refine ⟨(s.writePair r (loadBytes s.mem a 8)).advance len, ?_, ?_, by simp, ⟨fun _ => by simp [State.byteAt],
    fun _ => by simp⟩, by simp, by simp, by simp⟩
  · rw [hexec, loadPair, if_neg (by simp [hmis]), s.memRead_eq_some a 8 hb]
  · rw [← lowHalf_loadBytes, ← highHalf_loadBytes]
    exact s.writePair_setsPair r _ heven

/-- Where the bytes are backed and no misaligned trap is chosen, a store of a pair writes both halves. -/
theorem IsPairStore.stores (h : IsPairStore i s r a len)
    (hok : BackedSpan s.cfg a 8 ∧ zilsdMisalignedTrap s.cfg a = false) : Stores i s a 8 (pairValue s r) len := by
  obtain ⟨hb, hmis⟩ := hok
  apply stores_of_exec (by decide)
  rw [h, storePair, if_neg (by simp [hmis]), s.memWrite_eq_some a 8 _ hb, State.readPair_eq_pairValue]

end

/-- Settles O49: the three loads are one operation, whose value is the two words at the address. -/
theorem pairLoadResults : Obligations.PairLoadResults := by
  intro s
  have hloads := forall_pairLoads (s := s) fun _ _ _ _ _ => IsPairLoad.loadsPair
  simpa only [and_imp] using hloads

/-- Settles O50: the three stores are one operation, whose value is the number that the pair's registers make. -/
theorem pairStoreResults : Obligations.PairStoreResults := by
  intro s
  have hstores := forall_pairStores (s := s) fun _ _ _ _ => IsPairStore.stores
  simpa only [and_imp] using hstores

/-! ### The misaligned trap (R263, R265) -/

/-- The trap is constrained to be false on every multiple of 8 (R265). -/
theorem zilsdMisalignedTrap_of_aligned (c : Config) {a : Word} (h : a.toNat % 8 = 0) :
    zilsdMisalignedTrap c a = false := by
  simp [zilsdMisalignedTrap, h]

/-- The default machine chooses the trap nowhere (R265). -/
theorem zilsdMisalignedTrap_default (a : Word) : zilsdMisalignedTrap Config.default a = false :=
  Bool.and_false _

/-- Where the trap is chosen a store of a pair takes it and writes nothing (log 8). -/
theorem IsPairStore.takesMisaligned {i : Instr} {s : State} {r : Reg} {a len : Word} (h : IsPairStore i s r a len)
    (hmis : zilsdMisalignedTrap s.cfg a = true) : TakesException i s .storeAddressMisaligned a :=
  takesException_of_exec (h.trans (if_pos hmis))

/-- Settles O51: the trap's own constraints, and that the operation of the stores asks for it first. -/
theorem pairMisalignedTraps : Obligations.PairMisalignedTraps :=
  ⟨rfl, rfl, fun c _ => zilsdMisalignedTrap_of_aligned c, zilsdMisalignedTrap_default,
    fun _ => forall_pairStores fun _ _ _ _ => IsPairStore.takesMisaligned⟩

/-! ### Loads of a pair that raise (R266) -/

/-- The exception of a load of a pair that raises: the misaligned trap first (R310). -/
def pairLoadCause (c : Config) (a : Word) : Cause :=
  if zilsdMisalignedTrap c a = true then .loadAddressMisaligned else .loadAccessFault

/-- A load of a pair that cannot complete raises, in the state that R266 leaves open. -/
theorem loadPair_of_fault {s : State} {rd base : Reg} {a : Word} (len : Word)
    (hbad : zilsdMisalignedTrap s.cfg a = true ∨ ¬ BackedSpan s.cfg a 8) :
    loadPair rd base a len s = raise (pairLoadCause s.cfg a) a (s.afterFaultingLoad rd base a) := by
  unfold loadPair pairLoadCause
  split
  · rfl
  · rw [s.memRead_eq_none a 8 (hbad.resolve_left ‹_›)]

/-- For a pair other than 0 each half in turn may have been brought (R266, R267). -/
theorem State.afterFaultingLoad_of_ne_zero {s : State} {rd base : Reg} (a : Word) (h : rd ≠ 0#5) :
    s.afterFaultingLoad rd base a =
      ((s.halfAfterFault base rd a s.draws).halfAfterFault base (pairHigh rd) (a + 4#32) (s.draws + 1)).addDraws 2 :=
  if_neg h

/-- The base register keeps its value (R266). -/
theorem State.readReg_halfAfterFault_base (s : State) (base r : Reg) (a : Word) (n : Nat) :
    (s.halfAfterFault base r a n).readReg base = s.readReg base :=
  (s.readReg_halfAfterFault base r base a n).resolve_right fun h => h.2.1 rfl

/-- The register that a half of the data belongs to holds its old value, or that half, where its bytes are backed (R266,
log 7). -/
theorem State.readReg_halfAfterFault_self (s : State) (base r : Reg) (a : Word) (n : Nat) :
    (s.halfAfterFault base r a n).readReg r = s.readReg r ∨
      (BackedSpan s.cfg a 4 ∧ (s.halfAfterFault base r a n).readReg r = wordAt s a) := by
  rw [backedSpan_iff, ← loadBytes_four_eq_wordAt]
  exact (s.readReg_halfAfterFault base r r a n).imp_right fun h => h.2.2

section
variable (s : State) (rd base : Reg) (a : Word)

theorem State.readReg_afterFaultingLoad_base : (s.afterFaultingLoad rd base a).readReg base = s.readReg base := by
  by_cases h : rd = 0#5
  · exact congrArg (State.readReg · base) (if_pos h)
  · rw [State.afterFaultingLoad_of_ne_zero a h, State.readReg_addDraws, State.readReg_halfAfterFault_base,
      State.readReg_halfAfterFault_base]

theorem State.readReg_afterFaultingLoad_low : (s.afterFaultingLoad rd base a).readReg rd = s.readReg rd ∨
    (BackedSpan s.cfg a 4 ∧ (s.afterFaultingLoad rd base a).readReg rd = wordAt s a) := by
  by_cases h : rd = 0#5
  · exact .inl (congrArg (State.readReg · rd) (if_pos h))
  · rw [State.afterFaultingLoad_of_ne_zero a h, State.readReg_addDraws,
      State.readReg_halfAfterFault_of_ne _ _ _ (pairHigh_ne rd).symm]
    exact s.readReg_halfAfterFault_self base rd a _

theorem State.readReg_afterFaultingLoad_high :
    (s.afterFaultingLoad rd base a).readReg (pairHigh rd) = s.readReg (pairHigh rd) ∨
    (BackedSpan s.cfg (a + 4#32) 4 ∧
      (s.afterFaultingLoad rd base a).readReg (pairHigh rd) = wordAt s (a + 4#32)) := by
  by_cases h : rd = 0#5
  · exact .inl (congrArg (State.readReg · (pairHigh rd)) (if_pos h))
  · rw [State.afterFaultingLoad_of_ne_zero a h, State.readReg_addDraws,
      ← State.readReg_halfAfterFault_of_ne (s := s) base a s.draws (pairHigh_ne rd)]
    have hhalf := (s.halfAfterFault base rd a s.draws).readReg_halfAfterFault_self base (pairHigh rd) (a + 4#32)
      (s.draws + 1)
    simpa [wordAt, State.byteAt] using hhalf

end

/-- A load of a pair that cannot complete leaves what R266 says. -/
theorem IsPairLoad.traps {i : Instr} {s : State} {rd base : Reg} {a len : Word} (h : IsPairLoad i s rd base a len)
    (hbad : zilsdMisalignedTrap s.cfg a = true ∨ ¬ BackedSpan s.cfg a 8) : PairLoadTraps i s rd base a := by
  have hother (r : Reg) (hlow : r ≠ rd) (hhigh : r ≠ pairHigh rd) :
      (s.afterFaultingLoad rd base a).readReg r = s.readReg r :=
    State.readReg_afterFaultingLoad_of_notMem base a (by unfold pairRegs; split <;> simp [hlow, hhigh])
  have hzero (h0 : rd = 0#5) : SameRegs s (s.afterFaultingLoad rd base a) :=
    fun r => congrArg (State.readReg · r) (if_pos h0)
  exact ⟨(s.afterFaultingLoad rd base a).endRun (pairLoadCause s.cfg a) a, pairLoadCause s.cfg a,
    h.1.trans (loadPair_of_fault len hbad), by simp, rfl, by simp, ⟨fun _ => by simp [State.byteAt], fun _ => by simp⟩,
    by simp, s.readReg_afterFaultingLoad_base rd base a, hother, hzero, s.readReg_afterFaultingLoad_low rd base a,
    s.readReg_afterFaultingLoad_high rd base a⟩

/-- Settles O52: the three loads are one operation, and each register after its exception is one of the two that R266 names. -/
theorem faultingPairLoad : Obligations.FaultingPairLoad :=
  fun _ => forall_pairLoads (Claim := fun i rd base a _ => PairLoadTraps i _ rd base a)
    fun _ _ _ _ _ => IsPairLoad.traps

/-! ### Stores of a pair that take the access fault (R268, R307) -/

/-- A store to an access that is not all backed faults, in the state that R268 leaves open. -/
theorem storePair_of_fault {s : State} {r : Reg} {a : Word} (len : Word)
    (hbad : zilsdMisalignedTrap s.cfg a = false ∧ ¬ BackedSpan s.cfg a 8) :
    storePair r a len s = raise .storeAccessFault a (s.afterFaultingStore a (s.readPair r)) := by
  obtain ⟨hmis, hb⟩ := hbad
  rw [storePair, if_neg (by simp [hmis]), s.memWrite_eq_none a 8 _ hb]

/-- A value's bytes within a part of whole bytes are the part's. -/
theorem byteOf_extract {w : Nat} (v : BitVec w) {j l k : Nat} (h : k < l) :
    byteOf (v.extractLsb' (8 * j) (8 * l)) k = byteOf (v >>> (8 * j)) k := by
  rw [byteOf_eq_extract, extract_extract _ _ _ _ _ (by omega), ← Nat.mul_add, ← byteOf_eq_extract, byteOf_eq, byteOf_eq,
    ← BitVec.shiftRight_add, Nat.mul_add]

/-- Writing `l` bytes of a value, shifted to byte `j`, writes that part of it. -/
theorem State.writeBytes_shift_bytesAt {w : Nat} (s : State) (a : Word) (v : BitVec w) (j l : Nat) (hl : l ≤ 2 ^ 32) :
    BytesAt s (s.writeBytes a l (v >>> (8 * j))) a l (v.extractLsb' (8 * j) (8 * l)) := by
  intro x
  rw [s.writeBytes_bytesAt a l _ hl x]
  split
  · rw [byteOf_extract v ‹_›]
  · rfl

/-- A faulting store of a pair has written nothing, or the half that is backed (R268). -/
theorem bytes_afterFaultingStore (s : State) (a : Word) (v : Dword) :
    SameBytes s (s.afterFaultingStore a v) ∨
      (BackedSpan s.cfg a 4 ∧ BytesAt s (s.afterFaultingStore a v) a 4 (v.extractLsb' 0 32)) ∨
      (BackedSpan s.cfg (a + 4#32) 4 ∧ BytesAt s (s.afterFaultingStore a v) (a + 4#32) 4 (v.extractLsb' 32 32)) := by
  rw [backedSpan_iff, backedSpan_iff]
  rcases s.afterFaultingStore_cases a v with ⟨n, e⟩ | ⟨hb, e⟩ | ⟨hb, e⟩ <;> rw [e]
  · exact .inl fun _ => rfl
  · have hlow : BytesAt s (s.writeBytes a 4 v) a 4 (v.extractLsb' 0 32) := by
      simpa using s.writeBytes_shift_bytesAt a v 0 4 (by decide)
    exact .inr (.inl ⟨hb, hlow⟩)
  · exact .inr (.inr ⟨hb, s.writeBytes_shift_bytesAt (a + 4#32) v 4 4 (by decide)⟩)

/-- A store of a pair to an access that is not all backed leaves what R268 says. -/
theorem IsPairStore.faults {i : Instr} {s : State} {r : Reg} {a len : Word} (h : IsPairStore i s r a len)
    (hbad : zilsdMisalignedTrap s.cfg a = false ∧ ¬ BackedSpan s.cfg a 8) : PairStoreFaults i s a (pairValue s r) := by
  rw [← State.readPair_eq_pairValue]
  exact ⟨_, h.trans (storePair_of_fault len hbad), by simp, by simp, by simp, s.readReg_afterFaultingStore a _,
    fun _ => by simp, bytes_afterFaultingStore s a _⟩

/-- Settles O53: the three stores are one operation, and the bytes after its fault are those of one of R268's outcomes. -/
theorem faultingPairStore : Obligations.FaultingPairStore := by
  intro s
  have hfaults := forall_pairStores (s := s) (Claim := fun i r a _ => PairStoreFaults i s a (pairValue s r))
    fun _ _ _ _ => IsPairStore.faults
  simpa only [and_imp] using hfaults

/-! ### Reserved code points (R269, R277) -/

section
variable {ext : Extensions} {w : Word}

/-- A word of `ld` with an odd register is reserved (R269). -/
theorem decodeWord_ld_odd (hon : ext.zilsd = true) (hop : fOpcode w = 0b0000011#7) (h3 : fFunct3 w = 0b011#3)
    (hodd : w.getLsbD 7 = true) : decodeWord ext w = .error .oddPair := by
  simp [decodeWord, hop, decodeLoad, h3, hon, hodd]

/-- A word of `sd` with an odd register is reserved (R269). -/
theorem decodeWord_sd_odd (hon : ext.zilsd = true) (hop : fOpcode w = 0b0100011#7) (h3 : fFunct3 w = 0b011#3)
    (hodd : w.getLsbD 20 = true) : decodeWord ext w = .error .oddPair := by
  simp [decodeWord, hop, decodeStore, h3, hon, hodd]

end

section
variable {h : Half}

theorem decodeParcel_cLdsp_zero (h3 : h.extractLsb' 13 3 = 0b011#3) (hq : h.extractLsb' 0 2 = 0b10#2)
    (h0 : h.extractLsb' 7 5 = 0#5) : decodeParcel h = .error .zeroDestination := by
  simp [decodeParcel, h3, hq, h0]

theorem decodeParcel_cLdsp_odd (h3 : h.extractLsb' 13 3 = 0b011#3) (hq : h.extractLsb' 0 2 = 0b10#2)
    (hodd : h.getLsbD 7 = true) : decodeParcel h = .error .oddPair := by
  have hne : h.extractLsb' 7 5 ≠ 0#5 := fun h0 => by
    have hbit := congrArg (BitVec.getLsbD · 0) h0
    revert hodd
    simpa using hbit
  simp [decodeParcel, h3, hq, hne, hodd]

/-- The other three forms have the pair's number in bits 2 and up (R274 to R276). -/
theorem decodeParcel_odd (hform : h.extractLsb' 13 3 = 0b111#3 ∧ h.extractLsb' 0 2 = 0b10#2 ∨
      h.extractLsb' 13 3 = 0b011#3 ∧ h.extractLsb' 0 2 = 0b00#2 ∨
      h.extractLsb' 13 3 = 0b111#3 ∧ h.extractLsb' 0 2 = 0b00#2) (hodd : h.getLsbD 2 = true) :
    decodeParcel h = .error .oddPair := by
  rcases hform with ⟨h3, hq⟩ | ⟨h3, hq⟩ | ⟨h3, hq⟩ <;> simp [decodeParcel, h3, hq, hodd]

end

/-- A term whose operands are reserved takes the exception with its own bits (log 10). -/
theorem takesException_of_reserved {i : Instr} {s : State} {ok : Bool} {out : Result}
    (hexec : exec i s = if ok then out else reserved i s) (hbad : ok = false) :
    TakesException i s .illegalInstruction (encodeRaw i).toWord := by
  apply takesException_of_exec
  rw [hexec, hbad]
  rfl

theorem evenReg_eq_false {w : Nat} {r : BitVec w} (h : r.toNat % 2 = 1) : evenReg r = false := by
  rw [← Bool.not_eq_true, evenReg_iff]
  omega

/-- Settles O54: each group looks at the pair's low bit before it gives an instruction, and so does each meaning. -/
theorem reservedPairsAreIllegal : Obligations.ReservedPairsAreIllegal := by
  refine ⟨fun ext w hon h3 => ⟨fun hop => decodeWord_ld_odd hon hop h3, fun hop => decodeWord_sd_odd hon hop h3⟩,
    fun h => ⟨fun h3 hq => ⟨decodeParcel_cLdsp_zero h3 hq, decodeParcel_cLdsp_odd h3 hq⟩, decodeParcel_odd⟩,
    fun s r rs1 offset hodd => ?words, fun s r offset => ⟨fun hbad => ?cLdsp, fun hodd => ?cSdsp⟩,
    fun s r rs1 offset hodd => ?parcels⟩
  case words =>
    exact ⟨takesException_of_reserved rfl (evenReg_eq_false hodd), takesException_of_reserved rfl (evenReg_eq_false hodd)⟩
  case cLdsp =>
    refine takesException_of_reserved rfl ?_
    rcases hbad with hodd | rfl
    · rw [evenReg_eq_false hodd, Bool.false_and]
    · rfl
  case cSdsp => exact takesException_of_reserved rfl (evenReg_eq_false hodd)
  case parcels =>
    exact ⟨takesException_of_reserved rfl (evenReg_eq_false hodd), takesException_of_reserved rfl (evenReg_eq_false hodd)⟩

end Sys2Proof.Machine
end

section
/-! Exceptions (R303, R307, R308, R311): which ones an instruction can take, and what is left as it was when one is taken. -/

namespace Sys2Proof.Machine

/-! ### Which instructions move pairs -/

/-- Only the pair instructions store 8 bytes. -/
theorem needs_zilsd_of_storeTarget {i : Instr} {s : State} {a : Word} (h : storeTarget i s = some (a, 8)) :
    i.needs.zilsd = true := by
  cases i with
  | sd _ _ _ | cSdsp _ _ | cSd _ _ _ => rfl
  | _ => simp [storeTarget] at h

/-- Only the pair instructions have two destinations. -/
theorem needs_zilsd_of_destinations {i : Instr} {r q : Reg} (h : destinations i = [r, q]) : i.needs.zilsd = true := by
  cases i with
  | ld _ _ _ | cLdsp _ _ | cLd _ _ _ => rfl
  | _ => simp [destinations] at h

/-- A pair instruction is executed by a machine with `EXT_ZILSD` only (R102, R270). -/
theorem zilsd_of_fetched_pair {s : State} {raw : RawInstr} {i : Instr} (hf : s.fetch = .raw raw)
    (hd : decodeRaw s.cfg.ext raw = .ok i) (hi : i.needs.zilsd = true) : s.cfg.ext.zilsd = true := by
  cases raw with
  | word w => exact decodeWord_needs_zilsd hd hi
  | parcel p => exact (Bool.and_eq_true_iff.1 (parcels_of_fetch_parcel hf)).1

/-! ### Traps are precise (R311) -/

/-- The state `t` is `s` after an exception of the instruction at its `pc` with the record `r`. -/
structure EndsAt (s t : State) (r : TrapRecord) : Prop where
  epc : r.epc = s.pc
  pc : t.pc = s.pc
  dirty : t.dirty = s.dirty

/-- Taking an exception adds the record and nothing else. -/
theorem eq_of_endRun_trap {s : State} {c : Cause} {v : Word} {r : TrapRecord} (hr : (s.endRun c v).trap = some r) :
    s.endRun c v = { s with trap := some r } :=
  hr ▸ rfl

theorem State.endRun_endsAt {s s' : State} {c : Cause} {v : Word} {r : TrapRecord} (hpc : s'.pc = s.pc)
    (hdirty : s'.dirty = s.dirty) (hr : (s'.endRun c v).trap = some r) : EndsAt s (s'.endRun c v) r := by
  cases hr
  exact ⟨hpc, hpc, hdirty⟩

/-- The effects that end a run leave the `pc` and `Dirty`. -/
theorem Effect.endsAt {i : Instr} {s t : State} {r : TrapRecord} (h : Effect i s t) (htrap : s.trap = none)
    (hr : t.trap = some r) : EndsAt s t r := by
  cases h with
  | writes | continues | jumps | links | stores | pairs => simp [htrap] at hr
  | traps c v => exact State.endRun_endsAt rfl rfl hr
  | loadFault rd base a c _ _ _ => exact State.endRun_endsAt (by simp) (by simp) hr
  | storeFault a v _ => exact State.endRun_endsAt (by simp) (by simp) hr

/-- Of the instructions that move no pair, the effects that end a run leave everything. -/
theorem Effect.eq_of_trap {i : Instr} {s t : State} {r : TrapRecord} (h : Effect i s t) (htrap : s.trap = none)
    (hr : t.trap = some r) (hi : i.needs.zilsd = false) : t = { s with trap := some r } := by
  cases h with
  | writes | continues | jumps | links | stores | pairs => simp [htrap] at hr
  | traps c v => exact eq_of_endRun_trap hr
  | loadFault rd base a c hd _ _ =>
    by_cases h0 : rd = 0#5
    · have hsame : s.afterFaultingLoad rd base a = s := if_pos h0
      rw [hsame] at hr ⊢
      exact eq_of_endRun_trap hr
    · rw [pairRegs, if_neg h0] at hd
      simp [needs_zilsd_of_destinations hd] at hi
  | storeFault a v ht => simp [needs_zilsd_of_storeTarget ht] at hi

/-- Settles O16: the exceptions of the cycle add the record, and so do those of every instruction that moves no pair. -/
theorem trapsArePrecise : Obligations.TrapsArePrecise := by
  intro s t r h hr
  obtain ⟨htrap, ⟨c, v, rfl⟩ | ⟨raw, i, hfetch, hdec, hexec⟩⟩ := step_next_cases h
  · have heq := eq_of_endRun_trap hr
    obtain ⟨hepc, hpc, hdirty⟩ := State.endRun_endsAt rfl rfl hr
    exact ⟨hepc, hpc, hdirty, fun _ => heq, fun _ => heq⟩
  · have heffect := exec_effect hexec
    obtain ⟨hepc, hpc, hdirty⟩ := heffect.endsAt htrap hr
    refine ⟨hepc, hpc, hdirty, fun hbase => ?_, fun hneeds => ?_⟩
    · refine heffect.eq_of_trap htrap hr (Bool.eq_false_iff.2 fun hi => ?_)
      have hon := zilsd_of_fetched_pair hfetch hdec hi
      rw [hbase] at hon
      cases hon
    · exact heffect.eq_of_trap htrap hr (by rw [hneeds raw i hfetch hdec]; rfl)

/-! ### The exceptions of each instruction (R308) -/

/-- Where an answer is a state whose run has ended, the cause is one of these. -/
def RaisesOnly (causes : List Cause) (out : Result) : Prop :=
  ∀ t r, out = .next t → t.trap = some r → r.cause ∈ causes

theorem raisesOnly_raise {causes : List Cause} {c : Cause} (v : Word) (s : State) (hc : c ∈ causes) :
    RaisesOnly causes (raise c v s) := by
  rintro _ _ ⟨⟩ ⟨⟩
  exact hc

theorem raisesOnly_next {t : State} (causes : List Cause) (h : t.trap = none) : RaisesOnly causes (.next t) := by
  rintro _ r ⟨⟩ hr
  simp [h] at hr

section
variable {s : State} (htrap : s.trap = none)
include htrap

theorem jumpTo_raisesOnly {p : Word} : RaisesOnly [.instructionAddressMisaligned] (jumpTo p s) := by
  unfold jumpTo
  split
  · exact raisesOnly_raise _ _ (.head _)
  · exact raisesOnly_next _ htrap

theorem linkAndJump_raisesOnly {rd : Reg} {p : Word} :
    RaisesOnly [.instructionAddressMisaligned] (linkAndJump rd p s) := by
  unfold linkAndJump
  split
  · exact raisesOnly_raise _ _ (.head _)
  · exact raisesOnly_next _ (by simpa using htrap)

theorem branchOp_raisesOnly {cond : Word → Word → Bool} {rs1 rs2 : Reg} {offset : BitVec 13} :
    RaisesOnly [.instructionAddressMisaligned] (branchOp cond rs1 rs2 offset s) := by
  unfold branchOp
  split
  · exact jumpTo_raisesOnly htrap
  · exact raisesOnly_next _ htrap

theorem loadOp_raisesOnly {n : Nat} {ext : BitVec (8 * n) → Word} {rd rs1 : Reg} {offset : BitVec 12} :
    RaisesOnly [.loadAccessFault] (loadOp n ext rd offset rs1 s) := by
  unfold loadOp
  split
  · exact raisesOnly_raise _ _ (.head _)
  · exact raisesOnly_next _ (by simpa using htrap)

theorem storeOp_raisesOnly {n : Nat} {rs2 rs1 : Reg} {offset : BitVec 12} :
    RaisesOnly [.storeAccessFault] (storeOp n rs2 offset rs1 s) := by
  unfold storeOp
  split
  · exact raisesOnly_raise _ _ (.head _)
  · rename_i hw
    obtain ⟨-, rfl⟩ := (State.memWrite_eq_some_iff _ _ _ _ _).1 hw
    exact raisesOnly_next _ htrap

theorem loadPair_raisesOnly {rd base : Reg} {a len : Word} :
    RaisesOnly [.loadAddressMisaligned, .loadAccessFault] (loadPair rd base a len s) := by
  unfold loadPair
  split
  · exact raisesOnly_raise _ _ (by simp)
  · split
    · exact raisesOnly_raise _ _ (by simp)
    · exact raisesOnly_next _ (by simpa using htrap)

theorem storePair_raisesOnly {rs2 : Reg} {a len : Word} :
    RaisesOnly [.storeAddressMisaligned, .storeAccessFault] (storePair rs2 a len s) := by
  unfold storePair
  split
  · exact raisesOnly_raise _ _ (by simp)
  · split
    · exact raisesOnly_raise _ _ (by simp)
    · rename_i hw
      obtain ⟨-, rfl⟩ := (State.memWrite_eq_some_iff _ _ _ _ _).1 hw
      exact raisesOnly_next _ htrap

/-- A well-formed instruction raises the exceptions of its own rule only. -/
theorem exec_raisesOnly {i : Instr} (hwf : i.wf = true) : RaisesOnly (ownCauses i) (exec i s) := by
  cases i with
  | sll _ _ _ | srl _ _ _ | sra _ _ _ | add _ _ _ | sub _ _ _ | xor _ _ _ | or _ _ _ | and _ _ _ | slt _ _ _
  | sltu _ _ _ => exact raisesOnly_next _ (by simpa using htrap)
  | slli _ _ _ | srli _ _ _ | srai _ _ _ | addi _ _ _ | xori _ _ _ | ori _ _ _ | andi _ _ _ | slti _ _ _
  | sltiu _ _ _ => exact raisesOnly_next _ (by simpa using htrap)
  | lui _ _ | auipc _ _ => exact raisesOnly_next _ (by simpa using htrap)
  | lw _ _ _ | lh _ _ _ | lb _ _ _ | lhu _ _ _ | lbu _ _ _ => exact loadOp_raisesOnly htrap
  | bne _ _ _ => exact branchOp_raisesOnly (cond := fun a b => !eqW a b) htrap
  | beq _ _ _ | blt _ _ _ | bge _ _ _ | bltu _ _ _ | bgeu _ _ _ => exact branchOp_raisesOnly htrap
  | jal _ _ | jalr _ _ _ => exact linkAndJump_raisesOnly htrap
  | sw _ _ _ | sh _ _ _ | sb _ _ _ => exact storeOp_raisesOnly htrap
  | ebreak => exact raisesOnly_raise _ _ (.head _)
  | ld rd offset rs1 =>
    rw [exec_ld_of_even hwf]
    exact loadPair_raisesOnly htrap
  | sd rs2 offset rs1 =>
    rw [exec_sd_of_even hwf]
    exact storePair_raisesOnly htrap
  | cLdsp rd offset =>
    obtain ⟨heven, hne⟩ := Bool.and_eq_true_iff.1 (Bool.and_eq_true_iff.1 hwf).1
    rw [exec_cLdsp_of_even heven (bne_iff_ne.1 hne)]
    exact loadPair_raisesOnly htrap
  | cSdsp rs2 offset =>
    rw [exec_cSdsp_of_even (Bool.and_eq_true_iff.1 hwf).1]
    exact storePair_raisesOnly htrap
  | cLd rd offset rs1 =>
    rw [exec_cLd_of_even (Bool.and_eq_true_iff.1 hwf).1]
    exact loadPair_raisesOnly htrap
  | cSd rs2 offset rs1 =>
    rw [exec_cSd_of_even (Bool.and_eq_true_iff.1 hwf).1]
    exact storePair_raisesOnly htrap

end

/-- The exceptions of the cycle itself (R310). -/
def cycleCauses : List Cause := [.instructionAddressMisaligned, .instructionAccessFault, .illegalInstruction]

/-- The exceptions of a data misalignment: those of the pair instructions alone (R303). -/
def misalignedDataCauses : List Cause := [.loadAddressMisaligned, .storeAddressMisaligned]

/-- An exception of a step is one of the cycle's own, or one of the fetched instruction's own. -/
theorem step_trap_cause {s t : State} {r : TrapRecord} (h : step s = .next t) (hr : t.trap = some r) :
    r.cause ∈ cycleCauses ∨
      ∃ raw i, s.fetch = .raw raw ∧ decodeRaw s.cfg.ext raw = .ok i ∧ r.cause ∈ ownCauses i := by
  obtain ⟨htrap, -⟩ := step_next_cases h
  by_cases hpc : InstrAligned s.cfg s.pc
  · cases hfetch : s.fetch with
    | unbacked =>
      exact .inl (raisesOnly_raise _ _ (by simp [cycleCauses]) t r ((step_of_fetch_unbacked htrap hpc hfetch).symm.trans h) hr)
    | stored => rw [step_of_fetch_stored htrap hpc hfetch] at h; cases h
    | raw raw =>
      rw [step_of_fetch htrap hpc hfetch, decodeAndExecute] at h
      split at h
      · exact .inl (raisesOnly_raise _ _ (by simp [cycleCauses]) t r h hr)
      · rename_i i hdec
        have hwf : i.wf = true := (decodeThenEncode _ _ _ hdec).2
        exact .inr ⟨raw, i, rfl, hdec, exec_raisesOnly htrap hwf t r h hr⟩
  · exact .inl (raisesOnly_raise _ _ (by simp [cycleCauses]) t r ((step_of_misaligned htrap hpc).symm.trans h) hr)

/-- Only a pair instruction raises for the alignment of its data. -/
theorem needs_zilsd_of_ownCauses {i : Instr} {c : Cause} (h : c ∈ ownCauses i) (hc : c ∈ misalignedDataCauses) :
    i.needs.zilsd = true := by
  cases i with
  | ld _ _ _ | cLdsp _ _ | cLd _ _ _ | sd _ _ _ | cSdsp _ _ | cSd _ _ _ => rfl
  | _ => revert hc; revert c; simp [ownCauses, misalignedDataCauses]

/-- The base machine takes no exception for the alignment of data (R303). -/
theorem step_trap_cause_of_base {s t : State} {r : TrapRecord} (hbase : s.cfg.ext = Extensions.base)
    (h : step s = .next t) (hr : t.trap = some r) : r.cause ∉ misalignedDataCauses := by
  intro hmis
  rcases step_trap_cause h hr with hc | ⟨raw, i, hfetch, hdec, hown⟩
  · revert hc hmis
    cases r.cause <;> decide
  · have hon := zilsd_of_fetched_pair hfetch hdec (needs_zilsd_of_ownCauses hown hmis)
    rw [hbase] at hon
    cases hon

/-- Settles O17: the exceptions of each family's operation, and that only a pair instruction asks for alignment of its data. -/
theorem exceptionCauses : Obligations.ExceptionCauses := by
  refine ⟨fun i s t r hwf htrap h hr => exec_raisesOnly htrap hwf t r h hr, fun s t r hbase h hr => ?_⟩
  simpa [misalignedDataCauses] using step_trap_cause_of_base hbase h hr

/-! ### Where memory changes (R45, R200, R268, R322) -/

/-- A byte that a write of bytes has changed lies in it. -/
theorem BytesAt.lt_of_ne {w : Nat} {s t : State} {addr a : Word} {n : Nat} {v : BitVec w} (h : BytesAt s t addr n v)
    (ha : t.byteAt a ≠ s.byteAt a) : (a - addr).toNat < n := by
  by_contra hout
  exact ha ((h a).trans (if_neg hout))

/-- A byte that a store has changed is in `Dirty` (R45). -/
theorem StoresAt.mem_dirty {w : Nat} {s t : State} {addr a : Word} {n : Nat} {v : BitVec w} (h : StoresAt s t addr n v)
    (ha : t.byteAt a ≠ s.byteAt a) : a.toNat ∈ t.dirty := by
  obtain ⟨hbytes, hdirty⟩ := h
  refine (hdirty a.toNat).2 (.inr ⟨(a - addr).toNat, hbytes.lt_of_ne ha, ?_⟩)
  bv_omega

/-- A byte that a faulting store of a pair has changed lies in its access (R268). -/
theorem lt_of_afterFaultingStore_ne {s : State} {addr a : Word} {v : Dword}
    (ha : (s.afterFaultingStore addr v).byteAt a ≠ s.byteAt a) : (a - addr).toNat < 8 := by
  rcases s.afterFaultingStore_cases addr v with ⟨n, e⟩ | ⟨-, e⟩ | ⟨-, e⟩ <;> rw [e] at ha
  · exact absurd rfl ha
  · have hlow : (a - addr).toNat < 4 := (s.writeBytes_bytesAt addr 4 v (by decide)).lt_of_ne ha
    omega
  · have hhigh : (a - (addr + 4#32)).toNat < 4 :=
      (s.writeBytes_bytesAt (addr + 4#32) 4 (v >>> 32) (by decide)).lt_of_ne ha
    bv_omega

/-- Settles O25: of the effects of an instruction only a store and a faulting store of a pair change a byte. -/
theorem memoryChangesOnlyWhereStored : Obligations.MemoryChangesOnlyWhereStored := by
  intro i s t a h ha
  cases exec_effect h with
  | writes | continues | jumps | links | pairs | traps | loadFault => simp [State.byteAt] at ha
  | stores w addr n v len ht hn _ _ =>
    have hstores := s.poke_storesAt addr n v (by omega)
    exact ⟨⟨addr, n, ht, hstores.1.lt_of_ne ha⟩, .inl (hstores.mem_dirty ha)⟩
  | storeFault addr v ht =>
    exact ⟨⟨addr, 8, ht, lt_of_afterFaultingStore_ne ha⟩, .inr ⟨needs_zilsd_of_storeTarget ht, _, rfl, rfl⟩⟩

end Sys2Proof.Machine
end

section
/-! Starts of a run (R33, R340 to R343), and words of 95_test_vectors.md. -/

namespace Sys2Proof.Machine

/-- A multiple of 4 is an address where an instruction can stand, with or without parcels (R341). -/
theorem InstrAligned.of_mod_four {c : Config} {p : Word} (h : p.toNat % 4 = 0) : InstrAligned c p := by
  unfold InstrAligned
  split <;> omega

/-- An empty image fits every machine. -/
theorem imageFits_nil (c : Config) : ImageFits c [] := by
  simp [ImageFits, Memory.wf]

/-- Settles O19: `RESET_PC` is a multiple of 4, the image fits, and `Dirty` is empty. -/
theorem startsMeetInvariant : Obligations.StartsMeetInvariant := by
  refine ⟨?_, Config.default, Vector.replicate 31 0#32, [], rfl, imageFits_nil _, rfl⟩
  rintro _ ⟨c, regs, image, hwf, ⟨hform, hbacked⟩, rfl⟩
  exact
    { pcAligned := .of_mod_four hwf
      memoryForm := hform
      memoryBacked := hbacked
      dirtyForm := by simp [State.start, AddrSet.wf]
      dirtyKnown := by simp [State.start]
      parameters := hwf }

/-- Settles O5: the decoder evaluates on each of the ten. -/
theorem sampleWordsDecode : Obligations.SampleWordsDecode := by
  unfold Obligations.SampleWordsDecode
  decide

end Sys2Proof.Machine
end

section
/-! Pseudo-instructions and idioms (48_pseudo_instructions.md, R220, R226 to R230, R250 to R252): what executing their sequences
leaves in the registers, and that nothing else changes. -/

namespace Sys2Proof.Machine

/-! ### The halves of a distance or a constant (R226, R229) -/

theorem toNat_loPart (d : Word) : (loPart d).toNat = d.toNat % 4096 := by
  simp [loPart]

/-- The low half as a signed number: bit 11 counts negative. -/
theorem toNat_sext_loPart (d : Word) :
    (sext (loPart d)).toNat = if d.toNat % 4096 < 2048 then d.toNat % 4096 else d.toNat % 4096 + (2 ^ 32 - 4096) := by
  have hsext := toNat_sext (loPart d)
  rw [BitVec.toInt_eq_toNat_cond, toNat_loPart] at hsext
  split at hsext <;> split <;> omega

/-- The upper half is the distance, rounded to the nearest multiple of 2^12. -/
theorem toNat_hiPart (d : Word) : (hiPart d).toNat = (d.toNat + 0x800) % 2 ^ 32 / 2 ^ 12 := by
  have hlo := toNat_sext_loPart d
  have hd := d.isLt
  rw [hiPart, BitVec.extractLsb'_toNat, BitVec.toNat_sub, Nat.shiftRight_eq_div_pow]
  split at hlo <;> omega

/-- What the upper half stands for: the distance without its sign-extended low half. -/
theorem upper_hiPart (d : Word) : upper (hiPart d) = d - sext (loPart d) := by
  have hlo := toNat_sext_loPart d
  have hd := d.isLt
  apply BitVec.eq_of_toNat_eq
  rw [upper_eq_ofNat, BitVec.toNat_ofNat, toNat_hiPart, BitVec.toNat_sub]
  split at hlo <;> omega

/-- The two halves together are the distance (R226). -/
theorem upper_hiPart_add_loPart (d : Word) : upper (hiPart d) + sext (loPart d) = d := by
  rw [upper_hiPart, BitVec.sub_add_cancel]

/-- From an address the two halves of the distance reach the label (R226). -/
theorem add_upper_hiPart_add_loPart (here label : Word) :
    here + upper (hiPart (label - here)) + sext (loPart (label - here)) = label := by
  rw [BitVec.add_assoc, upper_hiPart_add_loPart, BitVec.add_comm, BitVec.sub_add_cancel]

/-- Settles O56: the low half is a remainder, the upper half a rounded quotient, and together they are the distance. -/
theorem labelHalvesReachLabel : Obligations.LabelHalvesReachLabel := by
  rintro A x _ rfl
  refine ⟨toNat_loPart _, toNat_hiPart _, ?_⟩
  rw [← upper_eq_ofNat, ← sext_eq_ofInt, add_upper_hiPart_add_loPart]

/-! ### Sequences of instructions that write registers (R220) -/

/-- The sequence goes from `s` to `t`: the `pc` moves past its 4-byte instructions, and nothing else but registers changes. -/
structure Runs (is : List Instr) (s t : State) : Prop where
  exec : execAll is s = .next t
  pc : t.pc = s.pc + BitVec.ofNat 32 (4 * is.length)
  memory : SameMemory s t
  rest : SameRest s t

/-- The run has not ended after the sequence where it had not before. -/
theorem Runs.trap_none {is : List Instr} {s t : State} (h : Runs is s t) (hs : s.trap = none) : t.trap = none :=
  h.rest.2.2.trans hs

theorem execAll_singleton {i : Instr} {s : State} : execAll [i] s = exec i s := by
  cases h : exec i s <;> simp [execAll, h]

/-- An instruction in front of a sequence is executed first, where no exception ends the run. -/
theorem execAll_cons {i : Instr} {is : List Instr} {s t : State} (h : exec i s = .next t) (ht : t.trap = none) :
    execAll (i :: is) s = execAll is t := by
  simp [execAll, h, ht]

/-- An instruction that completes is a sequence of one. -/
theorem runs_of_completes {i : Instr} {s : State} {rd : Reg} {v : Word} (h : Completes i s rd v) :
    ∃ t, Runs [i] s t ∧ SetsReg s t rd v := by
  obtain ⟨t, hexec, hset, hpc, hmem, hrest⟩ := h
  exact ⟨t, ⟨execAll_singleton.trans hexec, hpc, hmem, hrest⟩, hset⟩

theorem SameMemory.trans {s t u : State} (h : SameMemory s t) (h' : SameMemory t u) : SameMemory s u :=
  ⟨fun a => (h'.1 a).trans (h.1 a), fun a => (h'.2 a).trans (h.2 a)⟩

theorem SameRest.trans {s t u : State} (h : SameRest s t) (h' : SameRest t u) : SameRest s u :=
  ⟨h'.1.trans h.1, h'.2.1.trans h.2.1, h'.2.2.trans h.2.2⟩

/-- An instruction that completes and a sequence after it are one sequence. -/
theorem Runs.cons {i : Instr} {is : List Instr} {s t u : State} (hs : s.trap = none) (h : Runs [i] s t)
    (h' : Runs is t u) : Runs (i :: is) s u where
  exec := (execAll_cons (execAll_singleton.symm.trans h.exec) (h.trap_none hs)).trans h'.exec
  pc := by
    rw [h'.pc, h.pc, BitVec.add_assoc, ← BitVec.ofNat_add, ← Nat.mul_add, ← List.length_append, List.singleton_append]
  memory := h.memory.trans h'.memory
  rest := h.rest.trans h'.rest

/-! ### `la` and `li` (R228, R229) -/

/-- Adding a constant to a register that has just been set sets it to the sum; x0 stays 0 throughout. -/
theorem SetsReg.add_self {s t u : State} {rd : Reg} {v w : Word} (h : SetsReg s t rd v)
    (h' : SetsReg t u rd (t.readReg rd + w)) : SetsReg s u rd (v + w) := by
  intro r
  rw [h' r]
  split
  · rename_i hr
    rw [h rd, if_pos ⟨rfl, hr.1 ▸ hr.2⟩]
  · rw [h r, if_neg ‹_›]

/-- The sequence of `la` and of the long `li`: an upper half into `rd`, and a low half added to it. -/
theorem runs_upper_addi {i : Instr} {s : State} {rd : Reg} {v : Word} (lo : BitVec 12) (hs : s.trap = none)
    (h : Completes i s rd v) : ∃ t, Runs [i, .addi rd rd lo] s t ∧ SetsReg s t rd (v + sext lo) := by
  obtain ⟨t, hfirst, hset⟩ := runs_of_completes h
  have hadd : Completes (.addi rd rd lo) t rd (t.readReg rd + sext lo) := completes_of_exec rfl
  obtain ⟨u, hsecond, hset'⟩ := runs_of_completes hadd
  exact ⟨u, hfirst.cons hs hsecond, hset.add_self hset'⟩

/-- The sequence of `la`, at the address it was made for, leaves the label's address (R228). -/
theorem runs_la {s : State} (rd : Reg) (label : Word) (hs : s.trap = none) :
    ∃ t, Runs [.auipc rd (hiPart (label - s.pc)), .addi rd rd (loPart (label - s.pc))] s t ∧ SetsReg s t rd label := by
  have hupper : Completes (.auipc rd (hiPart (label - s.pc))) s rd (s.pc + upper (hiPart (label - s.pc))) :=
    completes_of_exec rfl
  have hruns := runs_upper_addi (loPart (label - s.pc)) hs hupper
  rwa [add_upper_hiPart_add_loPart] at hruns

/-- The sequence of `li` leaves its constant, in each of its three forms (R229). -/
theorem runs_liSequence {s : State} (rd : Reg) (v : Word) (hs : s.trap = none) :
    ∃ t, Runs (liSequence rd v) s t ∧ SetsReg s t rd v := by
  have hlui : Completes (.lui rd (hiPart v)) s rd (upper (hiPart v)) := completes_of_exec rfl
  unfold liSequence
  split
  case isTrue hshort =>
    have haddi : Completes (.addi rd x0 (loPart v)) s rd (0#32 + sext (loPart v)) := completes_of_exec rfl
    rw [hshort, BitVec.zero_add] at haddi
    exact runs_of_completes haddi
  case isFalse =>
    split
    case isTrue hzero =>
      have hv : upper (hiPart v) = v := by
        have hhalves := upper_hiPart_add_loPart v
        rwa [hzero, show sext 0#12 = 0#32 from rfl, BitVec.add_zero] at hhalves
      rw [hv] at hlui
      exact runs_of_completes hlui
    case isFalse =>
      have hruns := runs_upper_addi (loPart v) hs hlui
      rwa [upper_hiPart_add_loPart] at hruns

/-- Settles O57: each expansion is a sequence that sets `rd` by way of its two halves. -/
theorem loadAddressAndConstant : Obligations.LoadAddressAndConstant := by
  intro s rd x is hs hexpand
  have hruns : ∃ t, Runs is s t ∧ SetsReg s t rd x := by
    rcases hexpand with h | h <;> cases h
    · exact runs_la rd x hs
    · exact runs_liSequence rd x hs
  obtain ⟨t, hrun, hset⟩ := hruns
  exact ⟨t, hrun.exec, hset, hrun.pc, hrun.memory, hrun.rest⟩

/-! ### The arithmetic and set pseudo-instructions (R230) -/

/-- A pseudo-instruction that is one instruction, which writes `rd` and goes on, leaves that value. -/
theorem pseudo_of_exec {p : Pseudo} {i : Instr} {s : State} {rd : Reg} {v w : Word} (hexpand : p.expand s.pc = some [i])
    (hexec : exec i s = .next ((s.writeReg rd v).advance 4#32)) (hv : v = w) :
    ∃ is t, p.expand s.pc = some is ∧ execAll is s = .next t ∧ SetsReg s t rd w ∧ t.pc = s.pc + 4#32 ∧
      SameMemory s t ∧ SameRest s t := by
  subst hv
  obtain ⟨t, hrun, hset⟩ := runs_of_completes (completes_of_exec hexec)
  exact ⟨[i], t, hexpand, hrun.exec, hset, hrun.pc, hrun.memory, hrun.rest⟩

section
variable (a : Word)

/-- Subtracting from 0 negates the signed number. -/
theorem zero_sub_eq_ofInt : 0#32 - a = BitVec.ofInt 32 (-a.toInt) := by
  rw [BitVec.zero_sub, BitVec.ofInt_neg, BitVec.ofInt_toInt]

/-- Exclusive or with 32 ones subtracts from the greatest number. -/
theorem xor_ones_eq_ofNat : a ^^^ sext (BitVec.allOnes 12) = BitVec.ofNat 32 (2 ^ 32 - 1 - a.toNat) := by
  rw [show sext (BitVec.allOnes 12) = BitVec.allOnes 32 from rfl, BitVec.xor_allOnes]
  apply BitVec.eq_of_toNat_eq
  rw [BitVec.toNat_not, BitVec.toNat_ofNat, Nat.mod_eq_of_lt (by omega)]

/-- Only 0 is below 1. -/
theorem ltU_one_iff : ltU a (sext 1#12) = true ↔ a = 0#32 := by
  rw [ltU_iff, show (sext 1#12).toNat = 1 from rfl]
  bv_omega

theorem ltS_zero_iff : ltS a 0#32 = true ↔ a.toInt < 0 := ltS_iff a 0#32

theorem zero_ltS_iff : ltS 0#32 a = true ↔ a.toInt > 0 := ltS_iff 0#32 a

/-- Every word but 0 is above 0. -/
theorem zero_ltU_iff : ltU 0#32 a = true ↔ a ≠ 0#32 := by
  rw [ltU_iff]
  bv_omega

end

/-- A comparison's result is 1 where what it decides holds and 0 elsewhere (R8). -/
theorem boolToWord_of_iff {c : Bool} {p : Prop} [Decidable p] (h : c = true ↔ p) :
    boolToWord c = if p then 1#32 else 0#32 := by
  rw [boolToWord, if_congr h rfl rfl]

/-- Settles O58: each expansion is one instruction, whose operands are `rs` and a constant. -/
theorem setPseudoResults : Obligations.SetPseudoResults := by
  intro s rd rs _ pv hpv
  simp only [List.mem_cons, List.not_mem_nil, or_false] at hpv
  rcases hpv with rfl | rfl | rfl | rfl | rfl | rfl
  · exact pseudo_of_exec rfl rfl (zero_sub_eq_ofInt _)
  · exact pseudo_of_exec rfl rfl (xor_ones_eq_ofNat _)
  · exact pseudo_of_exec rfl rfl (boolToWord_of_iff (ltU_one_iff _))
  · exact pseudo_of_exec rfl rfl (boolToWord_of_iff (zero_ltU_iff _))
  · exact pseudo_of_exec rfl rfl (boolToWord_of_iff (ltS_zero_iff _))
  · exact pseudo_of_exec rfl rfl (boolToWord_of_iff (zero_ltS_iff _))

/-! ### Overflow and the 64-bit sum (R250 to R252) -/

/-- The sum is below an operand exactly where it did not fit (R250). -/
theorem add_ltU_iff (a b : Word) : ltU (a + b) a = true ↔ a.toNat + b.toNat ≥ 2 ^ 32 := by
  rw [ltU_iff, BitVec.toNat_add]
  omega

theorem add_ltU_right_iff (a b : Word) : ltU (a + b) b = true ↔ a.toNat + b.toNat ≥ 2 ^ 32 := by
  rw [BitVec.add_comm, add_ltU_iff, Nat.add_comm]

/-- That the sum is below one operand, and that the other is negative, differ exactly where the signed sum did not fit (R251). -/
theorem signed_overflow_iff (a b : Word) :
    ¬ (b.toInt < 0 ↔ (a + b).toInt < a.toInt) ↔ (a.toInt + b.toInt < -2 ^ 31 ∨ a.toInt + b.toInt ≥ 2 ^ 31) := by
  have hsum := BitVec.toNat_add a b
  simp only [BitVec.toInt_eq_toNat_cond]
  split_ifs <;> omega

theorem boolToWord_ne_iff (c d : Bool) : boolToWord c ≠ boolToWord d ↔ ¬ (c = true ↔ d = true) := by
  revert c d; decide

/-- Adding low words, upper words and the carry adds doublewords (R252). -/
theorem append_add_append (a b c d : Word) :
    ((if b.toNat + d.toNat ≥ 2 ^ 32 then 1#32 else 0#32) + (a + c)) ++ (b + d) = (a ++ b) + (c ++ d) := by
  simp only [append_eq_ofNat, ← BitVec.ofNat_add]
  apply BitVec.eq_of_toNat_eq
  simp only [BitVec.toNat_ofNat, BitVec.toNat_add]
  split <;> simp only [BitVec.toNat_ofNat] <;> omega

section
variable {s : State} (rd rs1 rs2 : Reg)

theorem runs_add : ∃ t, Runs [.add rd rs1 rs2] s t ∧ SetsReg s t rd (s.readReg rs1 + s.readReg rs2) :=
  runs_of_completes (completes_of_exec rfl)

theorem runs_sltu :
    ∃ t, Runs [.sltu rd rs1 rs2] s t ∧ SetsReg s t rd (boolToWord (ltU (s.readReg rs1) (s.readReg rs2))) :=
  runs_of_completes (completes_of_exec rfl)

theorem runs_slt :
    ∃ t, Runs [.slt rd rs1 rs2] s t ∧ SetsReg s t rd (boolToWord (ltS (s.readReg rs1) (s.readReg rs2))) :=
  runs_of_completes (completes_of_exec rfl)

theorem runs_slti_zero :
    ∃ t, Runs [.slti rd rs1 0#12] s t ∧ SetsReg s t rd (boolToWord (ltS (s.readReg rs1) 0#32)) :=
  runs_of_completes (completes_of_exec rfl)

end

/-- Settles O59: the carry out of the low words is the comparison of their sum with an operand, and is added to the upper words. -/
theorem sixtyFourBitAddition : Obligations.SixtyFourBitAddition := by
  intro s hs
  obtain ⟨s₁, hlow, e₁⟩ := runs_add (s := s) 14 10 12
  have hs₁ := hlow.trap_none hs
  obtain ⟨s₂, hcarry, e₂⟩ := runs_sltu (s := s₁) 6 14 12
  have hs₂ := hcarry.trap_none hs₁
  obtain ⟨s₃, hhigh, e₃⟩ := runs_add (s := s₂) 15 11 13
  have hs₃ := hhigh.trap_none hs₂
  obtain ⟨s₄, hsum, e₄⟩ := runs_add (s := s₃) 15 6 15
  have hrun : Runs add64Idiom s s₄ := hlow.cons hs (hcarry.cons hs₁ (hhigh.cons hs₂ hsum))
  unfold SetsReg at e₁ e₂ e₃ e₄
  have h14 : s₄.readReg 14 = s.readReg 10 + s.readReg 12 := by simp [e₁, e₂, e₃, e₄]
  have h6 : s₄.readReg 6 = if (s.readReg 10).toNat + (s.readReg 12).toNat ≥ 2 ^ 32 then 1#32 else 0#32 := by
    rw [← boolToWord_of_iff (add_ltU_right_iff _ _)]
    simp [e₁, e₂, e₃, e₄]
  have h15 : s₄.readReg 15 = s₄.readReg 6 + (s.readReg 11 + s.readReg 13) := by simp [e₁, e₂, e₃, e₄]
  refine ⟨s₄, hrun.exec, hrun.pc, hrun.memory, hrun.rest, ?_, h6, fun r hr => ?_⟩
  · rw [h15, h14, h6, append_add_append]
  · obtain ⟨hne6, hne14, hne15⟩ := by simpa using hr
    simp [e₁, e₂, e₃, e₄, hne6, hne14, hne15]

/-- Settles O60: each sequence compares the sum with an operand; the signed one also asks for the sign of the other operand. -/
theorem overflowSequences : Obligations.OverflowSequences := by
  refine fun s hs => ⟨?carry, ?signed⟩
  case carry =>
    obtain ⟨s₁, hsum, e₁⟩ := runs_add (s := s) 5 6 7
    obtain ⟨s₂, hcarry, e₂⟩ := runs_sltu (s := s₁) 28 5 6
    have hrun : Runs (carryIdiom 5 6 7 28) s s₂ := hsum.cons hs hcarry
    unfold SetsReg at e₁ e₂
    refine ⟨s₂, hrun.exec, by simp [e₁, e₂], ?_, fun r hr => ?_, hrun.pc, hrun.memory, hrun.rest⟩
    · rw [← boolToWord_of_iff (add_ltU_iff _ _)]
      simp [e₁, e₂]
    · obtain ⟨hne5, hne28⟩ := by simpa using hr
      simp [e₁, e₂, hne5, hne28]
  case signed =>
    obtain ⟨s₁, hsum, e₁⟩ := runs_add (s := s) 5 6 7
    have hs₁ := hsum.trap_none hs
    obtain ⟨s₂, hneg, e₂⟩ := runs_slti_zero (s := s₁) 28 7
    obtain ⟨s₃, hless, e₃⟩ := runs_slt (s := s₂) 29 5 6
    have hrun : Runs (signedOverflowIdiom 5 6 7 28 29) s s₃ := hsum.cons hs (hneg.cons hs₁ hless)
    unfold SetsReg at e₁ e₂ e₃
    have h28 : s₃.readReg 28 = boolToWord (ltS (s.readReg 7) 0#32) := by simp [e₁, e₂, e₃]
    have h29 : s₃.readReg 29 = boolToWord (ltS (s.readReg 6 + s.readReg 7) (s.readReg 6)) := by simp [e₁, e₂, e₃]
    refine ⟨s₃, hrun.exec, by simp [e₁, e₂, e₃], ?_, fun r hr => ?_, hrun.pc, hrun.memory, hrun.rest⟩
    · rw [h28, h29, boolToWord_ne_iff, ltS_zero_iff, ltS_iff, signed_overflow_iff]
    · obtain ⟨hne5, hne28, hne29⟩ := by simpa using hr
      simp [e₁, e₂, e₃, hne5, hne28, hne29]

end Sys2Proof.Machine
end

section
/-! The assembler's ranges (R222, R95, R14): a line of a base instruction is accepted exactly where its number fits its field. -/

namespace Sys2Proof.Machine

/-! ### Fields (R95) -/

theorem signedField_12 (v : Int) :
    signedField 12 v = if -2048 ≤ v ∧ v ≤ 2047 then some (BitVec.ofInt 12 v) else none :=
  if_congr (by omega) rfl rfl

theorem unsignedField_5 (v : Int) : unsignedField 5 v = if 0 ≤ v ∧ v ≤ 31 then some (BitVec.ofInt 5 v) else none :=
  if_congr (by omega) rfl rfl

theorem unsignedField_20 (v : Int) :
    unsignedField 20 v = if 0 ≤ v ∧ v ≤ 0xfffff then some (BitVec.ofInt 20 v) else none :=
  if_congr (by omega) rfl rfl

section
variable {k : Nat} {v : Int}

/-- The low bits of a number of 32 bits are the number, in a smaller field. -/
theorem setWidth_ofInt (hk32 : k ≤ 32) (hv : -2 ^ 31 ≤ v ∧ v < 2 ^ 31) :
    (BitVec.ofInt 32 v).setWidth k = BitVec.ofInt k v := by
  rw [← BitVec.signExtend_eq_setWidth_of_le _ hk32, BitVec.signExtend,
    BitVec.toInt_ofInt_eq_self (by decide) hv.1 hv.2]

/-- A field of `k` bits keeps a number exactly where it is in the field's signed range (R14, R95). -/
theorem sext_ofInt_iff (hk : 0 < k) (hk32 : k ≤ 32) (hv : -2 ^ 31 ≤ v ∧ v < 2 ^ 31) :
    sext (BitVec.ofInt k v) = BitVec.ofInt 32 v ↔ -2 ^ (k - 1) ≤ v ∧ v < 2 ^ (k - 1) := by
  rw [← BitVec.toInt_inj, toInt_sext _ hk32, BitVec.toInt_ofInt_eq_self (w := 32) (by decide) hv.1 hv.2]
  constructor
  · intro hkeeps
    rw [← hkeeps]
    exact ⟨BitVec.le_toInt _, BitVec.toInt_lt⟩
  · exact fun hrange => BitVec.toInt_ofInt_eq_self hk hrange.1 hrange.2

theorem getLsbD_zero_ofInt (v : Int) : (BitVec.ofInt 32 v).getLsbD 0 = false ↔ v % 2 = 0 := by
  rw [← Bool.not_eq_true', evenReg_iff, BitVec.toNat_ofInt]
  omega

/-- The field for the distance that `.+v` denotes: there is one exactly where the distance is even and in range (R14). -/
theorem pcrel_here (here : Word) (hk : 0 < k) (hk32 : k ≤ 32) (hv : -2 ^ 31 ≤ v ∧ v < 2 ^ 31) :
    pcrel k here (here + BitVec.ofInt 32 v) =
      if (-2 ^ (k - 1) ≤ v ∧ v < 2 ^ (k - 1)) ∧ v % 2 = 0 then some (BitVec.ofInt k v) else none := by
  have hdist : here + BitVec.ofInt 32 v - here = BitVec.ofInt 32 v := by
    rw [BitVec.add_comm, BitVec.add_sub_cancel]
  simp only [pcrel, hdist, setWidth_ofInt hk32 hv]
  exact if_congr (and_congr (sext_ofInt_iff hk hk32 hv) (getLsbD_zero_ofInt v)) rfl rfl

/-- A distance that a branch or a jump can hold is even (R78, R80). -/
theorem evenOffset_of_pcrel {here target : Word} {offset : BitVec k} (h : pcrel k here target = some offset) :
    evenOffset offset = true := by
  unfold pcrel at h
  dsimp only at h
  split at h
  · rename_i hfits
    obtain ⟨-, heven⟩ := hfits
    cases h
    rw [evenOffset, BitVec.getLsbD_setWidth, heven, Bool.and_false, Bool.not_false]
  · cases h

end

/-! ### Lines -/

section
variable {ext : Extensions} {syms : Symbols} {here : Word} {r₁ r₂ : Reg} {v : Int}

/-- A line whose number goes into a field of `k` bits is accepted exactly where there is such a field (R222). -/
theorem accepts_of_field {line : Line} {k : Nat} {field : Option (BitVec k)} {imm : BitVec k} {fits : Prop} [Decidable fits]
    {op : BitVec k → Instr} (hbase : assembleBase syms here line = some (accept (field.map fun imm => [op imm])))
    (hfield : field = if fits then some imm else none) (hwf : fits → (op imm).wf = true) :
    Accepts (assembleLine ext syms here line) fits (op imm) := by
  simp only [assembleLine, hbase, hfield]
  refine ⟨fun hin => ?_, fun hout => ?_⟩
  · simp [hin, accept, Except.bind, hwf hin]
  · simp [hout, accept, Except.bind]

theorem accepts_twoRegisterImmediate {p : String × (Reg → Reg → BitVec 12 → Instr)} (hp : p ∈ twoRegisterImmediate) :
    Accepts (assembleLine ext syms here ⟨p.1, [.reg r₁, .reg r₂, .num v]⟩) (-2048 ≤ v ∧ v ≤ 2047)
      (p.2 r₁ r₂ (BitVec.ofInt 12 v)) := by
  simp only [twoRegisterImmediate, List.mem_cons, List.not_mem_nil, or_false] at hp
  rcases hp with rfl | rfl | rfl | rfl | rfl | rfl | rfl
  all_goals exact accepts_of_field rfl (signedField_12 v) fun _ => rfl

theorem accepts_jalr_mem :
    Accepts (assembleLine ext syms here ⟨"jalr", [.reg r₁, .mem v r₂]⟩) (-2048 ≤ v ∧ v ≤ 2047)
      (.jalr r₁ r₂ (BitVec.ofInt 12 v)) :=
  accepts_of_field (op := .jalr r₁ r₂) rfl (signedField_12 v) fun _ => rfl

theorem accepts_loadKinds {p : String × LoadKind} (hp : p ∈ loadKinds) :
    Accepts (assembleLine ext syms here ⟨p.1, [.reg r₁, .mem v r₂]⟩) (-2048 ≤ v ∧ v ≤ 2047)
      (p.2.instr r₁ (BitVec.ofInt 12 v) r₂) := by
  simp only [loadKinds, List.mem_cons, List.not_mem_nil, or_false] at hp
  rcases hp with rfl | rfl | rfl | rfl | rfl
  all_goals exact accepts_of_field (op := fun imm => LoadKind.instr _ r₁ imm r₂) rfl (signedField_12 v) fun _ => rfl

theorem accepts_storeKinds {p : String × StoreKind} (hp : p ∈ storeKinds) :
    Accepts (assembleLine ext syms here ⟨p.1, [.reg r₁, .mem v r₂]⟩) (-2048 ≤ v ∧ v ≤ 2047)
      (p.2.instr r₁ (BitVec.ofInt 12 v) r₂) := by
  simp only [storeKinds, List.mem_cons, List.not_mem_nil, or_false] at hp
  rcases hp with rfl | rfl | rfl
  all_goals exact accepts_of_field (op := fun imm => StoreKind.instr _ r₁ imm r₂) rfl (signedField_12 v) fun _ => rfl

theorem accepts_shiftImmediate {p : String × (Reg → Reg → BitVec 5 → Instr)} (hp : p ∈ shiftImmediate) :
    Accepts (assembleLine ext syms here ⟨p.1, [.reg r₁, .reg r₂, .num v]⟩) (0 ≤ v ∧ v ≤ 31)
      (p.2 r₁ r₂ (BitVec.ofInt 5 v)) := by
  simp only [shiftImmediate, List.mem_cons, List.not_mem_nil, or_false] at hp
  rcases hp with rfl | rfl | rfl
  all_goals exact accepts_of_field rfl (unsignedField_5 v) fun _ => rfl

theorem accepts_upperImmediate {p : String × (Reg → BitVec 20 → Instr)} (hp : p ∈ upperImmediate) :
    Accepts (assembleLine ext syms here ⟨p.1, [.reg r₁, .num v]⟩) (0 ≤ v ∧ v ≤ 0xfffff)
      (p.2 r₁ (BitVec.ofInt 20 v)) := by
  simp only [upperImmediate, List.mem_cons, List.not_mem_nil, or_false] at hp
  rcases hp with rfl | rfl
  all_goals exact accepts_of_field rfl (unsignedField_20 v) fun _ => rfl

/-- A branch to `.+v` is accepted exactly where its 13-bit field holds the distance. -/
theorem accepts_branches {p : String × (Reg → Reg → BitVec 13 → Instr)} (hp : p ∈ branches)
    (hv : -2 ^ 31 ≤ v ∧ v < 2 ^ 31) :
    Accepts (assembleLine ext syms here ⟨p.1, [.reg r₁, .reg r₂, .here v]⟩) (-4096 ≤ v ∧ v ≤ 4094 ∧ v % 2 = 0)
      (p.2 r₁ r₂ (BitVec.ofInt 13 v)) := by
  have hfield : pcrel 13 here (here + BitVec.ofInt 32 v) =
      if -4096 ≤ v ∧ v ≤ 4094 ∧ v % 2 = 0 then some (BitVec.ofInt 13 v) else none :=
    (pcrel_here here (by decide) (by decide) hv).trans (if_congr (by omega) rfl rfl)
  simp only [branches, List.mem_cons, List.not_mem_nil, or_false] at hp
  rcases hp with rfl | rfl | rfl | rfl | rfl | rfl
  all_goals
    exact accepts_of_field rfl hfield fun hin => evenOffset_of_pcrel (hfield.trans (if_pos hin))

/-- `jal` to `.+v` is accepted exactly where its 21-bit field holds the distance. -/
theorem accepts_jal (hv : -2 ^ 31 ≤ v ∧ v < 2 ^ 31) :
    Accepts (assembleLine ext syms here ⟨"jal", [.reg r₁, .here v]⟩) (-1048576 ≤ v ∧ v ≤ 1048574 ∧ v % 2 = 0)
      (.jal r₁ (BitVec.ofInt 21 v)) := by
  have hfield : pcrel 21 here (here + BitVec.ofInt 32 v) =
      if -1048576 ≤ v ∧ v ≤ 1048574 ∧ v % 2 = 0 then some (BitVec.ofInt 21 v) else none :=
    (pcrel_here here (by decide) (by decide) hv).trans (if_congr (by omega) rfl rfl)
  exact accepts_of_field (op := .jal r₁) rfl hfield fun hin =>
    evenOffset_of_pcrel (hfield.trans (if_pos hin))

end

/-- Settles O55: each line goes to the field of its instruction, and each field has its own range. -/
theorem assemblerChecksRanges : Obligations.AssemblerChecksRanges :=
  fun _ _ _ _ _ _ => ⟨fun _ => accepts_twoRegisterImmediate, accepts_jalr_mem, fun _ => accepts_loadKinds,
    fun _ => accepts_storeKinds, fun _ => accepts_shiftImmediate, fun _ => accepts_upperImmediate,
    fun hv => ⟨fun _ hp => accepts_branches hp hv, accepts_jal hv⟩⟩

end Sys2Proof.Machine
end
